-- ==== Sys2Proof/Word.lean ====
section
/-! DEFINITION. The value types of the spec (00_scope.md R8): words, bytes, nibbles and text. -/

namespace Sys2Proof

/-- R8: `Word`, 16 bits; bit 0 is the least significant (R6). Every instruction is exactly one (R30). -/
abbrev Word := BitVec 16

/-- R8: `Byte`, 8 bits. -/
abbrev Byte := BitVec 8

/-- R8: `Nibble`, 4 bits, "one hex digit"; register indices are nibbles. -/
abbrev Nibble := BitVec 4

/-- A character string of the text side, as the list of its characters (log 13). -/
abbrev Text := List Char

end Sys2Proof
end

