-- ==== Sys2Proof/Config.lean ====
section
/-! DEFINITION. The implementation parameters of 00_scope.md R5. -/

namespace Sys2Proof

/-- R5 `HEXCASE`: the letter case of the hex digits the decoder prints (D14, U11). -/
inductive HexCase
  | upper
  | lower
deriving DecidableEq, Repr

/-- The parameters of R5 a machine is built with and no step writes (log 5). TABLE is a parameter of the mechanism's
functions instead (log 1). -/
structure Params where
  /-- `ADDRW`: `none` is the unbounded model, `some n` a realisation with `n`-bit counters (R5, R12, D16). -/
  addrw : Option Nat
  /-- `HEXCASE` (R5, D14). -/
  hexcase : HexCase
deriving DecidableEq, Repr

/-- R5, R12: "model: unbounded natural"; R5, R47: upper case. -/
def Params.default : Params := { addrw := none, hexcase := .upper }

/-- R5: a realisation's counters have at least 12 bits. -/
abbrev Params.wf (p : Params) : Prop := ∀ n, p.addrw = some n → 12 ≤ n

/-- R5, R26: "the machine's fixed load address", the image address of the first word. -/
def loadAddr : Nat := 0x200

/-- R5: the address increment per word. -/
def stride : Nat := 2

end Sys2Proof
end

