-- ==== Sys2Proof/Syntax.lean ====
section
/-! DEFINITION. The syntax of the codec: fields, slots, table rows, operand tokens, lines, errors, and the instructions. -/

namespace Sys2Proof

/-- R42(d): the seven pseudo-register tokens. They are spellings only, with no state behind them (R11). -/
inductive Pseudo
  | I | DT | ST | F | B | K | ind
deriving DecidableEq, Repr

/-- R31: the five named fields of a word. -/
inductive Field
  | x | y | n | kk | nnn
deriving DecidableEq, Repr

/-- R44: the slot types, one per operand position of a row. -/
inductive Slot
  | X | Y | V0 | KK | N | NNN
  | P (p : Pseudo)
deriving DecidableEq, Repr

/-- R32: the six layouts. -/
inductive Layout
  | none | X | XY | XKK | XYN | NNN
deriving DecidableEq, Repr

/-- The row names of R36 (column `id`), and names for the rows another TABLE may have (R5: TABLE is a parameter; log 16). -/
inductive RowId
  | cls | ret | sysNnn | jpNnn | callNnn
  | seXkk | sneXkk | seXy | ldXkk | addXkk
  | ldXy | orXy | andXy | xorXy | addXy | subXy | shrXy | subnXy | shlXy | sneXy
  | ldINnn | jpV0Nnn | rndXkk | drwXyn | skpX | sknpX
  | ldXDt | ldXK | ldDtX | ldStX | addIX | ldFX | ldBX | ldIndX | ldXInd
  | other (k : Nat)
deriving DecidableEq, Repr

/-- R33: an Instruction Format, one row of TABLE. -/
structure Format where
  id : RowId
  mnemonic : Text
  slots : List Slot
  pattern : Word
  mask : Word
  layout : Layout
deriving DecidableEq, Repr

/-- R33: TABLE, "a finite ordered list of Instruction Formats". -/
abbrev Table := List Format

/-- R8, R67: bound field values, in slot order; a field the row does not use does not appear. -/
abbrev Vals := List (Field × Nat)

/-- R8, R42: one operand token. The magnitude of a hash or label value is unbounded and its digit count is not kept (D6). -/
inductive Tok
  | reg (i : Nibble)
  | hash (v : Nat)
  | label (v : Nat)
  | pseudo (p : Pseudo)
  | bad
deriving DecidableEq, Repr

/-- R8: a tokenised line. -/
structure Line where
  mn : Text
  ops : List Tok
deriving DecidableEq, Repr

/-- R140: the three encoder errors, codes 1 to 3. -/
inductive EncErr
  /-- R141. -/
  | unknownInstruction
  /-- R142. -/
  | operandArityMismatch
  /-- R143. -/
  | fieldOverflow
deriving DecidableEq, Repr

/-- What can be wrong with a byte sequence given to the DEC side. -/
inductive DecodeError
  /-- No byte is left where a word is asked for. -/
  | noWord
  /-- R22, R144: the sequence has odd length, which is carried. -/
  | trailingOddByte (len : Nat)
deriving DecidableEq, Repr

/-- The instructions: the 35 rows of R36 in table order, then `db` (R135). Register operands are 4-bit indices (R11); a byte,
nibble-count or address operand is the natural number its token spells (D6), which may exceed its field (`Instr.WellFormed`). -/
inductive Instr
  /-- R100: `CLS`. -/
  | cls
  /-- R101: `RET`. -/
  | ret
  /-- R102: `SYS #nnn`. -/
  | sysNnn (nnn : Nat)
  /-- R103: `JP Lnnn`. -/
  | jpNnn (nnn : Nat)
  /-- R104: `CALL #nnn`. -/
  | callNnn (nnn : Nat)
  /-- R107: `SE vx, #kk`. -/
  | seXkk (x : Nibble) (kk : Nat)
  /-- R108: `SNE vx, #kk`. -/
  | sneXkk (x : Nibble) (kk : Nat)
  /-- R112: `SE vx, vy`. -/
  | seXy (x y : Nibble)
  /-- R109: `LD vx, #kk`. -/
  | ldXkk (x : Nibble) (kk : Nat)
  /-- R110: `ADD vx, #kk`. -/
  | addXkk (x : Nibble) (kk : Nat)
  /-- R113: `LD vx, vy`. -/
  | ldXy (x y : Nibble)
  /-- R114: `OR vx, vy`. -/
  | orXy (x y : Nibble)
  /-- R115: `AND vx, vy`. -/
  | andXy (x y : Nibble)
  /-- R116: `XOR vx, vy`. -/
  | xorXy (x y : Nibble)
  /-- R117: `ADD vx, vy`. -/
  | addXy (x y : Nibble)
  /-- R118: `SUB vx, vy`. -/
  | subXy (x y : Nibble)
  /-- R119: `SHR vx, vy`. -/
  | shrXy (x y : Nibble)
  /-- R120: `SUBN vx, vy`. -/
  | subnXy (x y : Nibble)
  /-- R121: `SHL vx, vy`. -/
  | shlXy (x y : Nibble)
  /-- R122: `SNE vx, vy`. -/
  | sneXy (x y : Nibble)
  /-- R105: `LD I, #nnn`. -/
  | ldINnn (nnn : Nat)
  /-- R106: `JP v0, #nnn`. -/
  | jpV0Nnn (nnn : Nat)
  /-- R111: `RND vx, #kk`. -/
  | rndXkk (x : Nibble) (kk : Nat)
  /-- R123: `DRW vx, vy, #n`. -/
  | drwXyn (x y : Nibble) (n : Nat)
  /-- R124: `SKP vx`. -/
  | skpX (x : Nibble)
  /-- R125: `SKNP vx`. -/
  | sknpX (x : Nibble)
  /-- R126: `LD vx, DT`. -/
  | ldXDt (x : Nibble)
  /-- R127: `LD vx, K`. -/
  | ldXK (x : Nibble)
  /-- R128: `LD DT, vx`. -/
  | ldDtX (x : Nibble)
  /-- R129: `LD ST, vx`. -/
  | ldStX (x : Nibble)
  /-- R130: `ADD I, vx`. -/
  | addIX (x : Nibble)
  /-- R131: `LD F, vx`. -/
  | ldFX (x : Nibble)
  /-- R132: `LD B, vx`. -/
  | ldBX (x : Nibble)
  /-- R133: `LD [I], vx`. -/
  | ldIndX (x : Nibble)
  /-- R134: `LD vx, [I]`. -/
  | ldXInd (x : Nibble)
  /-- R135: `db #hh, #ll`, also what the decoder reads from a word no row matches (R136; log 11). -/
  | db (hh ll : Nat)
deriving DecidableEq, Repr

end Sys2Proof
end

