-- ==== Sys2Proof/Machine/State.lean ====
section
/-! DEFINITION. The state of the codec (10_state.md), the driver's side beside it, and the outcomes a step can have. -/

namespace Sys2Proof.Machine

/-- R13: the tracker's rendering mode, one bit (0 = `Decoding`, 1 = `DataMode`). -/
inductive Mode
  | decoding
  | dataMode
deriving DecidableEq, Repr

/-- R8: what a decode produces. A Code Entry carries the address, the row and the bound field values; a Data Entry the address
and the raw word. -/
inductive Entry
  | code (addr : Nat) (fmt : Format) (vals : Vals)
  | data (addr : Nat) (word : Word)
deriving DecidableEq, Repr

/-- R160: `Reset` and its two halves. -/
inductive ResetKind
  | both
  | decOnly
  | encOnly
deriving DecidableEq, Repr

/-- D1: what the driver can ask of the block, each one step. -/
inductive Request
  /-- R64 `EncStep(line)`. -/
  | enc (line : Line)
  /-- R69 `DecStep(word)`. -/
  | dec (w : Word)
  /-- R160 `Reset`, `ResetDec`, `ResetEnc`. -/
  | reset (k : ResetKind)
deriving DecidableEq, Repr

/-- R154: why the block does not perform a request. -/
inductive Reason
  /-- R154(a): `EncStep` while ECAUSE is set. -/
  | runAborted
  /-- R154(b): a realisation's address counter has no next value. -/
  | addressRange
deriving DecidableEq, Repr

/-- What the block answers to one request. -/
inductive Result
  /-- R64: the two bytes of the emitted word, the high one first (R23). -/
  | emitted (hi lo : Byte)
  /-- R64, R147: the encoder error with the offending line. -/
  | error (e : EncErr) (line : Line)
  /-- R154: the request is not performed; every reason that applies is told (log 6). -/
  | refused (reasons : List Reason)
  /-- R69: the entry and its text. -/
  | decoded (entry : Entry) (text : Text)
  /-- R160: the reset is done (log 10). -/
  | resetDone (k : ResetKind)
deriving DecidableEq, Repr

/-- The machine. The first four fields are the architectural state, "exactly four fields" (R10); the last three are the model's
own: the parameters it is built with (log 5) and the host driver's requests and collected results (log 2). -/
structure State where
  /-- MODE, R13. -/
  mode : Mode
  /-- ADDR, R12: the address of the word the DEC side decodes next. -/
  addr : Nat
  /-- ECAUSE, R14: 0 none, 1 to 3 the code of the error that aborted the run. -/
  ecause : BitVec 2
  /-- EADDR, R15: the image address of the next word the ENC side emits. -/
  eaddr : Nat
  /-- ADDRW and HEXCASE of R5; no step writes them. -/
  params : Params
  /-- The driver's pending requests, oldest first. -/
  requests : List Request
  /-- The results the driver has collected, newest first. -/
  results : List Result
deriving DecidableEq, Repr

/-- Why a step stops with a fault. The block's own errors are no faults here: they are next states (log 4). -/
inductive Fault
  /-- `exec` is asked to decode an instruction that is no word (an operand too wide for its field). Raised by the shared
  operation `perform`; no step raises it, since the decoder only reads operands that fit (log 9). Safe. -/
  | noSuchWord
deriving DecidableEq, Repr

/-- Why a step is refused. The block's own refusals (R154) are no refusals here: they are next states (log 4). -/
inductive Refusal
  /-- An instruction with no meaning yet; raised by `exec`'s refused arms. Safe. -/
  | notModelled (mnemonic : String)
  /-- The driver has presented nothing to do: raised by `step` with an empty queue, and by `exec` when neither a word nor a line
  stands first (log 3, log 8). Safe. -/
  | noRequest
deriving DecidableEq, Repr

/-- R18: MODE = Decoding, ADDR = 0x200, ECAUSE = 0, EADDR = 0x200; the unbounded model, upper-case digits, nothing asked and
nothing answered yet. -/
def State.reset : State :=
  { mode := .decoding, addr := loadAddr, ecause := 0#2, eaddr := loadAddr
    params := Params.default, requests := [], results := [] }

end Sys2Proof.Machine
end

