-- ==== Sys2Proof/Machine/Table.lean ====
section
/-! DEFINITION. The Instruction Table (30_encoding.md): fields, layouts, the 35 rows of R36, what makes a TABLE well formed
(R34), the lookup by word (R37) and field extraction (R67). -/

namespace Sys2Proof

/-- R31: the bit offset of a field. -/
def Field.offset : Field → Nat
  | .x => 8
  | .y => 4
  | .n => 0
  | .kk => 0
  | .nnn => 0

/-- R31: the width of a field in bits. -/
def Field.width : Field → Nat
  | .x => 4
  | .y => 4
  | .n => 4
  | .kk => 8
  | .nnn => 12

/-- The bits of the word a field occupies. -/
def Field.mask (f : Field) : Word := BitVec.ofNat 16 (2 ^ f.width - 1) <<< f.offset

/-- R44: the field a slot binds; `V0` and `P(p)` bind none. -/
def Slot.field : Slot → Option Field
  | .X => some .x
  | .Y => some .y
  | .KK => some .kk
  | .N => some .n
  | .NNN => some .nnn
  | .V0 => none
  | .P _ => none

/-- The fields the slots of a row bind, in slot order. -/
def boundFields (slots : List Slot) : List Field := slots.filterMap Slot.field

/-- All bits the slots of a row bind. -/
def fieldBits (slots : List Slot) : Word := (boundFields slots).foldr (fun f m => f.mask ||| m) 0#16

/-- R32: the fields of a layout. -/
def Layout.fields : Layout → List Field
  | .none => []
  | .X => [.x]
  | .XY => [.x, .y]
  | .XKK => [.x, .kk]
  | .XYN => [.x, .y, .n]
  | .NNN => [.nnn]

/-- R32: the mask of a layout, the fixed bits of its rows. -/
def Layout.mask : Layout → Word
  | .none => 0xFFFF#16
  | .X => 0xF0FF#16
  | .XY => 0xF00F#16
  | .XKK => 0xF000#16
  | .XYN => 0xF000#16
  | .NNN => 0xF000#16

/-- R6: the number of 1 bits of a word. -/
def popcount (w : Word) : Nat := ((List.range 16).filter fun i => w.getLsbD i).length

/-- R37: a row matches a word when the word's fixed bits are the row's pattern. -/
def Format.hits (f : Format) (w : Word) : Bool := w &&& f.mask == f.pattern

/-! ## The 35 rows of R36 -/

/-- R100. -/
def rowCls : Format := ⟨.cls, ['C', 'L', 'S'], [], 0x00E0#16, 0xFFFF#16, .none⟩
/-- R101. -/
def rowRet : Format := ⟨.ret, ['R', 'E', 'T'], [], 0x00EE#16, 0xFFFF#16, .none⟩
/-- R102. -/
def rowSysNnn : Format := ⟨.sysNnn, ['S', 'Y', 'S'], [.NNN], 0x0000#16, 0xF000#16, .NNN⟩
/-- R103. -/
def rowJpNnn : Format := ⟨.jpNnn, ['J', 'P'], [.NNN], 0x1000#16, 0xF000#16, .NNN⟩
/-- R104. -/
def rowCallNnn : Format := ⟨.callNnn, ['C', 'A', 'L', 'L'], [.NNN], 0x2000#16, 0xF000#16, .NNN⟩
/-- R107. -/
def rowSeXkk : Format := ⟨.seXkk, ['S', 'E'], [.X, .KK], 0x3000#16, 0xF000#16, .XKK⟩
/-- R108. -/
def rowSneXkk : Format := ⟨.sneXkk, ['S', 'N', 'E'], [.X, .KK], 0x4000#16, 0xF000#16, .XKK⟩
/-- R112. -/
def rowSeXy : Format := ⟨.seXy, ['S', 'E'], [.X, .Y], 0x5000#16, 0xF00F#16, .XY⟩
/-- R109. -/
def rowLdXkk : Format := ⟨.ldXkk, ['L', 'D'], [.X, .KK], 0x6000#16, 0xF000#16, .XKK⟩
/-- R110. -/
def rowAddXkk : Format := ⟨.addXkk, ['A', 'D', 'D'], [.X, .KK], 0x7000#16, 0xF000#16, .XKK⟩
/-- R113. -/
def rowLdXy : Format := ⟨.ldXy, ['L', 'D'], [.X, .Y], 0x8000#16, 0xF00F#16, .XY⟩
/-- R114. -/
def rowOrXy : Format := ⟨.orXy, ['O', 'R'], [.X, .Y], 0x8001#16, 0xF00F#16, .XY⟩
/-- R115. -/
def rowAndXy : Format := ⟨.andXy, ['A', 'N', 'D'], [.X, .Y], 0x8002#16, 0xF00F#16, .XY⟩
/-- R116. -/
def rowXorXy : Format := ⟨.xorXy, ['X', 'O', 'R'], [.X, .Y], 0x8003#16, 0xF00F#16, .XY⟩
/-- R117. -/
def rowAddXy : Format := ⟨.addXy, ['A', 'D', 'D'], [.X, .Y], 0x8004#16, 0xF00F#16, .XY⟩
/-- R118. -/
def rowSubXy : Format := ⟨.subXy, ['S', 'U', 'B'], [.X, .Y], 0x8005#16, 0xF00F#16, .XY⟩
/-- R119. -/
def rowShrXy : Format := ⟨.shrXy, ['S', 'H', 'R'], [.X, .Y], 0x8006#16, 0xF00F#16, .XY⟩
/-- R120. -/
def rowSubnXy : Format := ⟨.subnXy, ['S', 'U', 'B', 'N'], [.X, .Y], 0x8007#16, 0xF00F#16, .XY⟩
/-- R121. -/
def rowShlXy : Format := ⟨.shlXy, ['S', 'H', 'L'], [.X, .Y], 0x800E#16, 0xF00F#16, .XY⟩
/-- R122. -/
def rowSneXy : Format := ⟨.sneXy, ['S', 'N', 'E'], [.X, .Y], 0x9000#16, 0xF00F#16, .XY⟩
/-- R105. -/
def rowLdINnn : Format := ⟨.ldINnn, ['L', 'D'], [.P .I, .NNN], 0xA000#16, 0xF000#16, .NNN⟩
/-- R106. -/
def rowJpV0Nnn : Format := ⟨.jpV0Nnn, ['J', 'P'], [.V0, .NNN], 0xB000#16, 0xF000#16, .NNN⟩
/-- R111. -/
def rowRndXkk : Format := ⟨.rndXkk, ['R', 'N', 'D'], [.X, .KK], 0xC000#16, 0xF000#16, .XKK⟩
/-- R123. -/
def rowDrwXyn : Format := ⟨.drwXyn, ['D', 'R', 'W'], [.X, .Y, .N], 0xD000#16, 0xF000#16, .XYN⟩
/-- R124. -/
def rowSkpX : Format := ⟨.skpX, ['S', 'K', 'P'], [.X], 0xE09E#16, 0xF0FF#16, .X⟩
/-- R125. -/
def rowSknpX : Format := ⟨.sknpX, ['S', 'K', 'N', 'P'], [.X], 0xE0A1#16, 0xF0FF#16, .X⟩
/-- R126. -/
def rowLdXDt : Format := ⟨.ldXDt, ['L', 'D'], [.X, .P .DT], 0xF007#16, 0xF0FF#16, .X⟩
/-- R127. -/
def rowLdXK : Format := ⟨.ldXK, ['L', 'D'], [.X, .P .K], 0xF00A#16, 0xF0FF#16, .X⟩
/-- R128. -/
def rowLdDtX : Format := ⟨.ldDtX, ['L', 'D'], [.P .DT, .X], 0xF015#16, 0xF0FF#16, .X⟩
/-- R129. -/
def rowLdStX : Format := ⟨.ldStX, ['L', 'D'], [.P .ST, .X], 0xF018#16, 0xF0FF#16, .X⟩
/-- R130. -/
def rowAddIX : Format := ⟨.addIX, ['A', 'D', 'D'], [.P .I, .X], 0xF01E#16, 0xF0FF#16, .X⟩
/-- R131. -/
def rowLdFX : Format := ⟨.ldFX, ['L', 'D'], [.P .F, .X], 0xF029#16, 0xF0FF#16, .X⟩
/-- R132. -/
def rowLdBX : Format := ⟨.ldBX, ['L', 'D'], [.P .B, .X], 0xF033#16, 0xF0FF#16, .X⟩
/-- R133. -/
def rowLdIndX : Format := ⟨.ldIndX, ['L', 'D'], [.P .ind, .X], 0xF055#16, 0xF0FF#16, .X⟩
/-- R134. -/
def rowLdXInd : Format := ⟨.ldXInd, ['L', 'D'], [.X, .P .ind], 0xF065#16, 0xF0FF#16, .X⟩

/-- R36: the default TABLE, in its order. -/
def defaultTable : Table :=
  [rowCls, rowRet, rowSysNnn, rowJpNnn, rowCallNnn, rowSeXkk, rowSneXkk, rowSeXy, rowLdXkk, rowAddXkk] ++
  [rowLdXy, rowOrXy, rowAndXy, rowXorXy, rowAddXy, rowSubXy, rowShrXy, rowSubnXy, rowShlXy, rowSneXy] ++
  [rowLdINnn, rowJpV0Nnn, rowRndXkk, rowDrwXyn, rowSkpX, rowSknpX] ++
  [rowLdXDt, rowLdXK, rowLdDtX, rowLdStX, rowAddIX, rowLdFX, rowLdBX, rowLdIndX, rowLdXInd]

/-- R5 `MAXOPS`: the greatest operand count of any row. -/
def maxOps (t : Table) : Nat := t.foldr (fun f m => max f.slots.length m) 0

/-- R46: the source's operand-shape names. -/
inductive Shape
  | none | register | registerImmediate8 | registerRegister | registerAddress12 | address12 | address12Call
  | implicitI | implicitDtStFBK | twoRegisterNibble4
deriving DecidableEq, Repr

/-- R46: the slot lists of a shape name. -/
def Shape.slotLists : Shape → List (List Slot)
  | .none => [[]]
  | .register => [[.X]]
  | .registerImmediate8 => [[.X, .KK]]
  | .registerRegister => [[.X, .Y]]
  | .registerAddress12 => [[.V0, .NNN]]
  | .address12 => [[.NNN]]
  | .address12Call => [[.NNN]]
  | .implicitI => [[.P .I, .NNN], [.P .I, .X], [.P .ind, .X], [.X, .P .ind]]
  | .implicitDtStFBK => [[.X, .P .DT], [.X, .P .K], [.P .DT, .X], [.P .ST, .X], [.P .F, .X], [.P .B, .X]]
  | .twoRegisterNibble4 => [[.X, .Y, .N]]

/-- R46: the rows of a shape name. -/
def Shape.rows : Shape → List Format
  | .none => [rowCls, rowRet]
  | .register => [rowSkpX, rowSknpX]
  | .registerImmediate8 => [rowSeXkk, rowSneXkk, rowLdXkk, rowAddXkk, rowRndXkk]
  | .registerRegister =>
    [rowSeXy, rowLdXy, rowOrXy, rowAndXy, rowXorXy, rowAddXy, rowSubXy, rowShrXy, rowSubnXy, rowShlXy, rowSneXy]
  | .registerAddress12 => [rowJpV0Nnn]
  | .address12 => [rowJpNnn, rowSysNnn]
  | .address12Call => [rowCallNnn]
  | .implicitI => [rowLdINnn, rowAddIX, rowLdIndX, rowLdXInd]
  | .implicitDtStFBK => [rowLdXDt, rowLdXK, rowLdDtX, rowLdStX, rowLdFX, rowLdBX]
  | .twoRegisterNibble4 => [rowDrwXyn]

/-! ## Well-formed tables (R34) -/

/-- R48: the mnemonic of the raw-data line, "the two lower-case letters `db`, exactly". -/
def dbMnemonic : Text := ['d', 'b']

/-- R34 WF1. -/
abbrev Format.wf1 (f : Format) : Prop := f.pattern &&& ~~~f.mask = 0#16

/-- R34 WF2: the bound fields are disjoint from one another and from the mask. -/
abbrev Format.wf2 (f : Format) : Prop :=
  (boundFields f.slots).Pairwise (fun a b => a.mask &&& b.mask = 0#16) ∧ fieldBits f.slots &&& f.mask = 0#16

/-- R34 WF3: no bit is unowned. -/
abbrev Format.wf3 (f : Format) : Prop := f.mask ||| fieldBits f.slots = 0xFFFF#16

/-- R34 WF4: a binding slot occurs at most once, and the layout has exactly the fields the slots bind. -/
abbrev Format.wf4 (f : Format) : Prop :=
  (boundFields f.slots).Nodup ∧ (∀ a ∈ f.layout.fields, a ∈ boundFields f.slots) ∧
    (∀ a ∈ boundFields f.slots, a ∈ f.layout.fields)

/-- Whether some token is accepted by both slots (R44). -/
def Slot.overlaps : Slot → Slot → Bool
  | .X, .X | .X, .Y | .X, .V0 | .Y, .X | .Y, .Y | .Y, .V0 | .V0, .X | .V0, .Y | .V0, .V0 => true
  | .KK, .KK | .KK, .N | .KK, .NNN | .N, .KK | .N, .N | .N, .NNN | .NNN, .KK | .NNN, .N | .NNN, .NNN => true
  | .P p, .P q => p == q
  | _, _ => false

/-- Whether some token list is accepted by both slot lists. -/
def slotsOverlap : List Slot → List Slot → Bool
  | [], [] => true
  | a :: as, b :: bs => a.overlaps b && slotsOverlap as bs
  | [], _ :: _ => false
  | _ :: _, [] => false

/-- R34 WF5, as a test on two rows: same mnemonic, and some token list both accept. -/
def textOverlap (f g : Format) : Bool := f.mnemonic == g.mnemonic && slotsOverlap f.slots g.slots

/-- R34 WF6, as a test on two rows: some word matches both (their patterns agree where both are fixed). -/
def wordOverlap (f g : Format) : Bool := (f.pattern ^^^ g.pattern) &&& f.mask &&& g.mask == 0#16

/-- R34: a well-formed TABLE, WF1 to WF7. -/
abbrev Table.WellFormed (t : Table) : Prop :=
  (∀ f ∈ t, f.wf1 ∧ f.wf2 ∧ f.wf3 ∧ f.wf4 ∧ f.mnemonic ≠ dbMnemonic) ∧
    t.Pairwise (fun f g => textOverlap f g = false) ∧
    t.Pairwise (fun f g => wordOverlap f g = true → popcount f.mask ≠ popcount g.mask)

/-- R42: white space is a space or a tab. -/
def isWs (c : Char) : Bool := c == ' ' || c == '\t'

/-- The mnemonics can stand in a line: not empty and without white space (R41). R34 does not say so (log 17). -/
abbrev Table.Spellable (t : Table) : Prop := ∀ f ∈ t, f.mnemonic ≠ [] ∧ f.mnemonic.any isWs = false

/-! ## Lookup by word and field extraction -/

/-- R37: the rows in order of decreasing mask specificity, table order within one popcount (D24). -/
def specificityOrder (t : Table) : Table :=
  (List.range 17).reverse.flatMap fun k => t.filter fun f => popcount f.mask == k

/-- R37 `lookup_by_word`: of the rows that match, the first with the most fixed bits; none if no row matches (R39).
It walks the table once; that it is the first match of `specificityOrder` is a statement of the row. -/
def lookupByWord : Table → Word → Option Format
  | [], _ => none
  | f :: t, w =>
    match lookupByWord t w with
    | none => if f.hits w then some f else none
    | some g => if f.hits w && decide (popcount g.mask ≤ popcount f.mask) then some f else some g

/-- R67: the value of a field of a word. -/
def Field.extract (f : Field) (w : Word) : Nat := (w >>> f.offset &&& BitVec.ofNat 16 (2 ^ f.width - 1)).toNat

/-- R67: the values of the fields a row's slots bind, in slot order. -/
def extractVals (slots : List Slot) (w : Word) : Vals := (boundFields slots).map fun f => (f, f.extract w)

/-- The value bound to a field; 0 for a field the row does not bind, which no rule reads. -/
def valueOf (vals : Vals) (f : Field) : Nat := (vals.lookup f).getD 0

/-- R35, P60 lines 9 to 14: OR the values into the pattern, each into its field; a value too wide for its field is rejected,
never truncated (C1). -/
def packVals : Word → Vals → Except EncErr Word
  | w, [] => .ok w
  | w, (f, v) :: rest =>
    if 2 ^ f.width ≤ v then .error .fieldOverflow else packVals (w ||| BitVec.ofNat 16 v <<< f.offset) rest

end Sys2Proof
end

