-- ==== Sys2Proof/Machine/Flags.lean ====
section
/-! DEFINITION. The two flags of the block: MODE and the self-jump that sets it (R13, R69), ECAUSE and its codes (R14, R140). -/

namespace Sys2Proof.Machine

/-- R13: MODE as a bit, 0 = Decoding, 1 = DataMode. -/
def Mode.bit : Mode → BitVec 1
  | .decoding => 0#1
  | .dataMode => 1#1

/-- R140: the code ECAUSE records (D19). -/
def errCode : EncErr → BitVec 2
  | .unknownInstruction => 1#2
  | .operandArityMismatch => 2#2
  | .fieldOverflow => 3#2

/-- R140: all numeric codes; `TrailingOddByte` is 4 and is recorded in no field (R144). -/
def trailingOddByteCode : Nat := 4

/-- R69: the entry is a Code Entry of row `JP_NNN` whose target, zero-extended, is the whole of `addr` (D17). -/
def isSelfJump (addr : Nat) : Entry → Bool
  | .code _ f vals => f.id == .jpNnn && valueOf vals .nnn == addr
  | .data _ _ => false

/-- P69 lines 3 and 4: MODE after a decode. Nothing leads back from `DataMode` (R13). -/
def nextMode (mode : Mode) (addr : Nat) (e : Entry) : Mode :=
  match mode with
  | .dataMode => .dataMode
  | .decoding => if isSelfJump addr e then .dataMode else .decoding

end Sys2Proof.Machine
end

