-- ==== Sys2Proof/WellFormed.lean ====
section
/-! DEFINITION. Which instructions some word encodes: every operand fits its field (R35, R143). -/

namespace Sys2Proof

/-- R102 to R106: an address operand is 0x000 to 0xFFF. -/
def addressFits (nnn : Nat) : Bool := decide (nnn < 0x1000)

/-- R107 to R111, R135: a byte operand is 0x00 to 0xFF. -/
def byteFits (kk : Nat) : Bool := decide (kk < 0x100)

/-- R123: a nibble count is 0x0 to 0xF. -/
def countFits (n : Nat) : Bool := decide (n < 0x10)

/-- Every operand fits its field. A line whose row is chosen but whose operand does not fit is `FieldOverflow` (R143). -/
def Instr.fits : Instr → Bool
  | .sysNnn nnn | .jpNnn nnn | .callNnn nnn | .ldINnn nnn | .jpV0Nnn nnn => addressFits nnn
  | .seXkk _ kk | .sneXkk _ kk | .ldXkk _ kk | .addXkk _ kk | .rndXkk _ kk => byteFits kk
  | .drwXyn _ _ n => countFits n
  | .db hh ll => byteFits hh && byteFits ll
  | .cls | .ret => true
  | .seXy _ _ | .ldXy _ _ | .orXy _ _ | .andXy _ _ | .xorXy _ _ | .addXy _ _ | .subXy _ _ | .shrXy _ _ => true
  | .subnXy _ _ | .shlXy _ _ | .sneXy _ _ => true
  | .skpX _ | .sknpX _ | .ldXDt _ | .ldXK _ | .ldDtX _ | .ldStX _ | .addIX _ | .ldFX _ | .ldBX _ => true
  | .ldIndX _ | .ldXInd _ => true

/-- The well-formed instructions: those that `encode` gives a word of. -/
abbrev Instr.WellFormed (i : Instr) : Prop := i.fits = true

end Sys2Proof
end

