-- ==== Sys2Proof/Decode.lean ====
section
/-! DEFINITION. Bytes to words and words to instructions (20_memory.md, 40_operations.md R66, R67), and the encoder. -/

namespace Sys2Proof

/-! ## Byte order and the byte adapters -/

/-- R21: the byte at the lower image address, `w[15:8]`. -/
def highByte (w : Word) : Byte := w.extractLsb' 8 8

/-- R21: the byte at the higher image address, `w[7:0]`. -/
def lowByte (w : Word) : Byte := w.extractLsb' 0 8

/-- R21, R22: the word of two bytes, the first one high. -/
def wordOfBytes (hi lo : Byte) : Word := hi.setWidth 16 <<< 8 ||| lo.setWidth 16

/-- R22 without its length check: pair the bytes from offset 0; the sequence's whole length is carried for the error. -/
def pairBytes (len : Nat) : List Byte → Except DecodeError (List Word)
  | [] => .ok []
  | [_] => .error (.trailingOddByte len)
  | hi :: lo :: rest =>
    match pairBytes len rest with
    | .ok ws => .ok (wordOfBytes hi lo :: ws)
    | .error e => .error e

/-- R22 `WordsOfBytes`: the words of an even byte sequence; of an odd one the error and no word at all (D20). -/
def wordsOfBytes (bs : List Byte) : Except DecodeError (List Word) := pairBytes bs.length bs

/-- R23 `BytesOfWords`: `w[15:8]` then `w[7:0]` of each word in order. -/
def bytesOfWords (ws : List Word) : List Byte := ws.flatMap fun w => [highByte w, lowByte w]

/-- R20: the image address of word `k`. -/
def imageAddr (k : Nat) : Nat := loadAddr + stride * k

/-! ## Words to instructions -/

/-- The instruction of a row of R36 with its bound values; none for a row of another TABLE (log 1). -/
def instrOf (id : RowId) (vals : Vals) : Option Instr :=
  let x : Nibble := BitVec.ofNat 4 (valueOf vals .x)
  let y : Nibble := BitVec.ofNat 4 (valueOf vals .y)
  let n := valueOf vals .n
  let kk := valueOf vals .kk
  let nnn := valueOf vals .nnn
  match id with
  | .cls => some .cls
  | .ret => some .ret
  | .sysNnn => some (.sysNnn nnn)
  | .jpNnn => some (.jpNnn nnn)
  | .callNnn => some (.callNnn nnn)
  | .seXkk => some (.seXkk x kk)
  | .sneXkk => some (.sneXkk x kk)
  | .seXy => some (.seXy x y)
  | .ldXkk => some (.ldXkk x kk)
  | .addXkk => some (.addXkk x kk)
  | .ldXy => some (.ldXy x y)
  | .orXy => some (.orXy x y)
  | .andXy => some (.andXy x y)
  | .xorXy => some (.xorXy x y)
  | .addXy => some (.addXy x y)
  | .subXy => some (.subXy x y)
  | .shrXy => some (.shrXy x y)
  | .subnXy => some (.subnXy x y)
  | .shlXy => some (.shlXy x y)
  | .sneXy => some (.sneXy x y)
  | .ldINnn => some (.ldINnn nnn)
  | .jpV0Nnn => some (.jpV0Nnn nnn)
  | .rndXkk => some (.rndXkk x kk)
  | .drwXyn => some (.drwXyn x y n)
  | .skpX => some (.skpX x)
  | .sknpX => some (.sknpX x)
  | .ldXDt => some (.ldXDt x)
  | .ldXK => some (.ldXK x)
  | .ldDtX => some (.ldDtX x)
  | .ldStX => some (.ldStX x)
  | .addIX => some (.addIX x)
  | .ldFX => some (.ldFX x)
  | .ldBX => some (.ldBX x)
  | .ldIndX => some (.ldIndX x)
  | .ldXInd => some (.ldXInd x)
  | .other _ => none

/-- R66 in `Decoding`: the matching row with its fields, or the raw data of a word no row matches (R39, R136). Total. -/
def decodeWord (w : Word) : Instr :=
  match lookupByWord defaultTable w with
  | some f => (instrOf f.id (extractVals f.slots w)).getD (.db (highByte w).toNat (lowByte w).toNat)
  | none => .db (highByte w).toNat (lowByte w).toNat

/-- One instruction from the front of a byte sequence, with the bytes after it; refuses by name where no whole word is left
(R22, R30). -/
def decode : List Byte → Except DecodeError (Instr × List Byte)
  | [] => .error .noWord
  | [_] => .error (.trailingOddByte 1)
  | hi :: lo :: rest => .ok (decodeWord (wordOfBytes hi lo), rest)

/-- The instruction the decoder reads from the bits `w` of a table row of `nbits` bits: the word's bytes, high first (R21), given
to `decode`. -/
def decodeTableWord (nbits w : Nat) : Option Instr :=
  if nbits ≤ 16 then
    let word : Word := BitVec.ofNat 16 (w % 2 ^ nbits)
    match decode [highByte word, lowByte word] with
    | .ok (i, _) => some i
    | .error _ => none
  else none

/-! ## The encoder, from the "Encode" clauses of R100 to R135 -/

/-- R31, R35: a register index in field `x`, `x << 8`. -/
def placeX (x : Nibble) : Word := x.setWidth 16 <<< 8

/-- R31, R35: a register index in field `y`, `y << 4`. -/
def placeY (y : Nibble) : Word := y.setWidth 16 <<< 4

/-- R31, R35: a value in the field at offset 0 (`n`, `kk` or `nnn`), which it fits. -/
def placeLow (v : Nat) : Word := BitVec.ofNat 16 v

/-- The word of a well-formed instruction. -/
def encode : Instr → Word
  | .cls => 0x00E0#16
  | .ret => 0x00EE#16
  | .sysNnn nnn => 0x0000#16 ||| placeLow nnn
  | .jpNnn nnn => 0x1000#16 ||| placeLow nnn
  | .callNnn nnn => 0x2000#16 ||| placeLow nnn
  | .seXkk x kk => 0x3000#16 ||| placeX x ||| placeLow kk
  | .sneXkk x kk => 0x4000#16 ||| placeX x ||| placeLow kk
  | .seXy x y => 0x5000#16 ||| placeX x ||| placeY y
  | .ldXkk x kk => 0x6000#16 ||| placeX x ||| placeLow kk
  | .addXkk x kk => 0x7000#16 ||| placeX x ||| placeLow kk
  | .ldXy x y => 0x8000#16 ||| placeX x ||| placeY y
  | .orXy x y => 0x8001#16 ||| placeX x ||| placeY y
  | .andXy x y => 0x8002#16 ||| placeX x ||| placeY y
  | .xorXy x y => 0x8003#16 ||| placeX x ||| placeY y
  | .addXy x y => 0x8004#16 ||| placeX x ||| placeY y
  | .subXy x y => 0x8005#16 ||| placeX x ||| placeY y
  | .shrXy x y => 0x8006#16 ||| placeX x ||| placeY y
  | .subnXy x y => 0x8007#16 ||| placeX x ||| placeY y
  | .shlXy x y => 0x800E#16 ||| placeX x ||| placeY y
  | .sneXy x y => 0x9000#16 ||| placeX x ||| placeY y
  | .ldINnn nnn => 0xA000#16 ||| placeLow nnn
  | .jpV0Nnn nnn => 0xB000#16 ||| placeLow nnn
  | .rndXkk x kk => 0xC000#16 ||| placeX x ||| placeLow kk
  | .drwXyn x y n => 0xD000#16 ||| placeX x ||| placeY y ||| placeLow n
  | .skpX x => 0xE09E#16 ||| placeX x
  | .sknpX x => 0xE0A1#16 ||| placeX x
  | .ldXDt x => 0xF007#16 ||| placeX x
  | .ldXK x => 0xF00A#16 ||| placeX x
  | .ldDtX x => 0xF015#16 ||| placeX x
  | .ldStX x => 0xF018#16 ||| placeX x
  | .addIX x => 0xF01E#16 ||| placeX x
  | .ldFX x => 0xF029#16 ||| placeX x
  | .ldBX x => 0xF033#16 ||| placeX x
  | .ldIndX x => 0xF055#16 ||| placeX x
  | .ldXInd x => 0xF065#16 ||| placeX x
  | .db hh ll => placeLow hh <<< 8 ||| placeLow ll

/-- The bytes of a well-formed instruction, high byte first (R21). -/
def encodeBytes (i : Instr) : List Byte := bytesOfWords [encode i]

end Sys2Proof
end

