-- ==== Sys2Proof/Machine/Operands.lean ====
section
/-! DEFINITION. The text side: tokens and `Tokenize` (R42, R43), slots (R44), the choice of a row by text (R45, R60), encoding of
a line (P60, P63), and canonical rendering (R47). -/

namespace Sys2Proof.Machine

/-! ## Tokens -/

/-- R42 `hex`: the value of a hex digit, in either case (D8). -/
def hexValue (c : Char) : Option Nat :=
  let k := c.toNat
  if 0x30 ≤ k ∧ k ≤ 0x39 then some (k - 0x30)
  else if 0x41 ≤ k ∧ k ≤ 0x46 then some (k - 0x41 + 10)
  else if 0x61 ≤ k ∧ k ≤ 0x66 then some (k - 0x61 + 10)
  else none

/-- The number a string of hex digits spells after the digits already read; none if some character is no hex digit. -/
def hexNumberFrom : Nat → Text → Option Nat
  | acc, [] => some acc
  | acc, c :: cs =>
    match hexValue c with
    | some d => hexNumberFrom (16 * acc + d) cs
    | none => none

/-- R42(b): the number that one or more hex digits spell, of any size (D6). -/
def hexNumber : Text → Option Nat
  | [] => none
  | c :: cs => hexNumberFrom 0 (c :: cs)

/-- R42(d): the spelling of a pseudo-register token. -/
def spelling : Pseudo → Text
  | .I => ['I']
  | .DT => ['D', 'T']
  | .ST => ['S', 'T']
  | .F => ['F']
  | .B => ['B']
  | .K => ['K']
  | .ind => ['[', 'I', ']']

/-- R42(d): the seven pseudo-register tokens. -/
def allPseudos : List Pseudo := [.I, .DT, .ST, .F, .B, .K, .ind]

/-- R42: one operand piece to its token; anything not of the forms (a) to (d) is `BAD`. -/
def token (piece : Text) : Tok :=
  match allPseudos.find? fun p => spelling p == piece with
  | some p => .pseudo p
  | none =>
    match piece with
    | ['v', d] =>
      match hexValue d with
      | some i => .reg (BitVec.ofNat 4 i)
      | none => .bad
    | '#' :: ds =>
      match hexNumber ds with
      | some v => .hash v
      | none => .bad
    | 'L' :: ds =>
      match hexNumber ds with
      | some v => .label v
      | none => .bad
    | _ => .bad

/-- R43: remove leading and trailing white space. -/
def trimWs (t : Text) : Text := ((t.dropWhile isWs).reverse.dropWhile isWs).reverse

/-- R43 step 3: split at every comma; k commas give k + 1 pieces. -/
def splitCommas : Text → List Text
  | [] => [[]]
  | c :: cs =>
    if c == ',' then [] :: splitCommas cs
    else
      match splitCommas cs with
      | [] => [[c]]
      | p :: ps => (c :: p) :: ps

/-- R43 `Tokenize`: total; malformed text gives a `BAD` token or an unknown mnemonic. -/
def tokenize (text : Text) : Line :=
  let t := trimWs text
  let rest := (t.dropWhile fun c => !isWs c).dropWhile isWs
  { mn := t.takeWhile fun c => !isWs c
    ops := if rest = [] then [] else (splitCommas rest).map fun p => token (trimWs p) }

/-! ## Slots -/

/-- R44: whether a slot accepts a token; it looks at the kind, and for `V0` and `P` at the index or name, never at a magnitude. -/
def accepts : Slot → Tok → Bool
  | .X, .reg _ => true
  | .Y, .reg _ => true
  | .V0, .reg i => i == 0#4
  | .KK, .hash _ => true
  | .N, .hash _ => true
  | .NNN, .hash _ => true
  | .NNN, .label _ => true
  | .P p, .pseudo q => p == q
  | _, _ => false

/-- R45: every slot accepts the token at its position, and there are as many tokens as slots. -/
def acceptsAll : List Slot → List Tok → Bool
  | [], [] => true
  | s :: ss, t :: ts => accepts s t && acceptsAll ss ts
  | [], _ :: _ => false
  | _ :: _, [] => false

/-- The number a token carries; R44 binds it to the slot's field. -/
def tokenValue : Tok → Nat
  | .reg i => i.toNat
  | .hash v => v
  | .label v => v
  | .pseudo _ => 0
  | .bad => 0

/-- R44: the values a row's slots bind from a line's tokens, in order. -/
def bindVals (slots : List Slot) (ops : List Tok) : Vals :=
  (slots.zip ops).filterMap fun st => st.1.field.map fun f => (f, tokenValue st.2)

/-! ## From a line to a row, and to a word -/

/-- R45 `lookup_by_text`: the row of that mnemonic whose slots accept the tokens (the first one, log 12). -/
def lookupByText (t : Table) (mn : Text) (ops : List Tok) : Option Format :=
  t.find? fun f => f.mnemonic == mn && acceptsAll f.slots ops

/-- P60 lines 2 to 8: the row a line selects, or the error of R146 steps 1 to 3. -/
def selectRow (t : Table) (line : Line) : Except EncErr Format :=
  let c1 := t.filter fun f => f.mnemonic == line.mn
  let c2 := c1.filter fun f => f.slots.length == line.ops.length
  match c1 with
  | [] => .error .unknownInstruction
  | _ :: _ =>
    match c2 with
    | [] => .error .operandArityMismatch
    | _ :: _ =>
      match c2.filter fun f => acceptsAll f.slots line.ops with
      | [] => .error .unknownInstruction
      | f :: _ => .ok f

/-- P63 lines 1 to 3: the two literals of a `db` line. -/
def selectDb : List Tok → Except EncErr (Nat × Nat)
  | [.hash hi, .hash lo] => .ok (hi, lo)
  | [_, _] => .error .unknownInstruction
  | [] => .error .operandArityMismatch
  | [_] => .error .operandArityMismatch
  | _ :: _ :: _ :: _ => .error .operandArityMismatch

/-- P63 lines 4 and 5: the first byte is the high one; a value of 0x100 or more is rejected. -/
def packDb (hi lo : Nat) : Except EncErr Word :=
  if 0x100 ≤ hi ∨ 0x100 ≤ lo then .error .fieldOverflow
  else .ok (BitVec.ofNat 16 hi <<< 8 ||| BitVec.ofNat 16 lo)

/-- R63 `EncodeDb`: the raw-data line, which the table has no part in. -/
def encodeDb (ops : List Tok) : Except EncErr Word :=
  match selectDb ops with
  | .ok (hi, lo) => packDb hi lo
  | .error e => .error e

/-- R60 `Encode`, pseudocode P60, over a TABLE. -/
def encodeLine (t : Table) (line : Line) : Except EncErr Word :=
  if line.mn = dbMnemonic then encodeDb line.ops
  else
    match selectRow t line with
    | .ok f => packVals f.pattern (bindVals f.slots line.ops)
    | .error e => .error e

/-- The instruction a line names, its operands not yet measured against their fields: P60 up to line 8, P63 up to line 3. -/
def selectInstr (line : Line) : Except EncErr Instr :=
  if line.mn = dbMnemonic then
    match selectDb line.ops with
    | .ok (hi, lo) => .ok (.db hi lo)
    | .error e => .error e
  else
    match selectRow defaultTable line with
    | .ok f =>
      match instrOf f.id (bindVals f.slots line.ops) with
      | some i => .ok i
      | none => .error .unknownInstruction
    | .error e => .error e

/-! ## Rendering -/

/-- The sixteen hex digits in the case of HEXCASE (R5, R47). -/
def hexDigits : HexCase → List Char
  | .upper => ['0', '1', '2', '3', '4', '5', '6', '7', '8', '9', 'A', 'B', 'C', 'D', 'E', 'F']
  | .lower => ['0', '1', '2', '3', '4', '5', '6', '7', '8', '9', 'a', 'b', 'c', 'd', 'e', 'f']

/-- The digit of a value below 16. -/
def hexDigit (hc : HexCase) (v : Nat) : Char := (hexDigits hc).getD v '0'

/-- R47: a value in a fixed number of hex digits, zero-padded. -/
def hexText (hc : HexCase) : Nat → Nat → Text
  | 0, _ => []
  | k + 1, v => hexText hc k (v / 16) ++ [hexDigit hc (v % 16)]

/-- R47: one slot of a row; only row `JP_NNN` prints its address with `L` (D15). -/
def renderSlot (hc : HexCase) (id : RowId) (vals : Vals) : Slot → Text
  | .X => 'v' :: hexText hc 1 (valueOf vals .x)
  | .Y => 'v' :: hexText hc 1 (valueOf vals .y)
  | .V0 => ['v', '0']
  | .KK => '#' :: hexText hc 2 (valueOf vals .kk)
  | .N => '#' :: hexText hc 1 (valueOf vals .n)
  | .NNN => (if id = .jpNnn then 'L' else '#') :: hexText hc 3 (valueOf vals .nnn)
  | .P p => spelling p

/-- R41, R47: operands joined by comma and one space. -/
def joinOperands : List Text → Text
  | [] => []
  | [p] => p
  | p :: q :: rest => p ++ ',' :: ' ' :: joinOperands (q :: rest)

/-- R41, R47: the canonical line of a mnemonic and its operands. -/
def joinLine (mn : Text) (operands : List Text) : Text :=
  match operands with
  | [] => mn
  | p :: ps => mn ++ ' ' :: joinOperands (p :: ps)

/-- R68 `Render`: the text of an entry; the address is never printed. -/
def render (hc : HexCase) : Entry → Text
  | .code _ f vals => joinLine f.mnemonic (f.slots.map (renderSlot hc f.id vals))
  | .data _ w =>
    joinLine dbMnemonic ['#' :: hexText hc 2 (highByte w).toNat, '#' :: hexText hc 2 (lowByte w).toNat]

/-- R66 `Decode(w, mode, addr)` over a TABLE: never fails (R145). -/
def decodeEntry (t : Table) (mode : Mode) (addr : Nat) (w : Word) : Entry :=
  match mode with
  | .dataMode => .data addr w
  | .decoding =>
    match lookupByWord t w with
    | some f => .code addr f (extractVals f.slots w)
    | none => .data addr w

end Sys2Proof.Machine
end

