-- ==== Sys2Proof/Machine/Ops.lean ====
section
/-! DEFINITION. The shared operations every instruction and request is made of: answering the driver, refusing (R154), decoding
one entry (R69), emitting a word (R64), taking an encoder error (R147) and leaving it (R149, R160). -/

namespace Sys2Proof.Machine

/-- The result of one step. -/
abbrev StepOutcome := Host.Outcome State Fault Refusal

/-- The request at the head is answered: it leaves the queue and its result joins the driver's (log 2). -/
def answer (r : Result) (s : State) : State := { s with requests := s.requests.tail, results := r :: s.results }

/-! ## Refusals (R154) -/

/-- R154(b): there is a next address. In the unbounded model always; with `n`-bit counters while the address is not above
`2^n - 4`. -/
def hasRoom (p : Params) (a : Nat) : Bool :=
  match p.addrw with
  | none => true
  | some n => decide (a + 4 ≤ 2 ^ n)

/-- R154(b): why a `DecStep` is refused; `[]` when it is performed. -/
def decRefusals (s : State) : List Reason := if hasRoom s.params s.addr then [] else [.addressRange]

/-- R154(a) and (b): why an `EncStep` is refused; `[]` when it is performed. -/
def encRefusals (s : State) : List Reason :=
  (if s.ecause = 0#2 then [] else [.runAborted]) ++ (if hasRoom s.params s.eaddr then [] else [.addressRange])

/-- R154: "no state changes, nothing is emitted, and the driver is told so". -/
def refuseRequest (reasons : List Reason) (s : State) : State := answer (.refused reasons) s

/-! ## The DEC side -/

/-- P69 lines 3 to 6 for an entry of the word at ADDR: MODE by the self-jump rule, ADDR plus 2, the entry and its text returned. -/
def deliverEntry (e : Entry) (s : State) : State :=
  { answer (.decoded e (render s.params.hexcase e)) s with
    mode := nextMode s.mode s.addr e, addr := s.addr + stride }

/-- R69 with the refusal of R154(b). -/
def decCommit (e : Entry) (s : State) : State :=
  match decRefusals s with
  | [] => deliverEntry e s
  | r :: rs => refuseRequest (r :: rs) s

/-! ## The ENC side -/

/-- R64 on `Ok(w)`: the word is emitted, high byte first, and EADDR advances. -/
def emitWord (w : Word) (s : State) : State :=
  { answer (.emitted (highByte w) (lowByte w)) s with eaddr := s.eaddr + stride }

/-- TAKING AN EXCEPTION, R147: nothing is emitted, EADDR stays, ECAUSE records the code, the line is handed back. There is no
saved register, no vector and no mode change: control returns to the driver. -/
def takeError (e : EncErr) (line : Line) (s : State) : State :=
  { answer (.error e line) s with ecause := errCode e }

/-- R64 for a line whose encoding is `r`, with the refusals of R154. -/
def encCommit (line : Line) (r : Except EncErr Word) (s : State) : State :=
  match encRefusals s with
  | [] =>
    match r with
    | .ok w => emitWord w s
    | .error e => takeError e line s
  | a :: as => refuseRequest (a :: as) s

/-! ## Reset, the only way out of an error (R149) and of DataMode (R13) -/

/-- R160 `ResetDec`: MODE and ADDR. -/
def resetDec (s : State) : State := { s with mode := .decoding, addr := loadAddr }

/-- R160 `ResetEnc`: ECAUSE and EADDR. -/
def resetEnc (s : State) : State := { s with ecause := 0#2, eaddr := loadAddr }

/-- R160: a reset step; never refused. -/
def doReset (k : ResetKind) (s : State) : State :=
  match k with
  | .both => answer (.resetDone .both) (resetEnc (resetDec s))
  | .decOnly => answer (.resetDone .decOnly) (resetDec s)
  | .encOnly => answer (.resetDone .encOnly) (resetEnc s)

/-! ## What a table row and a `db` line do -/

/-- What every table row does, by the side that is asked (log 8). DEC side: in `Decoding` its Code Entry, in `DataMode` the Data
Entry of its word (R66, R136; log 11). ENC side: its word, or `FieldOverflow` when an operand does not fit (R60, R143). -/
def perform (f : Format) (vals : Vals) (s : State) : StepOutcome :=
  match s.requests with
  | .dec _ :: _ =>
    match packVals f.pattern vals with
    | .ok w =>
      match s.mode with
      | .decoding => .next (decCommit (.code s.addr f vals) s)
      | .dataMode => .next (decCommit (.data s.addr w) s)
    | .error _ => .fault .noSuchWord
  | .enc line :: _ => .next (encCommit line (packVals f.pattern vals) s)
  | .reset _ :: _ => .refused .noRequest
  | [] => .refused .noRequest

/-- What raw data does (R135, R136): DEC side, the Data Entry of its word in either mode; ENC side, its word or `FieldOverflow`. -/
def performData (hh ll : Nat) (s : State) : StepOutcome :=
  match s.requests with
  | .dec _ :: _ =>
    match packDb hh ll with
    | .ok w => .next (decCommit (.data s.addr w) s)
    | .error _ => .fault .noSuchWord
  | .enc line :: _ => .next (encCommit line (packDb hh ll) s)
  | .reset _ :: _ => .refused .noRequest
  | [] => .refused .noRequest

/-! ## Fetching the next request -/

/-- What the request at the head of the queue asks for. -/
inductive Fetched
  | instr (i : Instr)
  | lineError (e : EncErr) (line : Line)
  | reset (k : ResetKind)
  | nothing
deriving DecidableEq, Repr

/-- The head request: a word through the decoder, a line through the choice of its instruction (R60), a reset. -/
def fetch (s : State) : Fetched :=
  match s.requests with
  | [] => .nothing
  | .dec w :: _ => .instr (decodeWord w)
  | .enc line :: _ =>
    match selectInstr line with
    | .ok i => .instr i
    | .error e => .lineError e line
  | .reset k :: _ => .reset k

/-- A line that names no instruction: the error of R146 steps 1 to 3, unless the step is refused (R154). -/
def rejectLine (e : EncErr) (line : Line) (s : State) : StepOutcome := .next (encCommit line (.error e) s)

/-- R160: a reset step. -/
def performReset (k : ResetKind) (s : State) : StepOutcome := .next (doReset k s)

end Sys2Proof.Machine
end

