-- ==== Sys2Proof/Machine/Data.lean ====
section
/-! DEFINITION. The meaning of raw data (45_data.md). -/

namespace Sys2Proof.Machine

/-- R135, R136: `db #hh, #ll`. -/
def execDb (hh ll : Nat) (s : State) : StepOutcome := performData hh ll s

end Sys2Proof.Machine
end

