-- ==== Sys2Proof/Machine/DrawKeyTimer.lean ====
section
/-! DEFINITION. The meanings of the three-operand row and the rows with a fixed low byte (44_draw_key_timer.md).
Each is the shared operation over its row: encode, decode, or the error or refusal the rule gives. -/

namespace Sys2Proof.Machine

/-- R123: `DRW vx, vy, #n`. -/
def execDrwXyn (x : Nibble) (y : Nibble) (n : Nat) (s : State) : StepOutcome := perform rowDrwXyn [(.x, x.toNat), (.y, y.toNat), (.n, n)] s

/-- R124: `SKP vx`. -/
def execSkpX (x : Nibble) (s : State) : StepOutcome := perform rowSkpX [(.x, x.toNat)] s

/-- R125: `SKNP vx`. -/
def execSknpX (x : Nibble) (s : State) : StepOutcome := perform rowSknpX [(.x, x.toNat)] s

/-- R126: `LD vx, DT`. -/
def execLdXDt (x : Nibble) (s : State) : StepOutcome := perform rowLdXDt [(.x, x.toNat)] s

/-- R127: `LD vx, K`. -/
def execLdXK (x : Nibble) (s : State) : StepOutcome := perform rowLdXK [(.x, x.toNat)] s

/-- R128: `LD DT, vx`. -/
def execLdDtX (x : Nibble) (s : State) : StepOutcome := perform rowLdDtX [(.x, x.toNat)] s

/-- R129: `LD ST, vx`. -/
def execLdStX (x : Nibble) (s : State) : StepOutcome := perform rowLdStX [(.x, x.toNat)] s

/-- R130: `ADD I, vx`. -/
def execAddIX (x : Nibble) (s : State) : StepOutcome := perform rowAddIX [(.x, x.toNat)] s

/-- R131: `LD F, vx`. -/
def execLdFX (x : Nibble) (s : State) : StepOutcome := perform rowLdFX [(.x, x.toNat)] s

/-- R132: `LD B, vx`. -/
def execLdBX (x : Nibble) (s : State) : StepOutcome := perform rowLdBX [(.x, x.toNat)] s

/-- R133: `LD [I], vx`. -/
def execLdIndX (x : Nibble) (s : State) : StepOutcome := perform rowLdIndX [(.x, x.toNat)] s

/-- R134: `LD vx, [I]`. -/
def execLdXInd (x : Nibble) (s : State) : StepOutcome := perform rowLdXInd [(.x, x.toNat)] s

end Sys2Proof.Machine
end

