-- ==== Sys2Proof/Machine/NoneAddress.lean ====
section
/-! DEFINITION. The meanings of CLS, RET and the rows whose only field is a 12-bit address (41_none_and_address.md).
Each is the shared operation over its row: encode, decode, or the error or refusal the rule gives. -/

namespace Sys2Proof.Machine

/-- R100: `CLS`. -/
def execCls (s : State) : StepOutcome := perform rowCls [] s

/-- R101: `RET`. -/
def execRet (s : State) : StepOutcome := perform rowRet [] s

/-- R102: `SYS #nnn`. -/
def execSysNnn (nnn : Nat) (s : State) : StepOutcome := perform rowSysNnn [(.nnn, nnn)] s

/-- R103: `JP Lnnn`, the only row the tracker watches (R69). -/
def execJpNnn (nnn : Nat) (s : State) : StepOutcome := perform rowJpNnn [(.nnn, nnn)] s

/-- R104: `CALL #nnn`. -/
def execCallNnn (nnn : Nat) (s : State) : StepOutcome := perform rowCallNnn [(.nnn, nnn)] s

/-- R105: `LD I, #nnn`. -/
def execLdINnn (nnn : Nat) (s : State) : StepOutcome := perform rowLdINnn [(.nnn, nnn)] s

/-- R106: `JP v0, #nnn`; the register is not encoded, and the tracker does not watch it. -/
def execJpV0Nnn (nnn : Nat) (s : State) : StepOutcome := perform rowJpV0Nnn [(.nnn, nnn)] s

end Sys2Proof.Machine
end

