-- ==== Sys2Proof/Machine/RegImm.lean ====
section
/-! DEFINITION. The meanings of the rows with a register and an 8-bit immediate (42_reg_imm.md).
Each is the shared operation over its row: encode, decode, or the error or refusal the rule gives. -/

namespace Sys2Proof.Machine

/-- R107: `SE vx, #kk`. -/
def execSeXkk (x : Nibble) (kk : Nat) (s : State) : StepOutcome := perform rowSeXkk [(.x, x.toNat), (.kk, kk)] s

/-- R108: `SNE vx, #kk`. -/
def execSneXkk (x : Nibble) (kk : Nat) (s : State) : StepOutcome := perform rowSneXkk [(.x, x.toNat), (.kk, kk)] s

/-- R109: `LD vx, #kk`. -/
def execLdXkk (x : Nibble) (kk : Nat) (s : State) : StepOutcome := perform rowLdXkk [(.x, x.toNat), (.kk, kk)] s

/-- R110: `ADD vx, #kk`. -/
def execAddXkk (x : Nibble) (kk : Nat) (s : State) : StepOutcome := perform rowAddXkk [(.x, x.toNat), (.kk, kk)] s

/-- R111: `RND vx, #kk`. -/
def execRndXkk (x : Nibble) (kk : Nat) (s : State) : StepOutcome := perform rowRndXkk [(.x, x.toNat), (.kk, kk)] s

end Sys2Proof.Machine
end

