-- ==== Sys2Proof/Machine/RegReg.lean ====
section
/-! DEFINITION. The meanings of the rows with two registers (43_reg_reg.md).
Each is the shared operation over its row: encode, decode, or the error or refusal the rule gives. -/

namespace Sys2Proof.Machine

/-- R112: `SE vx, vy`. -/
def execSeXy (x : Nibble) (y : Nibble) (s : State) : StepOutcome := perform rowSeXy [(.x, x.toNat), (.y, y.toNat)] s

/-- R113: `LD vx, vy`. -/
def execLdXy (x : Nibble) (y : Nibble) (s : State) : StepOutcome := perform rowLdXy [(.x, x.toNat), (.y, y.toNat)] s

/-- R114: `OR vx, vy`. -/
def execOrXy (x : Nibble) (y : Nibble) (s : State) : StepOutcome := perform rowOrXy [(.x, x.toNat), (.y, y.toNat)] s

/-- R115: `AND vx, vy`. -/
def execAndXy (x : Nibble) (y : Nibble) (s : State) : StepOutcome := perform rowAndXy [(.x, x.toNat), (.y, y.toNat)] s

/-- R116: `XOR vx, vy`. -/
def execXorXy (x : Nibble) (y : Nibble) (s : State) : StepOutcome := perform rowXorXy [(.x, x.toNat), (.y, y.toNat)] s

/-- R117: `ADD vx, vy`. -/
def execAddXy (x : Nibble) (y : Nibble) (s : State) : StepOutcome := perform rowAddXy [(.x, x.toNat), (.y, y.toNat)] s

/-- R118: `SUB vx, vy`. -/
def execSubXy (x : Nibble) (y : Nibble) (s : State) : StepOutcome := perform rowSubXy [(.x, x.toNat), (.y, y.toNat)] s

/-- R119: `SHR vx, vy`. -/
def execShrXy (x : Nibble) (y : Nibble) (s : State) : StepOutcome := perform rowShrXy [(.x, x.toNat), (.y, y.toNat)] s

/-- R120: `SUBN vx, vy`. -/
def execSubnXy (x : Nibble) (y : Nibble) (s : State) : StepOutcome := perform rowSubnXy [(.x, x.toNat), (.y, y.toNat)] s

/-- R121: `SHL vx, vy`. -/
def execShlXy (x : Nibble) (y : Nibble) (s : State) : StepOutcome := perform rowShlXy [(.x, x.toNat), (.y, y.toNat)] s

/-- R122: `SNE vx, vy`. -/
def execSneXy (x : Nibble) (y : Nibble) (s : State) : StepOutcome := perform rowSneXy [(.x, x.toNat), (.y, y.toNat)] s

end Sys2Proof.Machine
end

