-- ==== Sys2Proof/Machine/Dispatch.lean ====
section
/-! DEFINITION. exec: one arm per instruction, each one call of its meaning. -/

namespace Sys2Proof.Machine

def exec (i : Instr) (s : State) : Host.Outcome State Fault Refusal :=
  match i with
  | .cls => Sys2Proof.Machine.execCls s
  | .ret => Sys2Proof.Machine.execRet s
  | .sysNnn nnn => Sys2Proof.Machine.execSysNnn nnn s
  | .jpNnn nnn => Sys2Proof.Machine.execJpNnn nnn s
  | .callNnn nnn => Sys2Proof.Machine.execCallNnn nnn s
  | .seXkk x kk => Sys2Proof.Machine.execSeXkk x kk s
  | .sneXkk x kk => Sys2Proof.Machine.execSneXkk x kk s
  | .seXy x y => Sys2Proof.Machine.execSeXy x y s
  | .ldXkk x kk => Sys2Proof.Machine.execLdXkk x kk s
  | .addXkk x kk => Sys2Proof.Machine.execAddXkk x kk s
  | .ldXy x y => Sys2Proof.Machine.execLdXy x y s
  | .orXy x y => Sys2Proof.Machine.execOrXy x y s
  | .andXy x y => Sys2Proof.Machine.execAndXy x y s
  | .xorXy x y => Sys2Proof.Machine.execXorXy x y s
  | .addXy x y => Sys2Proof.Machine.execAddXy x y s
  | .subXy x y => Sys2Proof.Machine.execSubXy x y s
  | .shrXy x y => Sys2Proof.Machine.execShrXy x y s
  | .subnXy x y => Sys2Proof.Machine.execSubnXy x y s
  | .shlXy x y => Sys2Proof.Machine.execShlXy x y s
  | .sneXy x y => Sys2Proof.Machine.execSneXy x y s
  | .ldINnn nnn => Sys2Proof.Machine.execLdINnn nnn s
  | .jpV0Nnn nnn => Sys2Proof.Machine.execJpV0Nnn nnn s
  | .rndXkk x kk => Sys2Proof.Machine.execRndXkk x kk s
  | .drwXyn x y n => Sys2Proof.Machine.execDrwXyn x y n s
  | .skpX x => Sys2Proof.Machine.execSkpX x s
  | .sknpX x => Sys2Proof.Machine.execSknpX x s
  | .ldXDt x => Sys2Proof.Machine.execLdXDt x s
  | .ldXK x => Sys2Proof.Machine.execLdXK x s
  | .ldDtX x => Sys2Proof.Machine.execLdDtX x s
  | .ldStX x => Sys2Proof.Machine.execLdStX x s
  | .addIX x => Sys2Proof.Machine.execAddIX x s
  | .ldFX x => Sys2Proof.Machine.execLdFX x s
  | .ldBX x => Sys2Proof.Machine.execLdBX x s
  | .ldIndX x => Sys2Proof.Machine.execLdIndX x s
  | .ldXInd x => Sys2Proof.Machine.execLdXInd x s
  | .db hh ll => Sys2Proof.Machine.execDb hh ll s

end Sys2Proof.Machine
end

