-- ==== Sys2Proof/Machine/Step.lean ====
section
/-! DEFINITION. One step: the request at the head of the driver's queue (R9). -/

namespace Sys2Proof.Machine

/-- R9: a step of the ENC side, of the DEC side, or a reset; with nothing presented there is nothing to step (log 3). -/
def step (s : State) : Host.Outcome State Fault Refusal :=
  match fetch s with
  | .instr i => exec i s
  | .lineError e line => rejectLine e line s
  | .reset k => performReset k s
  | .nothing => .refused .noRequest

/-- The driver presents the word of `nbits` bits `w` as its next request (log 7). -/
def State.withFetchWord (s : State) (nbits w : Nat) : State :=
  { s with requests := .dec (BitVec.ofNat 16 (w % 2 ^ nbits)) :: s.requests }

end Sys2Proof.Machine
end

