-- ==== Sys2Proof/Machine/Run.lean ====
section
/-! DEFINITION. The block's own steps over any TABLE (R64, R69) and whole runs (R65, R70). The machine of Step.lean runs the default
TABLE instruction by instruction; that its step is the step defined here at that TABLE is a statement of the row. -/

namespace Sys2Proof.Machine

/-- P69 `DecStep(w)` over a TABLE, with the refusal of R154(b). -/
def decStep (t : Table) (w : Word) (s : State) : State := decCommit (decodeEntry t s.mode s.addr w) s

/-- R64 `EncStep(line)` over a TABLE, with the refusals of R154. -/
def encStep (t : Table) (line : Line) (s : State) : State := encCommit line (encodeLine t line) s

/-- R161: the state a run begins in, for a machine built with `p`. -/
def startState (p : Params) : State := { State.reset with params := p }

/-- How an assembly ends early: R65's error with its line index and line, or, in a realisation, the refusal of line `index`
(log 18). -/
inductive RunError
  | fault (e : EncErr) (index : Nat) (line : Line)
  | refused (reasons : List Reason) (index : Nat) (line : Line)
deriving DecidableEq, Repr

/-- The bytes of a successful tail with two more in front; an error carries no bytes at all (R65). -/
def prependBytes (hi lo : Byte) : Except RunError (List Byte) → Except RunError (List Byte)
  | .ok bs => .ok (hi :: lo :: bs)
  | .error e => .error e

/-- R65: the lines from index `i` on, one `EncStep` each, up to the first fault or refusal. -/
def assembleFrom (t : Table) : Nat → List Line → State → Except RunError (List Byte) × State
  | _, [], s => (.ok [], s)
  | i, line :: lines, s =>
    let s' := encStep t line s
    match s'.results with
    | .emitted hi lo :: _ =>
      let tail := assembleFrom t (i + 1) lines s'
      (prependBytes hi lo tail.1, tail.2)
    | .error e l :: _ => (.error (.fault e i l), s')
    | .refused rs :: _ => (.error (.refused rs i line), s')
    | .decoded _ _ :: _ => (.ok [], s')
    | .resetDone _ :: _ => (.ok [], s')
    | [] => (.ok [], s')

/-- R65 `AssembleRun(lines)`, with the state it ends in (R169). -/
def assembleRun (t : Table) (p : Params) (lines : List Line) : Except RunError (List Byte) × State :=
  assembleFrom t 0 lines (startState p)

/-- R70: one `DecStep` for each word; a realisation whose counter has no next address stops there (log 18). -/
def disassembleFrom (t : Table) : List Word → State → List (Entry × Text) × State
  | [], s => ([], s)
  | w :: ws, s =>
    let s' := decStep t w s
    match s'.results with
    | .decoded e text :: _ =>
      let tail := disassembleFrom t ws s'
      ((e, text) :: tail.1, tail.2)
    | .emitted _ _ :: _ => ([], s')
    | .error _ _ :: _ => ([], s')
    | .refused _ :: _ => ([], s')
    | .resetDone _ :: _ => ([], s')
    | [] => ([], s')

/-- R70 `DisassembleRun(ws)`, with the state it ends in (R169). -/
def disassembleRun (t : Table) (p : Params) (ws : List Word) : List (Entry × Text) × State :=
  disassembleFrom t ws (startState p)

/-- R70 `DisassembleBytes(bs)`: an odd length is the error, no `DecStep` is performed and the state is as after the reset (R144). -/
def disassembleBytes (t : Table) (p : Params) (bs : List Byte) : Except DecodeError (List (Entry × Text)) × State :=
  match wordsOfBytes bs with
  | .ok ws => (.ok (disassembleRun t p ws).1, (disassembleRun t p ws).2)
  | .error e => (.error e, startState p)

end Sys2Proof.Machine
end

