-- ==== Sys2Proof/Safety.lean ====
section
/-! DEFINITION. The terms the statements are made in: when a side has room, what a state's history says (R19), the invariants, and
what it is to differ in one side only (R10, R168). -/

namespace Sys2Proof.Machine

/-- A `DecStep` would be performed, not refused (R154(b)). -/
abbrev State.DecReady (s : State) : Prop := hasRoom s.params s.addr = true

/-- An `EncStep` would be performed, not refused (R154). -/
abbrev State.EncReady (s : State) : Prop := s.ecause = 0#2 ∧ hasRoom s.params s.eaddr = true

/-- The driver presents the word `w` next. -/
abbrev State.Presents (s : State) (r : Request) : Prop := s.requests.head? = some r

/-- The state after a `DecStep` that delivers an entry with its text (R69), written out. -/
def State.afterDec (s : State) (mode : Mode) (e : Entry) (text : Text) : State :=
  { s with mode := mode, addr := s.addr + 2, requests := s.requests.tail, results := .decoded e text :: s.results }

/-- The state after an `EncStep` that emits a word (R64), written out. -/
def State.afterEnc (s : State) (hi lo : Byte) : State :=
  { s with eaddr := s.eaddr + 2, requests := s.requests.tail, results := .emitted hi lo :: s.results }

/-- The state after an `EncStep` that raises an error (R147), written out. -/
def State.afterError (s : State) (code : BitVec 2) (e : EncErr) (line : Line) : State :=
  { s with ecause := code, requests := s.requests.tail, results := .error e line :: s.results }

/-- The state after a refused request (R154), written out. -/
def State.afterRefusal (s : State) (reasons : List Reason) : State :=
  { s with requests := s.requests.tail, results := .refused reasons :: s.results }

/-! ## The invariants -/

/-- R12, R15, R24: an address counter is even and at or above the load address, and with `n`-bit counters (n at least 12) it is
one the counter can hold with the byte after it. -/
abbrev addressLegal (p : Params) (a : Nat) : Prop :=
  a % 2 = 0 ∧ 0x200 ≤ a ∧ ∀ n, p.addrw = some n → a + 2 ≤ 2 ^ n

/-- The address counters of both sides are legal, and a realisation has at least 12 address bits (R5). -/
abbrev State.AddressesLegal (s : State) : Prop :=
  s.params.wf ∧ addressLegal s.params s.addr ∧ addressLegal s.params s.eaddr

/-- The entries the DEC side has produced since its last reset, newest first. -/
def decodedSince : List Result → List Entry
  | [] => []
  | .decoded e _ :: rs => e :: decodedSince rs
  | .resetDone .both :: _ => []
  | .resetDone .decOnly :: _ => []
  | .resetDone .encOnly :: rs => decodedSince rs
  | .emitted _ _ :: rs => decodedSince rs
  | .error _ _ :: rs => decodedSince rs
  | .refused _ :: rs => decodedSince rs

/-- How many words the ENC side has emitted since its last reset. -/
def emittedSince : List Result → Nat
  | [] => 0
  | .emitted _ _ :: rs => emittedSince rs + 1
  | .resetDone .both :: _ => 0
  | .resetDone .encOnly :: _ => 0
  | .resetDone .decOnly :: rs => emittedSince rs
  | .decoded _ _ :: rs => emittedSince rs
  | .error _ _ :: rs => emittedSince rs
  | .refused _ :: rs => emittedSince rs

/-- The encoder errors since the ENC side's last reset, newest first. -/
def errorsSince : List Result → List EncErr
  | [] => []
  | .error e _ :: rs => e :: errorsSince rs
  | .resetDone .both :: _ => []
  | .resetDone .encOnly :: _ => []
  | .resetDone .decOnly :: rs => errorsSince rs
  | .decoded _ _ :: rs => errorsSince rs
  | .emitted _ _ :: rs => errorsSince rs
  | .refused _ :: rs => errorsSince rs

/-- The address an entry carries. -/
def entryAddr : Entry → Nat
  | .code a _ _ => a
  | .data a _ => a

/-- R19: entries newest first carry the addresses of their places, the newest that of the last word. -/
def addressesInOrder : List Entry → Bool
  | [] => true
  | e :: es => entryAddr e == loadAddr + stride * es.length && addressesInOrder es

/-- R19, DEC side: ADDR counts the words since the reset, each entry carries its word's address, and MODE is `DataMode` exactly when
one of them was a self-jump. -/
abbrev State.DecHistory (s : State) : Prop :=
  s.addr = loadAddr + stride * (decodedSince s.results).length ∧
  addressesInOrder (decodedSince s.results) = true ∧
  (s.mode = .dataMode ↔ ∃ e ∈ decodedSince s.results, isSelfJump (entryAddr e) e = true)

/-- R19, R149, ENC side: EADDR counts the words emitted since the reset, and ECAUSE holds the code of the one error since then, if
there was one. -/
abbrev State.EncHistory (s : State) : Prop :=
  s.eaddr = loadAddr + stride * emittedSince s.results ∧
  ((s.ecause = 0#2 ∧ errorsSince s.results = []) ∨ ∃ e, errorsSince s.results = [e] ∧ s.ecause = errCode e)

/-! ## The two sides -/

/-- The two states agree but for the ENC side's fields. -/
abbrev sameButEnc (s t : State) : Prop :=
  s.mode = t.mode ∧ s.addr = t.addr ∧ s.params = t.params ∧ s.requests = t.requests ∧ s.results = t.results

/-- The two states agree but for the DEC side's fields. -/
abbrev sameButDec (s t : State) : Prop :=
  s.ecause = t.ecause ∧ s.eaddr = t.eaddr ∧ s.params = t.params ∧ s.requests = t.requests ∧ s.results = t.results

/-! ## What a row or a line is said to do -/

/-- In `Decoding`, the instruction is delivered as the Code Entry of the row with the values, printed as `text`, MODE kept
(the Decode and State clauses of R100 to R134). -/
def decodesAs (i : Instr) (f : Format) (vals : Vals) (text : HexCase → Text) : Prop :=
  ∀ (s : State) (w : Word), s.Presents (.dec w) → s.DecReady → s.mode = .decoding →
    exec i s = .next (s.afterDec .decoding (.code s.addr f vals) (text s.params.hexcase))

/-- The line encodes to the word when its value fits, and is `FieldOverflow` when it does not (the Encode and Errors clauses of
R102 to R134; never truncated, C1). -/
def encodesIf (fits : Bool) (mn : String) (ops : List Tok) (w : Word) : Prop :=
  encodeLine defaultTable ⟨mn.toList, ops⟩ = if fits then .ok w else .error .fieldOverflow

/-- R142: the operand counts of each mnemonic of the default table, and of `db`. -/
def operandCounts : List (Text × List Nat) :=
  [("CLS".toList, [0]), ("RET".toList, [0]), ("SYS".toList, [1]), ("JP".toList, [1, 2]), ("CALL".toList, [1])] ++
  [("SE".toList, [2]), ("SNE".toList, [2]), ("LD".toList, [2]), ("ADD".toList, [2]), ("OR".toList, [2])] ++
  [("AND".toList, [2]), ("XOR".toList, [2]), ("SUB".toList, [2]), ("SHR".toList, [2]), ("SUBN".toList, [2])] ++
  [("SHL".toList, [2]), ("RND".toList, [2]), ("DRW".toList, [3]), ("SKP".toList, [1]), ("SKNP".toList, [1])] ++
  [("db".toList, [2])]

/-- R39: the words no row of the default table matches, by family. -/
def unmatched (w : Word) : Bool :=
  let top := w.extractLsb' 12 4
  let low := w.extractLsb' 0 4
  let kk := w.extractLsb' 0 8
  (top == 0x5#4 && low != 0#4) ||
  (top == 0x8#4 && [0x8#4, 0x9#4, 0xA#4, 0xB#4, 0xC#4, 0xD#4, 0xF#4].contains low) ||
  (top == 0x9#4 && low != 0#4) ||
  (top == 0xE#4 && !([0x9E#8, 0xA1#8].contains kk)) ||
  (top == 0xF#4 &&
    !([0x07#8, 0x0A#8, 0x15#8, 0x18#8, 0x1E#8, 0x29#8, 0x33#8, 0x55#8, 0x65#8].contains kk))

/-- R41: an operand of the grammar: not empty, no comma, no white space at either end. -/
abbrev operandText (p : Text) : Prop :=
  p ≠ [] ∧ (∀ c ∈ p, c ≠ ',') ∧ (∀ c, p.head? = some c → isWs c = false) ∧ (∀ c, p.getLast? = some c → isWs c = false)

/-- White space only. -/
abbrev blanks (t : Text) : Prop := ∀ c ∈ t, isWs c = true

/-- R160: the request concerns the DEC side. -/
def Request.forDec : Request → Bool
  | .dec _ => true
  | .reset .both => true
  | .reset .decOnly => true
  | .reset .encOnly => false
  | .enc _ => false

/-- R160: the request concerns the ENC side. -/
def Request.forEnc : Request → Bool
  | .enc _ => true
  | .reset .both => true
  | .reset .encOnly => true
  | .reset .decOnly => false
  | .dec _ => false

/-- What a DEC side in the unbounded model answers to words. -/
def Result.fromDec : Result → Bool
  | .decoded _ _ => true
  | .emitted _ _ => false
  | .error _ _ => false
  | .refused _ => false
  | .resetDone _ => false

/-- What an ENC side in the unbounded model answers to lines. -/
def Result.fromEnc : Result → Bool
  | .emitted _ _ => true
  | .error _ _ => true
  | .refused _ => true
  | .decoded _ _ => false
  | .resetDone _ => false

end Sys2Proof.Machine
end

