-- ==== Sys2Proof/Certificates/Slice0/Obligations.lean ====
section
/-! DEFINITION. The statements for the provers. Each says which sentence of spec/ it formalises; OBLIGATIONS.json lists them. -/

open Sys2Proof Sys2Proof.Machine

/-! ## The Instruction Table and the lookup by word -/

/-- R34, R36 (D2, D25; log 1, log 17): the default table has 35 rows, meets WF1 to WF7, each row has the mask of its layout (R32),
no row has more than three slots (R5), its mnemonics can be tokenised, and the shape names cover rows of it (R46). -/
def Obligations.DefaultTableIsWellFormed : Prop :=
  Table.WellFormed defaultTable ∧ Table.Spellable defaultTable ∧ defaultTable.length = 35 ∧ maxOps defaultTable = 3 ∧
    (∀ f ∈ defaultTable, f.mask = f.layout.mask) ∧
    (∀ (sh : Shape), ∀ f ∈ sh.rows, f ∈ defaultTable ∧ f.slots ∈ sh.slotLists)

/-- R37: the lookup is the first match in order of decreasing mask specificity, in any table (ties by table order are the spec's
decision D24); by R34 WF6 the row it finds in a well-formed table has strictly more fixed bits than every other matching row, so
"decoding a word must select exactly one most-specific format". -/
def Obligations.LookupByWordSelectsMostSpecific : Prop :=
  (∀ (t : Table) (w : Word), lookupByWord t w = (specificityOrder t).find? fun f => f.hits w) ∧
  ∀ (t : Table), Table.WellFormed t → ∀ (w : Word) (f : Format),
    lookupByWord t w = some f ↔
      f ∈ t ∧ f.hits w = true ∧ ∀ g ∈ t, g.hits w = true → g = f ∨ popcount g.mask < popcount f.mask

/-- R38: two rows of the default table match one word only for 0x00E0 (`CLS` with `SYS`) and 0x00EE (`RET` with `SYS`), and those
words decode as `CLS` and `RET`. -/
def Obligations.DefaultTableOverlaps : Prop :=
  (∀ (w : Word), ∀ f ∈ defaultTable, ∀ g ∈ defaultTable, f.hits w = true → g.hits w = true →
    f = g ∨
    (w = 0x00E0#16 ∧ ((f = rowCls ∧ g = rowSysNnn) ∨ (f = rowSysNnn ∧ g = rowCls))) ∨
    (w = 0x00EE#16 ∧ ((f = rowRet ∧ g = rowSysNnn) ∨ (f = rowSysNnn ∧ g = rowRet)))) ∧
  lookupByWord defaultTable 0x00E0#16 = some rowCls ∧ lookupByWord defaultTable 0x00EE#16 = some rowRet ∧
  encode (.sysNnn 0x0E0) = 0x00E0#16 ∧ encode (.sysNnn 0x0EE) = 0x00EE#16

/-- R39, R136: the words no row matches are exactly those of R39's five families, and they decode as raw data. -/
def Obligations.UnmatchedWordsAreData : Prop :=
  ∀ (w : Word),
    (lookupByWord defaultTable w = none ↔ unmatched w = true) ∧
    (unmatched w = true → decodeWord w = .db (w.extractLsb' 8 8).toNat (w.extractLsb' 0 8).toNat)

/-- R67: the value of each field, and what a row extracts: its slots' fields in slot order and nothing else; `V0` and `P(p)`
extract nothing. -/
def Obligations.FieldExtraction : Prop :=
  (∀ (w : Word),
    Field.x.extract w = (w.extractLsb' 8 4).toNat ∧ Field.y.extract w = (w.extractLsb' 4 4).toNat ∧
    Field.n.extract w = (w.extractLsb' 0 4).toNat ∧ Field.kk.extract w = (w.extractLsb' 0 8).toNat ∧
    Field.nnn.extract w = (w.extractLsb' 0 12).toNat ∧
    ∀ (f : Field), f.extract w = w.toNat / 2 ^ f.offset % 2 ^ f.width) ∧
  (∀ (slots : List Slot) (w : Word),
    (extractVals slots w).map Prod.fst = slots.filterMap Slot.field ∧
    ∀ v ∈ extractVals slots w, v.2 = v.1.extract w) ∧
  Slot.V0.field = none ∧ ∀ (p : Pseudo), (Slot.P p).field = none

/-- R35: values that fit are ORed into the pattern each at its offset, and reading the fields of the word gives them back; a value
that does not fit is rejected, never truncated. `JP LFFF` keeps its high nibble; `JP L1000` is rejected. -/
def Obligations.OperandAssembly : Prop :=
  (∀ (t : Table), Table.WellFormed t → ∀ f ∈ t, ∀ (vals : Vals), vals.map Prod.fst = boundFields f.slots →
    ((∀ v ∈ vals, v.2 < 2 ^ v.1.width) →
      ∃ w, packVals f.pattern vals = .ok w ∧
        w = vals.foldl (fun u v => u ||| BitVec.ofNat 16 v.2 <<< v.1.offset) f.pattern ∧
        (∀ v ∈ vals, v.2 = w.toNat / 2 ^ v.1.offset % 2 ^ v.1.width) ∧ extractVals f.slots w = vals ∧ f.hits w = true) ∧
    ((∃ v ∈ vals, 2 ^ v.1.width ≤ v.2) → packVals f.pattern vals = .error .fieldOverflow)) ∧
  encodeLine defaultTable ⟨"JP".toList, [.label 0xFFF]⟩ = .ok 0x1FFF#16 ∧
  ∀ (v : Nat), 0x1000 ≤ v →
    encodeLine defaultTable ⟨"JP".toList, [.label v]⟩ = .error .fieldOverflow ∧
    encodeLine defaultTable ⟨"JP".toList, [.hash v]⟩ = .error .fieldOverflow

/-! ## Decode and encode agree -/

/-- A few words written out from the spec's encodings decode to their instructions (95_test_vectors.md 2.1, 2.6). -/
def Obligations.SampleWordsDecode : Prop :=
  decode [0x63#8, 0x2A#8] = .ok (.ldXkk 0x3#4 0x2A, []) ∧ decode [0x12#8, 0x00#8] = .ok (.jpNnn 0x200, []) ∧
  decode [0x81#8, 0x2E#8] = .ok (.shlXy 0x1#4 0x2#4, []) ∧ decode [0xDA#8, 0x57#8] = .ok (.drwXyn 0xA#4 0x5#4 7, []) ∧
  decode [0xF1#8, 0x65#8] = .ok (.ldXInd 0x1#4, []) ∧ decode [0x51#8, 0x21#8] = .ok (.db 0x51 0x21, []) ∧
  decode [0x00#8, 0xE0#8, 0xFF#8] = .ok (.cls, [0xFF#8]) ∧ decode [0x12#8] = .error (.trailingOddByte 1)

/-- Every word is the word of the instruction it decodes to, and that instruction is well formed: no bit of a word is dropped
(R71 at the level of words). -/
def Obligations.EncodeOfDecodeIsTheWord : Prop :=
  ∀ (w : Word), (decodeWord w).WellFormed ∧ encode (decodeWord w) = w

/-- Every well-formed instruction's bytes decode to it, and leave the rest, but for `SYS #0E0` and `SYS #0EE` (R38, C13) and raw
data whose word some row matches (R135). -/
def Obligations.DecodeOfEncodeIsTheInstruction : Prop :=
  ∀ (i : Instr) (rest : List Byte), i.WellFormed → i ≠ .sysNnn 0x0E0 → i ≠ .sysNnn 0x0EE →
    (∀ hh ll, i = .db hh ll → unmatched (encode i) = true) →
    decode (encodeBytes i ++ rest) = .ok (i, rest)

/-- R100 to R106, the Decode clauses: which words are which row, and their address field. -/
def Obligations.NoneAndAddressWordsSelected : Prop :=
  ∀ (w : Word) (nnn : Nat),
    (decodeWord w = .cls ↔ w = 0x00E0#16) ∧ (decodeWord w = .ret ↔ w = 0x00EE#16) ∧
    (decodeWord w = .sysNnn nnn ↔
      w.extractLsb' 12 4 = 0x0#4 ∧ w ≠ 0x00E0#16 ∧ w ≠ 0x00EE#16 ∧ nnn = (w.extractLsb' 0 12).toNat) ∧
    (decodeWord w = .jpNnn nnn ↔ w.extractLsb' 12 4 = 0x1#4 ∧ nnn = (w.extractLsb' 0 12).toNat) ∧
    (decodeWord w = .callNnn nnn ↔ w.extractLsb' 12 4 = 0x2#4 ∧ nnn = (w.extractLsb' 0 12).toNat) ∧
    (decodeWord w = .ldINnn nnn ↔ w.extractLsb' 12 4 = 0xA#4 ∧ nnn = (w.extractLsb' 0 12).toNat) ∧
    (decodeWord w = .jpV0Nnn nnn ↔ w.extractLsb' 12 4 = 0xB#4 ∧ nnn = (w.extractLsb' 0 12).toNat)

/-- R107 to R111, the Decode clauses. -/
def Obligations.RegisterByteWordsSelected : Prop :=
  ∀ (w : Word) (x : Nibble) (kk : Nat),
    let ops := x = w.extractLsb' 8 4 ∧ kk = (w.extractLsb' 0 8).toNat
    (decodeWord w = .seXkk x kk ↔ w.extractLsb' 12 4 = 0x3#4 ∧ ops) ∧
    (decodeWord w = .sneXkk x kk ↔ w.extractLsb' 12 4 = 0x4#4 ∧ ops) ∧
    (decodeWord w = .ldXkk x kk ↔ w.extractLsb' 12 4 = 0x6#4 ∧ ops) ∧
    (decodeWord w = .addXkk x kk ↔ w.extractLsb' 12 4 = 0x7#4 ∧ ops) ∧
    (decodeWord w = .rndXkk x kk ↔ w.extractLsb' 12 4 = 0xC#4 ∧ ops)

/-- R112 to R122, the Decode clauses. -/
def Obligations.TwoRegisterWordsSelected : Prop :=
  ∀ (w : Word) (x y : Nibble),
    let row := fun (top low : Nibble) =>
      (w.extractLsb' 12 4 = top ∧ w.extractLsb' 0 4 = low) ∧ x = w.extractLsb' 8 4 ∧ y = w.extractLsb' 4 4
    (decodeWord w = .seXy x y ↔ row 0x5#4 0x0#4) ∧ (decodeWord w = .ldXy x y ↔ row 0x8#4 0x0#4) ∧
    (decodeWord w = .orXy x y ↔ row 0x8#4 0x1#4) ∧ (decodeWord w = .andXy x y ↔ row 0x8#4 0x2#4) ∧
    (decodeWord w = .xorXy x y ↔ row 0x8#4 0x3#4) ∧ (decodeWord w = .addXy x y ↔ row 0x8#4 0x4#4) ∧
    (decodeWord w = .subXy x y ↔ row 0x8#4 0x5#4) ∧ (decodeWord w = .shrXy x y ↔ row 0x8#4 0x6#4) ∧
    (decodeWord w = .subnXy x y ↔ row 0x8#4 0x7#4) ∧ (decodeWord w = .shlXy x y ↔ row 0x8#4 0xE#4) ∧
    (decodeWord w = .sneXy x y ↔ row 0x9#4 0x0#4)

/-- R123 to R134, the Decode clauses. -/
def Obligations.DrawKeyTimerWordsSelected : Prop :=
  ∀ (w : Word) (x y : Nibble) (n : Nat),
    let row := fun (top : Nibble) (low : Byte) =>
      (w.extractLsb' 12 4 = top ∧ w.extractLsb' 0 8 = low) ∧ x = w.extractLsb' 8 4
    (decodeWord w = .drwXyn x y n ↔
      w.extractLsb' 12 4 = 0xD#4 ∧ x = w.extractLsb' 8 4 ∧ y = w.extractLsb' 4 4 ∧ n = (w.extractLsb' 0 4).toNat) ∧
    (decodeWord w = .skpX x ↔ row 0xE#4 0x9E#8) ∧ (decodeWord w = .sknpX x ↔ row 0xE#4 0xA1#8) ∧
    (decodeWord w = .ldXDt x ↔ row 0xF#4 0x07#8) ∧ (decodeWord w = .ldXK x ↔ row 0xF#4 0x0A#8) ∧
    (decodeWord w = .ldDtX x ↔ row 0xF#4 0x15#8) ∧ (decodeWord w = .ldStX x ↔ row 0xF#4 0x18#8) ∧
    (decodeWord w = .addIX x ↔ row 0xF#4 0x1E#8) ∧ (decodeWord w = .ldFX x ↔ row 0xF#4 0x29#8) ∧
    (decodeWord w = .ldBX x ↔ row 0xF#4 0x33#8) ∧ (decodeWord w = .ldIndX x ↔ row 0xF#4 0x55#8) ∧
    (decodeWord w = .ldXInd x ↔ row 0xF#4 0x65#8)

/-! ## Bytes and words -/

/-- R21: the byte at the lower address is the high one, on the way in and on the way out, for instruction and data words alike. -/
def Obligations.ByteOrderIsBigEndian : Prop :=
  (∀ (w : Word), bytesOfWords [w] = [w.extractLsb' 8 8, w.extractLsb' 0 8] ∧
    wordsOfBytes [w.extractLsb' 8 8, w.extractLsb' 0 8] = .ok [w]) ∧
  (∀ (w : Word) (s : State), ∃ rest, (emitWord w s).results = .emitted (w.extractLsb' 8 8) (w.extractLsb' 0 8) :: rest) ∧
  (assembleRun defaultTable Params.default [tokenize "LD v3, #2A".toList]).1 = .ok [0x63#8, 0x2A#8] ∧
  (assembleRun defaultTable Params.default [tokenize "CLS".toList]).1 = .ok [0x00#8, 0xE0#8] ∧
  (assembleRun defaultTable Params.default [tokenize "db #12, #34".toList]).1 = .ok [0x12#8, 0x34#8]

/-- R22, R144 (the treatment of an odd length is the spec's decision D20): an odd sequence gives the error with its length, no word,
no entry, and the DEC side as reset; an even one its words in order, each of two neighbouring bytes, the first one high. -/
def Obligations.WordsOfBytesPairsOrRejects : Prop :=
  (∀ (bs : List Byte),
    (bs.length % 2 = 1 → wordsOfBytes bs = .error (.trailingOddByte bs.length)) ∧
    (bs.length % 2 = 0 → ∃ ws, wordsOfBytes bs = .ok ws ∧ 2 * ws.length = bs.length ∧
      ∀ k, k < ws.length →
        (ws.getD k 0#16).toNat = 256 * (bs.getD (2 * k) 0#8).toNat + (bs.getD (2 * k + 1) 0#8).toNat)) ∧
  ∀ (t : Table) (p : Params) (bs : List Byte), bs.length % 2 = 1 → ∃ s,
    disassembleBytes t p bs = (.error (.trailingOddByte bs.length), s) ∧ s.mode = .decoding ∧ s.addr = 0x200 ∧ s.results = []

/-- R23: the two adapters undo each other (the spec derives it from R22 and R23). -/
def Obligations.BytesAndWordsRoundTrip : Prop :=
  (∀ (ws : List Word), wordsOfBytes (bytesOfWords ws) = .ok ws ∧ (bytesOfWords ws).length = 2 * ws.length) ∧
  ∀ (bs : List Byte) (ws : List Word), wordsOfBytes bs = .ok ws → bytesOfWords ws = bs

/-! ## Text -/

/-- R41, R43 (the separators are the spec's decision D9): a line of the grammar, with any white space the grammar allows, is read
as its mnemonic and the tokens of its operands. -/
def Obligations.TokenizeReadsTheGrammar : Prop :=
  ∀ (lead mn sep trail : Text) (pieces : List (Text × Text × Text)),
    blanks lead → blanks sep → blanks trail → mn ≠ [] → (∀ c ∈ mn, isWs c = false) →
    (pieces ≠ [] → sep ≠ []) →
    (∀ p ∈ pieces, blanks p.1 ∧ operandText p.2.1 ∧ blanks p.2.2) →
    tokenize (lead ++ mn ++ sep ++ List.intercalate [','] (pieces.map fun p => p.1 ++ p.2.1 ++ p.2.2) ++ trail) =
      ⟨mn, pieces.map fun p => token p.2.1⟩

/-- R45: in a well-formed table `lookup_by_text` finds exactly the row with that mnemonic, as many slots as tokens, and every slot
accepting its token; there is at most one. -/
def Obligations.LookupByTextFindsTheOneRow : Prop :=
  ∀ (t : Table), Table.WellFormed t → ∀ (mn : Text) (ops : List Tok) (f : Format),
    lookupByText t mn ops = some f ↔
      f ∈ t ∧ f.mnemonic = mn ∧ f.slots.length = ops.length ∧
        List.Forall₂ (fun slot tok => accepts slot tok = true) f.slots ops

/-- R146 (the order of the checks is the spec's decision D11): a line of another mnemonic than `db` gives the first error of the
ladder that applies, and a word when none does. -/
def Obligations.EncodeErrorLadder : Prop :=
  ∀ (t : Table) (line : Line), line.mn ≠ dbMnemonic →
    (encodeLine t line = .error .unknownInstruction ↔
      (∀ f ∈ t, f.mnemonic ≠ line.mn) ∨
      ((∃ f ∈ t, f.mnemonic = line.mn ∧ f.slots.length = line.ops.length) ∧ lookupByText t line.mn line.ops = none)) ∧
    (encodeLine t line = .error .operandArityMismatch ↔
      (∃ f ∈ t, f.mnemonic = line.mn) ∧ ∀ f ∈ t, f.mnemonic = line.mn → f.slots.length ≠ line.ops.length) ∧
    (encodeLine t line = .error .fieldOverflow ↔
      ∃ f, lookupByText t line.mn line.ops = some f ∧ ∃ v ∈ bindVals f.slots line.ops, 2 ^ v.1.width ≤ v.2) ∧
    (∀ w, encodeLine t line = .ok w ↔
      ∃ f, lookupByText t line.mn line.ops = some f ∧ (∀ v ∈ bindVals f.slots line.ops, v.2 < 2 ^ v.1.width) ∧
        w = (bindVals f.slots line.ops).foldl (fun u v => u ||| BitVec.ofNat 16 v.2 <<< v.1.offset) f.pattern)

/-- R142 with its counts per mnemonic (derived there from R36): with the default table a line is `OperandArityMismatch` exactly
when its mnemonic is known and its operand count is none of the mnemonic's. -/
def Obligations.OperandCountsOfTheDefaultTable : Prop :=
  ∀ (line : Line), encodeLine defaultTable line = .error .operandArityMismatch ↔
    ∃ e ∈ operandCounts, e.1 = line.mn ∧ line.ops.length ∉ e.2

/-- R61: for `SE`, `SNE`, `LD` and `ADD` the kind of the second operand alone chooses the family, whatever the register indices, the
hash value and its digits; the two forms never collide. -/
def Obligations.ImmediateAndRegisterFormsNeverCollide : Prop :=
  (∀ (digits : Text) (v : Nat), hexNumber digits = some v → token ('#' :: digits) = .hash v) ∧
  (∀ (x y : Nibble) (kk : Nat),
    selectRow defaultTable ⟨"SE".toList, [.reg x, .hash kk]⟩ = .ok rowSeXkk ∧
    selectRow defaultTable ⟨"SE".toList, [.reg x, .reg y]⟩ = .ok rowSeXy ∧
    selectRow defaultTable ⟨"SNE".toList, [.reg x, .hash kk]⟩ = .ok rowSneXkk ∧
    selectRow defaultTable ⟨"SNE".toList, [.reg x, .reg y]⟩ = .ok rowSneXy ∧
    selectRow defaultTable ⟨"LD".toList, [.reg x, .hash kk]⟩ = .ok rowLdXkk ∧
    selectRow defaultTable ⟨"LD".toList, [.reg x, .reg y]⟩ = .ok rowLdXy ∧
    selectRow defaultTable ⟨"ADD".toList, [.reg x, .hash kk]⟩ = .ok rowAddXkk ∧
    selectRow defaultTable ⟨"ADD".toList, [.reg x, .reg y]⟩ = .ok rowAddXy) ∧
  (∀ mn ∈ ["SE".toList, "SNE".toList, "LD".toList, "ADD".toList], ∀ (x y x' : Nibble) (kk : Nat) (u v : Word),
    encodeLine defaultTable ⟨mn, [.reg x, .hash kk]⟩ = .ok u → encodeLine defaultTable ⟨mn, [.reg x', .reg y]⟩ = .ok v →
    u ≠ v) ∧
  encodeLine defaultTable (tokenize "ADD v1, v2".toList) = .ok 0x8124#16 ∧
  encodeLine defaultTable (tokenize "ADD v1, #24".toList) = .ok 0x7124#16

/-- R100 to R106, the Encode and Errors clauses (the label form outside `JP` and the `v0` rule are D7, D12). -/
def Obligations.NoneAndAddressLinesEncode : Prop :=
  encodesIf true "CLS" [] 0x00E0#16 ∧ encodesIf true "RET" [] 0x00EE#16 ∧
  ∀ (v : Nat) (a : Tok), a = .hash v ∨ a = .label v →
    let fits := decide (v < 0x1000)
    encodesIf fits "SYS" [a] (BitVec.ofNat 16 v) ∧
    encodesIf fits "JP" [a] (0x1000#16 ||| BitVec.ofNat 16 v) ∧
    encodesIf fits "CALL" [a] (0x2000#16 ||| BitVec.ofNat 16 v) ∧
    encodesIf fits "LD" [.pseudo .I, a] (0xA000#16 ||| BitVec.ofNat 16 v) ∧
    encodesIf fits "JP" [.reg 0x0#4, a] (0xB000#16 ||| BitVec.ofNat 16 v) ∧
    ∀ (i : Nibble), i ≠ 0x0#4 → encodeLine defaultTable ⟨"JP".toList, [.reg i, a]⟩ = .error .unknownInstruction

/-- R107 to R111, the Encode and Errors clauses; a label is no byte. -/
def Obligations.RegisterByteLinesEncode : Prop :=
  ∀ (x : Nibble) (kk : Nat),
    let fits := decide (kk < 0x100)
    let fields := x.setWidth 16 <<< 8 ||| BitVec.ofNat 16 kk
    encodesIf fits "SE" [.reg x, .hash kk] (0x3000#16 ||| fields) ∧
    encodesIf fits "SNE" [.reg x, .hash kk] (0x4000#16 ||| fields) ∧
    encodesIf fits "LD" [.reg x, .hash kk] (0x6000#16 ||| fields) ∧
    encodesIf fits "ADD" [.reg x, .hash kk] (0x7000#16 ||| fields) ∧
    encodesIf fits "RND" [.reg x, .hash kk] (0xC000#16 ||| fields) ∧
    ∀ mn ∈ ["SE".toList, "SNE".toList, "LD".toList, "ADD".toList, "RND".toList],
      encodeLine defaultTable ⟨mn, [.reg x, .label kk]⟩ = .error .unknownInstruction

/-- R112 to R122, the Encode clauses. -/
def Obligations.TwoRegisterLinesEncode : Prop :=
  ∀ (x y : Nibble),
    let fields := x.setWidth 16 <<< 8 ||| y.setWidth 16 <<< 4
    let ops := [Tok.reg x, Tok.reg y]
    encodesIf true "SE" ops (0x5000#16 ||| fields) ∧ encodesIf true "LD" ops (0x8000#16 ||| fields) ∧
    encodesIf true "OR" ops (0x8001#16 ||| fields) ∧ encodesIf true "AND" ops (0x8002#16 ||| fields) ∧
    encodesIf true "XOR" ops (0x8003#16 ||| fields) ∧ encodesIf true "ADD" ops (0x8004#16 ||| fields) ∧
    encodesIf true "SUB" ops (0x8005#16 ||| fields) ∧ encodesIf true "SHR" ops (0x8006#16 ||| fields) ∧
    encodesIf true "SUBN" ops (0x8007#16 ||| fields) ∧ encodesIf true "SHL" ops (0x800E#16 ||| fields) ∧
    encodesIf true "SNE" ops (0x9000#16 ||| fields)

/-- R123 to R134, the Encode and Errors clauses. -/
def Obligations.DrawKeyTimerLinesEncode : Prop :=
  ∀ (x y : Nibble) (n : Nat),
    let fx := x.setWidth 16 <<< 8
    encodesIf (decide (n < 0x10)) "DRW" [.reg x, .reg y, .hash n]
      (0xD000#16 ||| fx ||| y.setWidth 16 <<< 4 ||| BitVec.ofNat 16 n) ∧
    encodesIf true "SKP" [.reg x] (0xE09E#16 ||| fx) ∧ encodesIf true "SKNP" [.reg x] (0xE0A1#16 ||| fx) ∧
    encodesIf true "LD" [.reg x, .pseudo .DT] (0xF007#16 ||| fx) ∧
    encodesIf true "LD" [.reg x, .pseudo .K] (0xF00A#16 ||| fx) ∧
    encodesIf true "LD" [.pseudo .DT, .reg x] (0xF015#16 ||| fx) ∧
    encodesIf true "LD" [.pseudo .ST, .reg x] (0xF018#16 ||| fx) ∧
    encodesIf true "ADD" [.pseudo .I, .reg x] (0xF01E#16 ||| fx) ∧
    encodesIf true "LD" [.pseudo .F, .reg x] (0xF029#16 ||| fx) ∧
    encodesIf true "LD" [.pseudo .B, .reg x] (0xF033#16 ||| fx) ∧
    encodesIf true "LD" [.pseudo .ind, .reg x] (0xF055#16 ||| fx) ∧
    encodesIf true "LD" [.reg x, .pseudo .ind] (0xF065#16 ||| fx)

/-- R63, R135 (the error cases are the spec's decision D13): a `db` line is its two bytes, the first one high; the wrong count, the
wrong kinds and a value of 0x100 or more are the three errors, in that order. The table has no part in it. -/
def Obligations.RawDataLinesEncode : Prop :=
  ∀ (t : Table),
    (∀ (hi lo : Nat), encodeLine t ⟨dbMnemonic, [.hash hi, .hash lo]⟩ =
      if hi < 0x100 ∧ lo < 0x100 then .ok (BitVec.ofNat 16 (256 * hi + lo)) else .error .fieldOverflow) ∧
    (∀ (a b : Tok), (∀ v, a ≠ .hash v) ∨ (∀ v, b ≠ .hash v) →
      encodeLine t ⟨dbMnemonic, [a, b]⟩ = .error .unknownInstruction) ∧
    (∀ (ops : List Tok), ops.length ≠ 2 → encodeLine t ⟨dbMnemonic, ops⟩ = .error .operandArityMismatch)

/-- R71, "for every word w, encoding the text produced by Decoder(w) returns w": over every well-formed table whose mnemonics can be
tokenised (log 17), in both modes, at every address, in either letter case. -/
def Obligations.DecodeThenEncodeReturnsTheWord : Prop :=
  ∀ (t : Table), Table.WellFormed t → Table.Spellable t →
    ∀ (hc : HexCase) (mode : Mode) (addr : Nat) (w : Word),
      encodeLine t (tokenize (render hc (decodeEntry t mode addr w))) = .ok w

/-- R72: over every well-formed table, a line that encodes through a row decodes to that row with those values when no row with more
fixed bits matches; a `db` line decodes in `DataMode` to its word; with the default table the side condition fails for the lines
`SYS #0E0` and `SYS #0EE` only, which come back as `CLS` and `RET`. Last, R72's examples of a line that comes back in another
spelling, and of a `db` line decoded in `Decoding`. -/
def Obligations.EncodeThenDecodeReturnsTheLine : Prop :=
  (∀ (t : Table), Table.WellFormed t → ∀ (line : Line) (f : Format) (w : Word) (addr : Nat),
    line.mn ≠ dbMnemonic → lookupByText t line.mn line.ops = some f → encodeLine t line = .ok w →
    (∀ g ∈ t, g.hits w = true → popcount g.mask ≤ popcount f.mask) →
    decodeEntry t .decoding addr w = .code addr f (bindVals f.slots line.ops)) ∧
  (∀ (t : Table) (hi lo addr : Nat) (w : Word), encodeLine t ⟨dbMnemonic, [.hash hi, .hash lo]⟩ = .ok w →
    decodeEntry t .dataMode addr w = .data addr w ∧ w.toNat = 256 * hi + lo) ∧
  (∀ (line : Line) (f : Format) (w : Word) (addr : Nat),
    lookupByText defaultTable line.mn line.ops = some f → encodeLine defaultTable line = .ok w →
    decodeEntry defaultTable .decoding addr w = .code addr f (bindVals f.slots line.ops) ∨
    (f = rowSysNnn ∧ w = 0x00E0#16 ∧ (line.ops = [.hash 0x0E0] ∨ line.ops = [.label 0x0E0]) ∧
      decodeEntry defaultTable .decoding addr w = .code addr rowCls []) ∨
    (f = rowSysNnn ∧ w = 0x00EE#16 ∧ (line.ops = [.hash 0x0EE] ∨ line.ops = [.label 0x0EE]) ∧
      decodeEntry defaultTable .decoding addr w = .code addr rowRet [])) ∧
  ∀ e ∈ [("JP #200", "JP L200"), ("LD v3, #5", "LD v3, #05"), ("LD vb, #2a", "LD vB, #2A"), ("db #00, #E0", "CLS")],
    ∃ w, encodeLine defaultTable (tokenize e.1.toList) = .ok w ∧
      render .upper (decodeEntry defaultTable .decoding 0x200 w) = e.2.toList

/-! ## What the instructions do: the DEC side -/

/-- R100 to R106, the Decode and State clauses in `Decoding`: entry, text, ADDR plus 2, MODE kept but for the self-jump of `JP`. -/
def Obligations.NoneAndAddressRowsDecode : Prop :=
  decodesAs .cls rowCls [] (fun _ => "CLS".toList) ∧ decodesAs .ret rowRet [] (fun _ => "RET".toList) ∧
  ∀ (nnn : Nat), nnn < 0x1000 →
    decodesAs (.sysNnn nnn) rowSysNnn [(.nnn, nnn)] (fun hc => "SYS #".toList ++ hexText hc 3 nnn) ∧
    decodesAs (.callNnn nnn) rowCallNnn [(.nnn, nnn)] (fun hc => "CALL #".toList ++ hexText hc 3 nnn) ∧
    decodesAs (.ldINnn nnn) rowLdINnn [(.nnn, nnn)] (fun hc => "LD I, #".toList ++ hexText hc 3 nnn) ∧
    decodesAs (.jpV0Nnn nnn) rowJpV0Nnn [(.nnn, nnn)] (fun hc => "JP v0, #".toList ++ hexText hc 3 nnn) ∧
    ∀ (s : State) (w : Word), s.Presents (.dec w) → s.DecReady → s.mode = .decoding →
      exec (.jpNnn nnn) s = .next (s.afterDec (if nnn = s.addr then .dataMode else .decoding)
        (.code s.addr rowJpNnn [(.nnn, nnn)]) ("JP L".toList ++ hexText s.params.hexcase 3 nnn))

/-- R107 to R111, the Decode and State clauses in `Decoding`. -/
def Obligations.RegisterByteRowsDecode : Prop :=
  ∀ (x : Nibble) (kk : Nat), kk < 0x100 →
    let vals : Vals := [(.x, x.toNat), (.kk, kk)]
    let text := fun (mn : String) (hc : HexCase) =>
      mn.toList ++ " v".toList ++ hexText hc 1 x.toNat ++ ", #".toList ++ hexText hc 2 kk
    decodesAs (.seXkk x kk) rowSeXkk vals (text "SE") ∧ decodesAs (.sneXkk x kk) rowSneXkk vals (text "SNE") ∧
    decodesAs (.ldXkk x kk) rowLdXkk vals (text "LD") ∧ decodesAs (.addXkk x kk) rowAddXkk vals (text "ADD") ∧
    decodesAs (.rndXkk x kk) rowRndXkk vals (text "RND")

/-- R112 to R122, the Decode and State clauses in `Decoding`. -/
def Obligations.TwoRegisterRowsDecode : Prop :=
  ∀ (x y : Nibble),
    let vals : Vals := [(.x, x.toNat), (.y, y.toNat)]
    let text := fun (mn : String) (hc : HexCase) =>
      mn.toList ++ " v".toList ++ hexText hc 1 x.toNat ++ ", v".toList ++ hexText hc 1 y.toNat
    decodesAs (.seXy x y) rowSeXy vals (text "SE") ∧ decodesAs (.ldXy x y) rowLdXy vals (text "LD") ∧
    decodesAs (.orXy x y) rowOrXy vals (text "OR") ∧ decodesAs (.andXy x y) rowAndXy vals (text "AND") ∧
    decodesAs (.xorXy x y) rowXorXy vals (text "XOR") ∧ decodesAs (.addXy x y) rowAddXy vals (text "ADD") ∧
    decodesAs (.subXy x y) rowSubXy vals (text "SUB") ∧ decodesAs (.shrXy x y) rowShrXy vals (text "SHR") ∧
    decodesAs (.subnXy x y) rowSubnXy vals (text "SUBN") ∧ decodesAs (.shlXy x y) rowShlXy vals (text "SHL") ∧
    decodesAs (.sneXy x y) rowSneXy vals (text "SNE")

/-- R123 to R134, the Decode and State clauses in `Decoding`. -/
def Obligations.DrawKeyTimerRowsDecode : Prop :=
  ∀ (x y : Nibble) (n : Nat), n < 0x10 →
    let vals : Vals := [(.x, x.toNat)]
    let text := fun (before after : String) (hc : HexCase) => before.toList ++ hexText hc 1 x.toNat ++ after.toList
    decodesAs (.drwXyn x y n) rowDrwXyn [(.x, x.toNat), (.y, y.toNat), (.n, n)] (fun hc =>
      "DRW v".toList ++ hexText hc 1 x.toNat ++ ", v".toList ++ hexText hc 1 y.toNat ++ ", #".toList ++ hexText hc 1 n) ∧
    decodesAs (.skpX x) rowSkpX vals (text "SKP v" "") ∧ decodesAs (.sknpX x) rowSknpX vals (text "SKNP v" "") ∧
    decodesAs (.ldXDt x) rowLdXDt vals (text "LD v" ", DT") ∧ decodesAs (.ldXK x) rowLdXK vals (text "LD v" ", K") ∧
    decodesAs (.ldDtX x) rowLdDtX vals (text "LD DT, v" "") ∧ decodesAs (.ldStX x) rowLdStX vals (text "LD ST, v" "") ∧
    decodesAs (.addIX x) rowAddIX vals (text "ADD I, v" "") ∧ decodesAs (.ldFX x) rowLdFX vals (text "LD F, v" "") ∧
    decodesAs (.ldBX x) rowLdBX vals (text "LD B, v" "") ∧ decodesAs (.ldIndX x) rowLdIndX vals (text "LD [I], v" "") ∧
    decodesAs (.ldXInd x) rowLdXInd vals (text "LD v" ", [I]")

/-- R135, the Decode and State clauses: raw data is a Data Entry in either mode, and MODE is never changed by it. -/
def Obligations.RawDataDecodes : Prop :=
  ∀ (hh ll : Nat), hh < 0x100 → ll < 0x100 →
    ∀ (s : State) (w : Word), s.Presents (.dec w) → s.DecReady →
      exec (.db hh ll) s = .next (s.afterDec s.mode (.data s.addr (BitVec.ofNat 16 (256 * hh + ll)))
        ("db #".toList ++ hexText s.params.hexcase 2 hh ++ ", #".toList ++ hexText s.params.hexcase 2 ll))

/-- R136 and the `DataMode` clause of R100 to R134: in `DataMode` every well-formed instruction, the self-jump too, is delivered as
the Data Entry of its word, MODE stays and ADDR advances. -/
def Obligations.DataModeRendersEverythingAsData : Prop :=
  ∀ (i : Instr) (s : State) (v : Word), i.WellFormed → s.Presents (.dec v) → s.DecReady → s.mode = .dataMode →
    exec i s = .next (s.afterDec .dataMode (.data s.addr (encode i))
      ("db #".toList ++ hexText s.params.hexcase 2 ((encode i).toNat / 256) ++
        ", #".toList ++ hexText s.params.hexcase 2 ((encode i).toNat % 256)))

/-- R154(b) (ADDRW is the spec's decision D16): with no next address every well-formed instruction on the DEC side is refused with
`AddressRange` and changes none of the block's state; the unbounded model always has room. -/
def Obligations.DecodeRefusedWithoutRoom : Prop :=
  (∀ (i : Instr) (s : State) (v : Word), i.WellFormed → s.Presents (.dec v) → ¬s.DecReady →
    exec i s = .next (s.afterRefusal [.addressRange])) ∧
  (∀ (s : State) (n : Nat), s.params.addrw = some n → 2 ≤ n → (s.DecReady ↔ s.addr ≤ 2 ^ n - 4)) ∧
  (∀ (s : State), s.params.addrw = none → s.DecReady)

/-! ## What the instructions do: the ENC side -/

/-- R64 on `Ok(w)`: every well-formed instruction asked of the ENC side emits its word, high byte first, and EADDR advances by 2. -/
def Obligations.EveryInstructionEncodes : Prop :=
  ∀ (i : Instr) (s : State) (line : Line), i.WellFormed → s.Presents (.enc line) → s.EncReady →
    exec i s = .next (s.afterEnc ((encode i).extractLsb' 8 8) ((encode i).extractLsb' 0 8))

/-- R143, R147 (the recording is the spec's decision D18): an operand too wide for its field takes `FieldOverflow`: ECAUSE is 3, EADDR
and everything else of the block stay, nothing is emitted, the line is handed back. -/
def Obligations.OversizeOperandTakesFieldOverflow : Prop :=
  ∀ (i : Instr) (s : State) (line : Line), ¬i.WellFormed → s.Presents (.enc line) → s.EncReady →
    exec i s = .next (s.afterError 3#2 .fieldOverflow line)

/-- R154 (D16, D18; both reasons at once are the model's choice, log 6): a refused `EncStep` changes none of the block's state and
looks at nothing; the reasons told are those that apply. -/
def Obligations.EncodeRefusedWhileAbortedOrWithoutRoom : Prop :=
  ∀ (i : Instr) (s : State) (line : Line), s.Presents (.enc line) →
    (s.ecause ≠ 0#2 → hasRoom s.params s.eaddr = true → exec i s = .next (s.afterRefusal [.runAborted])) ∧
    (s.ecause = 0#2 → hasRoom s.params s.eaddr = false → exec i s = .next (s.afterRefusal [.addressRange])) ∧
    (s.ecause ≠ 0#2 → hasRoom s.params s.eaddr = false →
      exec i s = .next (s.afterRefusal [.runAborted, .addressRange])) ∧
    ((∃ t, step s = .next t ∧ ∃ rs, t = s.afterRefusal rs) ↔ ¬s.EncReady)

/-- The model's own stops (log 3, log 8, log 9): with neither a word nor a line first in the queue there is nothing to do, and an
instruction no word encodes cannot be asked of the DEC side. -/
def Obligations.ModelStops : Prop :=
  (∀ (i : Instr) (s : State), (∀ w, ¬s.Presents (.dec w)) → (∀ line, ¬s.Presents (.enc line)) →
    exec i s = .refused .noRequest) ∧
  (∀ (i : Instr) (s : State) (w : Word), ¬i.WellFormed → s.Presents (.dec w) → exec i s = .fault .noSuchWord) ∧
  (∀ (s : State), (step s = .refused .noRequest ↔ s.requests = []) ∧ (s.requests ≠ [] → ∃ t, step s = .next t))

/-! ## Steps -/

/-- R66, R60: a step on a word is `exec` of the instruction its bytes decode to, a step on a line is `exec` of the instruction the
line names; the step adds nothing around `exec`. -/
def Obligations.StepRunsTheDecodedInstruction : Prop :=
  (∀ (s : State) (hi lo : Byte) (i : Instr), s.Presents (.dec (wordOfBytes hi lo)) → decode [hi, lo] = .ok (i, []) →
    i.WellFormed → step s = exec i s) ∧
  (∀ (s : State) (line : Line) (i : Instr), s.Presents (.enc line) → selectInstr line = .ok i → step s = exec i s) ∧
  (∀ (s : State) (w : Nat) (i : Instr), decodeTableWord 16 w = some i →
    step (s.withFetchWord 16 w) = exec i (s.withFetchWord 16 w))

/-- R60, R64, R66, R69: the machine of 36 meanings steps as the block's table-driven `DecStep` and `EncStep` at the default table. -/
def Obligations.StepRefinesTheTableDrivenBlock : Prop :=
  (∀ (s : State) (w : Word), s.Presents (.dec w) → step s = .next (decStep defaultTable w s)) ∧
  (∀ (s : State) (line : Line), s.Presents (.enc line) → step s = .next (encStep defaultTable line s))

/-- R64, R147 (D18): a line that encodes is emitted and EADDR advances; a line that does not takes its error, which records the code
in ECAUSE, keeps EADDR and hands the line back. -/
def Obligations.EncStepEmitsOrTakesTheError : Prop :=
  ∀ (s : State) (line : Line), s.Presents (.enc line) → s.EncReady →
    (∀ w, encodeLine defaultTable line = .ok w →
      step s = .next (s.afterEnc (w.extractLsb' 8 8) (w.extractLsb' 0 8))) ∧
    (encodeLine defaultTable line = .error .unknownInstruction →
      step s = .next (s.afterError 1#2 .unknownInstruction line)) ∧
    (encodeLine defaultTable line = .error .operandArityMismatch →
      step s = .next (s.afterError 2#2 .operandArityMismatch line)) ∧
    (encodeLine defaultTable line = .error .fieldOverflow →
      step s = .next (s.afterError 3#2 .fieldOverflow line))

/-- R66, R145: `Decode` has three cases and no error, over every table, on every word, in both modes and at every address, which is
copied into the entry and affects nothing else; a `DecStep` delivers that entry with its text, and the one way it can fail to
happen is the refusal. -/
def Obligations.DecoderRaisesNothing : Prop :=
  (∀ (t : Table) (addr : Nat) (w : Word),
    decodeEntry t .dataMode addr w = .data addr w ∧
    (∀ f, lookupByWord t w = some f → decodeEntry t .decoding addr w = .code addr f (extractVals f.slots w)) ∧
    (lookupByWord t w = none → decodeEntry t .decoding addr w = .data addr w)) ∧
  ∀ (s : State) (w : Word), s.Presents (.dec w) →
    (s.DecReady → ∃ m, step s = .next (s.afterDec m (decodeEntry defaultTable s.mode s.addr w)
      (render s.params.hexcase (decodeEntry defaultTable s.mode s.addr w)))) ∧
    (¬s.DecReady → step s = .next (s.afterRefusal [.addressRange]))

/-- R13: MODE is `Decoding` at reset; it is set by exactly one event, a `DecStep` in `Decoding` of row `JP_NNN` with `nnn` equal to
ADDR; nothing but a reset of the DEC side clears it; in `DataMode` every word is a Data Entry; no encode operation writes it, and
nothing but `DecStep` reads it. -/
def Obligations.ModeIsSetOnlyByASelfJump : Prop :=
  State.reset.mode = .decoding ∧
  (∀ (s t : State), step s = .next t → s.mode = .decoding →
    (t.mode = .dataMode ↔ s.DecReady ∧ ∃ w nnn, s.Presents (.dec w) ∧ decodeWord w = .jpNnn nnn ∧ nnn = s.addr)) ∧
  (∀ (s t : State), step s = .next t → s.mode = .dataMode →
    (t.mode = .decoding ↔ s.Presents (.reset .both) ∨ s.Presents (.reset .decOnly))) ∧
  (∀ (s : State) (w : Word), s.mode = .dataMode → s.Presents (.dec w) → s.DecReady →
    step s = .next (s.afterDec .dataMode (.data s.addr w) (render s.params.hexcase (.data s.addr w)))) ∧
  (∀ (s t : State) (line : Line), s.Presents (.enc line) → step s = .next t → t.mode = s.mode) ∧
  (∀ (s t : State) (m : Mode), (∀ w, ¬s.Presents (.dec w)) → step s = .next t →
    ∃ u, step { s with mode := m } = .next u ∧ { u with mode := t.mode } = t)

/-- R12 (no wrap-around is D16): ADDR is written by a performed `DecStep`, plus 2, and by a reset of the DEC side, to 0x200, and by
nothing else. -/
def Obligations.AddrIsWrittenOnlyByDecStepAndReset : Prop :=
  ∀ (s t : State), step s = .next t →
    (∀ w, s.Presents (.dec w) → t.addr = if hasRoom s.params s.addr then s.addr + 2 else s.addr) ∧
    (∀ line, s.Presents (.enc line) → t.addr = s.addr) ∧
    (s.Presents (.reset .both) ∨ s.Presents (.reset .decOnly) → t.addr = 0x200) ∧
    (s.Presents (.reset .encOnly) → t.addr = s.addr)

/-- R14 (D18, D19): ECAUSE is written when `Encode` returns an error, from 0 to the error's code, and by a reset of the ENC side;
once non-zero it keeps its value until then. -/
def Obligations.EcauseIsSticky : Prop :=
  ∀ (s t : State), step s = .next t →
    (s.ecause = 0#2 → (t.ecause ≠ 0#2 ↔
      hasRoom s.params s.eaddr = true ∧
        ∃ line e, s.Presents (.enc line) ∧ encodeLine defaultTable line = .error e ∧ t.ecause = errCode e)) ∧
    (s.ecause ≠ 0#2 →
      t.ecause = if s.requests.head? = some (.reset .both) ∨ s.requests.head? = some (.reset .encOnly) then 0#2 else s.ecause)

/-- R15 (D16, D18): EADDR advances by 2 exactly on an emitted word, returns to 0x200 on a reset of the ENC side, and else stays; and
it does not influence any emitted word. -/
def Obligations.EaddrCountsEmittedWords : Prop :=
  (∀ (s t : State), step s = .next t →
    (∀ line, s.Presents (.enc line) →
      (∀ w, s.EncReady → encodeLine defaultTable line = .ok w → t.eaddr = s.eaddr + 2) ∧
      (∀ e, encodeLine defaultTable line = .error e → t.eaddr = s.eaddr) ∧ (¬s.EncReady → t.eaddr = s.eaddr)) ∧
    (∀ w, s.Presents (.dec w) → t.eaddr = s.eaddr) ∧
    (s.Presents (.reset .both) ∨ s.Presents (.reset .encOnly) → t.eaddr = 0x200) ∧
    (s.Presents (.reset .decOnly) → t.eaddr = s.eaddr)) ∧
  (∀ (s t : State) (a : Nat) (line : Line), s.params.addrw = none → s.Presents (.enc line) → step s = .next t →
    ∃ u, step { s with eaddr := a } = .next u ∧ u.results = t.results)

/-- The frame of every step (R10): the parameters stay, one request leaves the queue and one result joins the driver's; a step of one
side leaves the other side's fields as they are. -/
def Obligations.StepFrame : Prop :=
  (∀ (s t : State), step s = .next t →
    t.params = s.params ∧ (∃ r, s.requests = r :: t.requests) ∧ ∃ a, t.results = a :: s.results) ∧
  (∀ (i : Instr) (s t : State), exec i s = .next t →
    t.params = s.params ∧ t.requests = s.requests.tail ∧ (∃ a, t.results = a :: s.results) ∧
    (∀ w, s.Presents (.dec w) → t.ecause = s.ecause ∧ t.eaddr = s.eaddr) ∧
    (∀ line, s.Presents (.enc line) → t.mode = s.mode ∧ t.addr = s.addr))

/-- R10, R168 (D22): what a step on a word answers and does to the DEC side does not depend on the ENC side's fields, and the other
way round. -/
def Obligations.SidesDoNotReadEachOther : Prop :=
  (∀ (s t s' : State) (w : Word), sameButEnc s t → s.Presents (.dec w) → step s = .next s' →
    ∃ t', step t = .next t' ∧ sameButEnc s' t') ∧
  (∀ (s t s' : State) (line : Line), sameButDec s t → s.Presents (.enc line) → step s = .next s' →
    ∃ t', step t = .next t' ∧ sameButDec s' t')

/-! ## Reset -/

/-- R18, R160 (D21; ADDRW and HEXCASE are R5's defaults, log 5): the state after reset; and a reset step writes its side's two
fields, is never refused, and leaves the rest. The driver's queue and results are the driver's (log 14). -/
def Obligations.ResetWritesItsSideOnly : Prop :=
  (State.reset.mode = .decoding ∧ State.reset.addr = 0x200 ∧ State.reset.ecause = 0#2 ∧ State.reset.eaddr = 0x200 ∧
    State.reset.params = { addrw := none, hexcase := .upper }) ∧
  ∀ (s : State),
    (s.Presents (.reset .both) → step s = .next { s with
      mode := .decoding, addr := 0x200, ecause := 0#2, eaddr := 0x200, requests := s.requests.tail
      results := .resetDone .both :: s.results }) ∧
    (s.Presents (.reset .decOnly) → step s = .next { s with
      mode := .decoding, addr := 0x200, requests := s.requests.tail, results := .resetDone .decOnly :: s.results }) ∧
    (s.Presents (.reset .encOnly) → step s = .next { s with
      ecause := 0#2, eaddr := 0x200, requests := s.requests.tail, results := .resetDone .encOnly :: s.results })

/-- R161: nothing survives a reset, nothing but reset clears `DataMode` or a recorded fault, and every run begins with the reset of
its side. -/
def Obligations.OnlyResetClears : Prop :=
  (∀ (s t : State), step s = .next t →
    (s.Presents (.reset .both) → t.mode = .decoding ∧ t.addr = 0x200 ∧ t.ecause = 0#2 ∧ t.eaddr = 0x200) ∧
    (s.mode = .dataMode → t.mode = .decoding → s.Presents (.reset .both) ∨ s.Presents (.reset .decOnly)) ∧
    (s.ecause ≠ 0#2 → t.ecause = 0#2 → s.Presents (.reset .both) ∨ s.Presents (.reset .encOnly))) ∧
  (∀ (t : Table) (p : Params) (lines : List Line) (ws : List Word) (bs : List Byte), ∃ s0 : State,
    s0.mode = .decoding ∧ s0.addr = 0x200 ∧ s0.ecause = 0#2 ∧ s0.eaddr = 0x200 ∧
    assembleRun t p lines = assembleFrom t 0 lines s0 ∧ disassembleRun t p ws = disassembleFrom t ws s0 ∧
    disassembleBytes t p bs = match wordsOfBytes bs with
      | .ok us => (.ok (disassembleFrom t us s0).1, (disassembleFrom t us s0).2)
      | .error e => (.error e, s0))

/-! ## Invariants -/

/-- R12, R15, R24 (counters of `n` bits are D16): every step keeps the address counters even, at or above 0x200, and within a
realisation's range. -/
def Obligations.StepKeepsAddressesLegal : Prop :=
  ∀ (s t : State), s.AddressesLegal → step s = .next t → t.AddressesLegal

/-- The address invariant and the two history invariants hold after reset, and at the start of every run of a machine with at least
12 address bits. -/
def Obligations.InvariantsHoldAtReset : Prop :=
  State.reset.AddressesLegal ∧ State.reset.DecHistory ∧ State.reset.EncHistory ∧
  ∀ (p : Params), p.wf → (startState p).AddressesLegal ∧ (startState p).DecHistory ∧ (startState p).EncHistory

/-- R19: every step keeps the two sides' fields equal to what the results since their last reset say: ADDR counts words and each
entry carries its word's address, MODE is `DataMode` exactly when a self-jump was among them, EADDR counts emitted words, ECAUSE is
the code of the one error. -/
def Obligations.StepKeepsHistory : Prop :=
  (∀ (s t : State), s.DecHistory → step s = .next t → t.DecHistory) ∧
  (∀ (s t : State), s.EncHistory → step s = .next t → t.EncHistory)

/-! ## Runs -/

/-- R65, R169 (unbounded counters, D16, log 18): a run whose lines all encode gives their bytes in order and ends with ECAUSE 0 and
EADDR past them; else it is the error of the least failing line with its index, carries no bytes, and ends with that error's code
and EADDR at that line. -/
def Obligations.AssembleRunClosedForm : Prop :=
  ∀ (t : Table) (p : Params), p.addrw = none →
    (∀ (lines : List Line) (ws : List Word), lines.map (encodeLine t) = ws.map Except.ok →
      (assembleRun t p lines).1 = .ok (bytesOfWords ws) ∧ (assembleRun t p lines).2.ecause = 0#2 ∧
      (assembleRun t p lines).2.eaddr = 0x200 + 2 * lines.length) ∧
    (∀ (before after : List Line) (line : Line) (ws : List Word) (e : EncErr),
      before.map (encodeLine t) = ws.map Except.ok → encodeLine t line = .error e →
      (assembleRun t p (before ++ line :: after)).1 = .error (.fault e before.length line) ∧
      (assembleRun t p (before ++ line :: after)).2.ecause = errCode e ∧
      (assembleRun t p (before ++ line :: after)).2.eaddr = 0x200 + 2 * before.length)

/-- R27 (unbounded counters): the entry for word `k` is computed with ADDR 0x200 + 2k and with MODE as left by the words before it;
the word for line `k` is emitted after those before it and only if none of them faulted; nothing is reordered, merged, dropped or
duplicated. -/
def Obligations.RunsAreSequential : Prop :=
  ∀ (t : Table) (p : Params), p.addrw = none →
    (∀ (ws : List Word), (disassembleRun t p ws).1.length = ws.length) ∧
    (∀ (before after : List Word) (w : Word),
      let e := decodeEntry t (disassembleRun t p before).2.mode (0x200 + 2 * before.length) w
      (disassembleRun t p (before ++ w :: after)).1[before.length]? = some (e, render p.hexcase e) ∧
      (disassembleRun t p (before ++ w :: after)).1.take before.length = (disassembleRun t p before).1) ∧
    (∀ (before after : List Line) (line : Line) (bs : List Byte),
      (assembleRun t p (before ++ line :: after)).1 = .ok bs →
      bs.length = 2 * (before ++ line :: after).length ∧ (assembleRun t p before).1 = .ok (bs.take (2 * before.length)) ∧
      ∃ w, encodeLine t line = .ok w ∧ bs[2 * before.length]? = some (w.extractLsb' 8 8) ∧
        bs[2 * before.length + 1]? = some (w.extractLsb' 0 8))

/-- R19, R169 (unbounded counters): after a whole disassembly ADDR is 0x200 + 2m, and MODE is `DataMode` exactly when some word `j` is
`0x1000 | (0x200 + 2j)` with `0x200 + 2j <= 0xFFF`. -/
def Obligations.DataModeAfterARun : Prop :=
  ∀ (p : Params), p.addrw = none → ∀ (ws : List Word),
    (disassembleRun defaultTable p ws).2.addr = 0x200 + 2 * ws.length ∧
    ((disassembleRun defaultTable p ws).2.mode = .dataMode ↔
      ∃ j, j < ws.length ∧ 0x200 + 2 * j ≤ 0xFFF ∧ (ws.getD j 0#16).toNat = 0x1000 + (0x200 + 2 * j))

/-- R71's consequence: assembling the text lines of a disassembled image gives the image, over every well-formed table whose mnemonics
can be tokenised (log 17), with unbounded counters. -/
def Obligations.ReassemblingADisassemblyReturnsTheImage : Prop :=
  ∀ (t : Table), Table.WellFormed t → Table.Spellable t → ∀ (p : Params), p.addrw = none →
    ∀ (bs : List Byte), bs.length % 2 = 0 →
      ∃ rs s, disassembleBytes t p bs = (.ok rs, s) ∧
        (assembleRun t p (rs.map fun r => tokenize r.2)).1 = .ok bs

/-- The machine, given a whole image's words or a whole text's lines as its queue, runs to the state and answers of the block's
`DisassembleRun` and `AssembleRun` (R65, R70), when no word is refused and no line fails. -/
def Obligations.MachineRunsAreTheBlocksRuns : Prop :=
  (∀ (p : Params) (ws : List Word), (disassembleRun defaultTable p ws).1.length = ws.length →
    Sys2Proof.core.run ws.length { startState p with requests := ws.map Request.dec } =
        .next (disassembleRun defaultTable p ws).2 ∧
    (disassembleRun defaultTable p ws).2.results.reverse =
      (disassembleRun defaultTable p ws).1.map fun r => Result.decoded r.1 r.2) ∧
  (∀ (p : Params) (lines : List Line) (bs : List Byte), (assembleRun defaultTable p lines).1 = .ok bs →
    Sys2Proof.core.run lines.length { startState p with requests := lines.map Request.enc } =
        .next (assembleRun defaultTable p lines).2 ∧
    bs = (assembleRun defaultTable p lines).2.results.reverse.flatMap fun r =>
      match r with
      | .emitted hi lo => [hi, lo]
      | _ => [])

/-- R168 (D22; unbounded counters): in any interleaving of both sides' requests each side answers, and ends, as if only the requests
that concern it had been made. -/
def Obligations.InterleavingDoesNotMatter : Prop :=
  ∀ (p : Params) (rs : List Request), p.addrw = none →
    ∃ t d e, Sys2Proof.core.run rs.length { startState p with requests := rs } = .next t ∧
      Sys2Proof.core.run (rs.filter Request.forDec).length { startState p with requests := rs.filter Request.forDec } = .next d ∧
      Sys2Proof.core.run (rs.filter Request.forEnc).length { startState p with requests := rs.filter Request.forEnc } = .next e ∧
      t.mode = d.mode ∧ t.addr = d.addr ∧ t.results.filter Result.fromDec = d.results.filter Result.fromDec ∧
      t.ecause = e.ecause ∧ t.eaddr = e.eaddr ∧ t.results.filter Result.fromEnc = e.results.filter Result.fromEnc
end

