-- ==== Sys2Proof/Laws/Lookup.lean ====
section
/-! SUPPORT. The lookup by word and the packing of values, said once. -/

namespace Sys2Proof

/-- What `lookupByWord` finds is a row of the table that matches, and no matching row has more fixed bits. -/
theorem lookupByWord_some {t : Table} {w : Word} {f : Format} (h : lookupByWord t w = some f) :
    f ∈ t ∧ f.hits w = true ∧ ∀ g ∈ t, g.hits w = true → popcount g.mask ≤ popcount f.mask := by
  induction t generalizing f with
  | nil => cases h
  | cons a t ih =>
    unfold lookupByWord at h
    split at h
    · rename_i hn
      split at h
      · rename_i ha
        cases h
        refine ⟨by simp, ha, fun g hg hw => ?_⟩
        rcases List.mem_cons.1 hg with rfl | hg
        · exact le_rfl
        · exfalso
          revert hn hg
          clear ih ha
          induction t with
          | nil => intro _ hg; cases hg
          | cons b t ih2 =>
            intro hn hg
            unfold lookupByWord at hn
            split at hn
            · rename_i hn2
              split at hn
              · cases hn
              · rename_i hb
                rcases List.mem_cons.1 hg with rfl | hg
                · exact hb hw
                · exact ih2 (by simp [hg]) hn2 hg
            · split at hn <;> cases hn
      · cases h
    · rename_i g hg
      obtain ⟨h1, h2, h3⟩ := ih hg
      split at h
      · rename_i hc
        cases h
        simp only [Bool.and_eq_true, decide_eq_true_eq] at hc
        refine ⟨by simp, hc.1, fun k hk hw => ?_⟩
        rcases List.mem_cons.1 hk with rfl | hk
        · exact le_rfl
        · exact (h3 k hk hw).trans hc.2
      · rename_i hc
        cases h
        refine ⟨by simp [h1], h2, fun k hk hw => ?_⟩
        rcases List.mem_cons.1 hk with rfl | hk
        · simp only [Bool.and_eq_true, decide_eq_true_eq, not_and] at hc
          have := hc hw
          omega
        · exact h3 k hk hw

/-- Nothing is found exactly when no row matches (R39). -/
theorem lookupByWord_none {t : Table} {w : Word} : lookupByWord t w = none ↔ ∀ f ∈ t, f.hits w = false := by
  induction t with
  | nil => simp [lookupByWord]
  | cons a t ih =>
    unfold lookupByWord
    cases h : lookupByWord t w with
    | none =>
      have := ih.1 h
      cases ha : a.hits w <;> simp_all
    | some g =>
      have hg := lookupByWord_some h
      simp only [List.mem_cons, forall_eq_or_imp]
      constructor
      · intro hx; split at hx <;> cases hx
      · rintro ⟨_, h2⟩; simp [h2 g hg.1] at hg

/-- Packing succeeds exactly on values that fit, and ORs them in (R35). -/
theorem packVals_ok {vals : Vals} (p : Word) (h : ∀ v ∈ vals, v.2 < 2 ^ v.1.width) :
    packVals p vals = .ok (vals.foldl (fun w v => w ||| BitVec.ofNat 16 v.2 <<< v.1.offset) p) := by
  induction vals generalizing p with
  | nil => rfl
  | cons v vals ih =>
    have h1 := h v (by simp)
    have h2 : ¬2 ^ v.1.width ≤ v.2 := by omega
    simp only [packVals, h2, if_false, List.foldl_cons]
    exact ih _ fun u hu => h u (by simp [hu])

theorem packVals_overflow {vals : Vals} (p : Word) (h : ∃ v ∈ vals, 2 ^ v.1.width ≤ v.2) :
    packVals p vals = .error .fieldOverflow := by
  induction vals generalizing p with
  | nil => simp at h
  | cons v vals ih =>
    by_cases hv : 2 ^ v.1.width ≤ v.2
    · simp [packVals, hv]
    · simp only [packVals, hv, if_false]
      exact ih _ (by obtain ⟨u, hu, h2⟩ := h; rcases List.mem_cons.1 hu with rfl | hu; exacts [absurd h2 hv, ⟨u, hu, h2⟩])

/-- A field's value fits its width. -/
theorem extract_lt (f : Field) (w : Word) : f.extract w < 2 ^ f.width := by
  cases f <;> simp only [Field.extract, Field.width, Field.offset] <;>
    (rw [BitVec.toNat_and]; exact lt_of_le_of_lt Nat.and_le_right (by decide))

/-- Two rows that match one word agree where both are fixed (R34 WF6). -/
theorem hits_overlap {f g : Format} {w : Word} (h1 : f.hits w = true) (h2 : g.hits w = true) : wordOverlap f g = true := by
  simp only [Format.hits, wordOverlap, beq_iff_eq] at *
  rw [← h1, ← h2]
  apply BitVec.eq_of_getElem_eq
  intro i hi
  simp only [BitVec.getElem_and, BitVec.getElem_xor, BitVec.getElem_zero]
  cases w[i] <;> cases f.mask[i] <;> cases g.mask[i] <;> rfl

/-- A word some row matches decodes to that row's instruction (R66). -/
theorem decodeWord_of_row {w : Word} {f : Format} {i : Instr} (h : lookupByWord defaultTable w = some f)
    (hi : instrOf f.id (extractVals f.slots w) = some i) : decodeWord w = i := by
  unfold decodeWord; rw [h]; simp only [hi, Option.getD_some]

/-- A word no row matches decodes to raw data (R136). -/
theorem decodeWord_of_none {w : Word} (h : lookupByWord defaultTable w = none) :
    decodeWord w = .db (highByte w).toNat (lowByte w).toNat := by
  unfold decodeWord; rw [h]

/-- The two bytes of a word as numbers (R21). -/
theorem bytes_toNat (w : Word) : (highByte w).toNat = w.toNat / 256 ∧ (lowByte w).toNat = w.toNat % 256 := by
  constructor
  · simp [highByte, Nat.shiftRight_eq_div_pow]; have := w.isLt; omega
  · simp [lowByte]

theorem bytesOfWords_length (ws : List Word) : (bytesOfWords ws).length = 2 * ws.length := by
  induction ws with
  | nil => rfl
  | cons w ws ih => simp [bytesOfWords] at *; omega

theorem bytesOfWords_append (us ws : List Word) : bytesOfWords (us ++ ws) = bytesOfWords us ++ bytesOfWords ws := by
  simp [bytesOfWords]

end Sys2Proof
end

