-- ==== Sys2Proof/Laws/State.lean ====
section
/-! SUPPORT. One lemma per field per update of State, so that no later proof unfolds a record update. -/

namespace Sys2Proof.Machine

@[simp] theorem answer_mode (r : Result) (s : State) : (answer r s).mode = s.mode := rfl
@[simp] theorem answer_addr (r : Result) (s : State) : (answer r s).addr = s.addr := rfl
@[simp] theorem answer_ecause (r : Result) (s : State) : (answer r s).ecause = s.ecause := rfl
@[simp] theorem answer_eaddr (r : Result) (s : State) : (answer r s).eaddr = s.eaddr := rfl
@[simp] theorem answer_params (r : Result) (s : State) : (answer r s).params = s.params := rfl
@[simp] theorem answer_requests (r : Result) (s : State) : (answer r s).requests = s.requests.tail := rfl
@[simp] theorem answer_results (r : Result) (s : State) : (answer r s).results = r :: s.results := rfl

@[simp] theorem refuseRequest_mode (rs : List Reason) (s : State) : (refuseRequest rs s).mode = s.mode := rfl
@[simp] theorem refuseRequest_addr (rs : List Reason) (s : State) : (refuseRequest rs s).addr = s.addr := rfl
@[simp] theorem refuseRequest_ecause (rs : List Reason) (s : State) : (refuseRequest rs s).ecause = s.ecause := rfl
@[simp] theorem refuseRequest_eaddr (rs : List Reason) (s : State) : (refuseRequest rs s).eaddr = s.eaddr := rfl
@[simp] theorem refuseRequest_params (rs : List Reason) (s : State) : (refuseRequest rs s).params = s.params := rfl
@[simp] theorem refuseRequest_requests (rs : List Reason) (s : State) : (refuseRequest rs s).requests = s.requests.tail := rfl
@[simp] theorem refuseRequest_results (rs : List Reason) (s : State) : (refuseRequest rs s).results = .refused rs :: s.results := rfl

@[simp] theorem deliverEntry_mode (e : Entry) (s : State) : (deliverEntry e s).mode = nextMode s.mode s.addr e := rfl
@[simp] theorem deliverEntry_addr (e : Entry) (s : State) : (deliverEntry e s).addr = s.addr + stride := rfl
@[simp] theorem deliverEntry_ecause (e : Entry) (s : State) : (deliverEntry e s).ecause = s.ecause := rfl
@[simp] theorem deliverEntry_eaddr (e : Entry) (s : State) : (deliverEntry e s).eaddr = s.eaddr := rfl
@[simp] theorem deliverEntry_params (e : Entry) (s : State) : (deliverEntry e s).params = s.params := rfl
@[simp] theorem deliverEntry_requests (e : Entry) (s : State) : (deliverEntry e s).requests = s.requests.tail := rfl
@[simp] theorem deliverEntry_results (e : Entry) (s : State) : (deliverEntry e s).results = .decoded e (render s.params.hexcase e) :: s.results := rfl

@[simp] theorem emitWord_mode (w : Word) (s : State) : (emitWord w s).mode = s.mode := rfl
@[simp] theorem emitWord_addr (w : Word) (s : State) : (emitWord w s).addr = s.addr := rfl
@[simp] theorem emitWord_ecause (w : Word) (s : State) : (emitWord w s).ecause = s.ecause := rfl
@[simp] theorem emitWord_eaddr (w : Word) (s : State) : (emitWord w s).eaddr = s.eaddr + stride := rfl
@[simp] theorem emitWord_params (w : Word) (s : State) : (emitWord w s).params = s.params := rfl
@[simp] theorem emitWord_requests (w : Word) (s : State) : (emitWord w s).requests = s.requests.tail := rfl
@[simp] theorem emitWord_results (w : Word) (s : State) : (emitWord w s).results = .emitted (highByte w) (lowByte w) :: s.results := rfl

@[simp] theorem takeError_mode (e : EncErr) (line : Line) (s : State) : (takeError e line s).mode = s.mode := rfl
@[simp] theorem takeError_addr (e : EncErr) (line : Line) (s : State) : (takeError e line s).addr = s.addr := rfl
@[simp] theorem takeError_ecause (e : EncErr) (line : Line) (s : State) : (takeError e line s).ecause = errCode e := rfl
@[simp] theorem takeError_eaddr (e : EncErr) (line : Line) (s : State) : (takeError e line s).eaddr = s.eaddr := rfl
@[simp] theorem takeError_params (e : EncErr) (line : Line) (s : State) : (takeError e line s).params = s.params := rfl
@[simp] theorem takeError_requests (e : EncErr) (line : Line) (s : State) : (takeError e line s).requests = s.requests.tail := rfl
@[simp] theorem takeError_results (e : EncErr) (line : Line) (s : State) : (takeError e line s).results = .error e line :: s.results := rfl

@[simp] theorem resetDec_mode (s : State) : (resetDec s).mode = .decoding := rfl
@[simp] theorem resetDec_addr (s : State) : (resetDec s).addr = loadAddr := rfl
@[simp] theorem resetDec_ecause (s : State) : (resetDec s).ecause = s.ecause := rfl
@[simp] theorem resetDec_eaddr (s : State) : (resetDec s).eaddr = s.eaddr := rfl
@[simp] theorem resetDec_params (s : State) : (resetDec s).params = s.params := rfl
@[simp] theorem resetDec_requests (s : State) : (resetDec s).requests = s.requests := rfl
@[simp] theorem resetDec_results (s : State) : (resetDec s).results = s.results := rfl

@[simp] theorem resetEnc_mode (s : State) : (resetEnc s).mode = s.mode := rfl
@[simp] theorem resetEnc_addr (s : State) : (resetEnc s).addr = s.addr := rfl
@[simp] theorem resetEnc_ecause (s : State) : (resetEnc s).ecause = 0#2 := rfl
@[simp] theorem resetEnc_eaddr (s : State) : (resetEnc s).eaddr = loadAddr := rfl
@[simp] theorem resetEnc_params (s : State) : (resetEnc s).params = s.params := rfl
@[simp] theorem resetEnc_requests (s : State) : (resetEnc s).requests = s.requests := rfl
@[simp] theorem resetEnc_results (s : State) : (resetEnc s).results = s.results := rfl

@[simp] theorem withFetchWord_mode (s : State) (nbits w : Nat) : (s.withFetchWord nbits w).mode = s.mode := rfl
@[simp] theorem withFetchWord_addr (s : State) (nbits w : Nat) : (s.withFetchWord nbits w).addr = s.addr := rfl
@[simp] theorem withFetchWord_ecause (s : State) (nbits w : Nat) : (s.withFetchWord nbits w).ecause = s.ecause := rfl
@[simp] theorem withFetchWord_eaddr (s : State) (nbits w : Nat) : (s.withFetchWord nbits w).eaddr = s.eaddr := rfl
@[simp] theorem withFetchWord_params (s : State) (nbits w : Nat) : (s.withFetchWord nbits w).params = s.params := rfl
@[simp] theorem withFetchWord_requests (s : State) (nbits w : Nat) : (s.withFetchWord nbits w).requests = .dec (BitVec.ofNat 16 (w % 2 ^ nbits)) :: s.requests := rfl
@[simp] theorem withFetchWord_results (s : State) (nbits w : Nat) : (s.withFetchWord nbits w).results = s.results := rfl

@[simp] theorem startState_mode (p : Params) : (startState p).mode = .decoding := rfl
@[simp] theorem startState_addr (p : Params) : (startState p).addr = loadAddr := rfl
@[simp] theorem startState_ecause (p : Params) : (startState p).ecause = 0#2 := rfl
@[simp] theorem startState_eaddr (p : Params) : (startState p).eaddr = loadAddr := rfl
@[simp] theorem startState_params (p : Params) : (startState p).params = p := rfl
@[simp] theorem startState_requests (p : Params) : (startState p).requests = [] := rfl
@[simp] theorem startState_results (p : Params) : (startState p).results = [] := rfl

@[simp] theorem afterDec_mode (s : State) (m : Mode) (e : Entry) (x : Text) : (s.afterDec m e x).mode = m := rfl
@[simp] theorem afterDec_addr (s : State) (m : Mode) (e : Entry) (x : Text) : (s.afterDec m e x).addr = s.addr + 2 := rfl
@[simp] theorem afterDec_ecause (s : State) (m : Mode) (e : Entry) (x : Text) : (s.afterDec m e x).ecause = s.ecause := rfl
@[simp] theorem afterDec_eaddr (s : State) (m : Mode) (e : Entry) (x : Text) : (s.afterDec m e x).eaddr = s.eaddr := rfl
@[simp] theorem afterDec_params (s : State) (m : Mode) (e : Entry) (x : Text) : (s.afterDec m e x).params = s.params := rfl
@[simp] theorem afterDec_requests (s : State) (m : Mode) (e : Entry) (x : Text) : (s.afterDec m e x).requests = s.requests.tail := rfl
@[simp] theorem afterDec_results (s : State) (m : Mode) (e : Entry) (x : Text) : (s.afterDec m e x).results = .decoded e x :: s.results := rfl

@[simp] theorem afterEnc_mode (s : State) (hi lo : Byte) : (s.afterEnc hi lo).mode = s.mode := rfl
@[simp] theorem afterEnc_addr (s : State) (hi lo : Byte) : (s.afterEnc hi lo).addr = s.addr := rfl
@[simp] theorem afterEnc_ecause (s : State) (hi lo : Byte) : (s.afterEnc hi lo).ecause = s.ecause := rfl
@[simp] theorem afterEnc_eaddr (s : State) (hi lo : Byte) : (s.afterEnc hi lo).eaddr = s.eaddr + 2 := rfl
@[simp] theorem afterEnc_params (s : State) (hi lo : Byte) : (s.afterEnc hi lo).params = s.params := rfl
@[simp] theorem afterEnc_requests (s : State) (hi lo : Byte) : (s.afterEnc hi lo).requests = s.requests.tail := rfl
@[simp] theorem afterEnc_results (s : State) (hi lo : Byte) : (s.afterEnc hi lo).results = .emitted hi lo :: s.results := rfl

@[simp] theorem afterError_mode (s : State) (c : BitVec 2) (e : EncErr) (line : Line) : (s.afterError c e line).mode = s.mode := rfl
@[simp] theorem afterError_addr (s : State) (c : BitVec 2) (e : EncErr) (line : Line) : (s.afterError c e line).addr = s.addr := rfl
@[simp] theorem afterError_ecause (s : State) (c : BitVec 2) (e : EncErr) (line : Line) : (s.afterError c e line).ecause = c := rfl
@[simp] theorem afterError_eaddr (s : State) (c : BitVec 2) (e : EncErr) (line : Line) : (s.afterError c e line).eaddr = s.eaddr := rfl
@[simp] theorem afterError_params (s : State) (c : BitVec 2) (e : EncErr) (line : Line) : (s.afterError c e line).params = s.params := rfl
@[simp] theorem afterError_requests (s : State) (c : BitVec 2) (e : EncErr) (line : Line) : (s.afterError c e line).requests = s.requests.tail := rfl
@[simp] theorem afterError_results (s : State) (c : BitVec 2) (e : EncErr) (line : Line) : (s.afterError c e line).results = .error e line :: s.results := rfl

@[simp] theorem afterRefusal_mode (s : State) (rs : List Reason) : (s.afterRefusal rs).mode = s.mode := rfl
@[simp] theorem afterRefusal_addr (s : State) (rs : List Reason) : (s.afterRefusal rs).addr = s.addr := rfl
@[simp] theorem afterRefusal_ecause (s : State) (rs : List Reason) : (s.afterRefusal rs).ecause = s.ecause := rfl
@[simp] theorem afterRefusal_eaddr (s : State) (rs : List Reason) : (s.afterRefusal rs).eaddr = s.eaddr := rfl
@[simp] theorem afterRefusal_params (s : State) (rs : List Reason) : (s.afterRefusal rs).params = s.params := rfl
@[simp] theorem afterRefusal_requests (s : State) (rs : List Reason) : (s.afterRefusal rs).requests = s.requests.tail := rfl
@[simp] theorem afterRefusal_results (s : State) (rs : List Reason) : (s.afterRefusal rs).results = .refused rs :: s.results := rfl

end Sys2Proof.Machine
end

