-- ==== Sys2Proof/Laws/Ops.lean ====
section
/-! SUPPORT. What each shared operation can do, said once. -/

namespace Sys2Proof.Machine

theorem hasRoom_unbounded {p : Params} (h : p.addrw = none) (a : Nat) : hasRoom p a = true := by
  simp [hasRoom, h]

theorem hasRoom_iff (p : Params) (a : Nat) : hasRoom p a = true ↔ ∀ n, p.addrw = some n → a + 4 ≤ 2 ^ n := by
  cases h : p.addrw <;> simp [hasRoom, h]

/-- A performed `DecStep` (R69), with its next state written out. -/
theorem decCommit_ready {s : State} (h : s.DecReady) (e : Entry) :
    decCommit e s = s.afterDec (nextMode s.mode s.addr e) e (render s.params.hexcase e) := by
  simp [decCommit, decRefusals, h]; rfl

/-- A refused `DecStep` (R154(b)). -/
theorem decCommit_notReady {s : State} (h : ¬s.DecReady) (e : Entry) : decCommit e s = s.afterRefusal [.addressRange] := by
  simp [decCommit, decRefusals, h]; rfl

theorem encRefusals_ready {s : State} (h : s.EncReady) : encRefusals s = [] := by
  simp [encRefusals, h.1, h.2]

theorem encRefusals_notReady {s : State} (h : ¬s.EncReady) : ∃ a as, encRefusals s = a :: as := by
  unfold encRefusals
  by_cases h1 : s.ecause = 0#2
  · have h2 : hasRoom s.params s.eaddr = false := by
      by_contra h3; exact h ⟨h1, by simpa using h3⟩
    exact ⟨.addressRange, [], by simp [h1, h2]⟩
  · exact ⟨.runAborted, _, by rw [if_neg h1]; rfl⟩

/-- A line that encodes is emitted (R64). -/
theorem encCommit_ok {s : State} (h : s.EncReady) (line : Line) (w : Word) :
    encCommit line (.ok w) s = s.afterEnc (highByte w) (lowByte w) := by
  simp [encCommit, encRefusals_ready h]; rfl

/-- A line that does not encode takes the error (R147). -/
theorem encCommit_error {s : State} (h : s.EncReady) (line : Line) (e : EncErr) :
    encCommit line (.error e) s = s.afterError (errCode e) e line := by
  simp [encCommit, encRefusals_ready h]; rfl

/-- A refused `EncStep` (R154) looks at no line. -/
theorem encCommit_notReady {s : State} (h : ¬s.EncReady) (line : Line) (r : Except EncErr Word) :
    encCommit line r s = s.afterRefusal (encRefusals s) := by
  obtain ⟨a, as, h2⟩ := encRefusals_notReady h
  simp [encCommit, h2]; rfl

/-- The entry a row whose word is `w` delivers, by MODE (R66, R136). -/
def rowEntry (f : Format) (vals : Vals) (w : Word) (s : State) : Entry :=
  match s.mode with
  | .decoding => .code s.addr f vals
  | .dataMode => .data s.addr w

theorem perform_dec {f : Format} {vals : Vals} {s : State} {v : Word} (h : s.Presents (.dec v)) {w : Word}
    (hw : packVals f.pattern vals = .ok w) : perform f vals s = .next (decCommit (rowEntry f vals w s) s) := by
  obtain ⟨rest, h2⟩ : ∃ rest, s.requests = .dec v :: rest := by
    unfold State.Presents at h; cases hr : s.requests <;> simp_all
  cases hm : s.mode <;> simp [perform, h2, hw, rowEntry, hm]

theorem perform_enc {s : State} {line : Line} (h : s.Presents (.enc line)) (f : Format) (vals : Vals) :
    perform f vals s = .next (encCommit line (packVals f.pattern vals) s) := by
  obtain ⟨rest, h2⟩ : ∃ rest, s.requests = .enc line :: rest := by
    unfold State.Presents at h; cases hr : s.requests <;> simp_all
  simp [perform, h2]

theorem performData_dec {hh ll : Nat} {s : State} {v : Word} (h : s.Presents (.dec v)) {w : Word}
    (hw : packDb hh ll = .ok w) : performData hh ll s = .next (decCommit (.data s.addr w) s) := by
  obtain ⟨rest, h2⟩ : ∃ rest, s.requests = .dec v :: rest := by
    unfold State.Presents at h; cases hr : s.requests <;> simp_all
  simp [performData, h2, hw]

theorem performData_enc {s : State} {line : Line} (h : s.Presents (.enc line)) (hh ll : Nat) :
    performData hh ll s = .next (encCommit line (packDb hh ll) s) := by
  obtain ⟨rest, h2⟩ : ∃ rest, s.requests = .enc line :: rest := by
    unfold State.Presents at h; cases hr : s.requests <;> simp_all
  simp [performData, h2]

/-- Everything a table row can do when it goes on: one entry delivered, or one line answered. -/
theorem perform_next {f : Format} {vals : Vals} {s t : State} (h : perform f vals s = .next t) :
    (∃ v w, s.Presents (.dec v) ∧ packVals f.pattern vals = .ok w ∧ t = decCommit (rowEntry f vals w s) s) ∨
    (∃ line, s.Presents (.enc line) ∧ t = encCommit line (packVals f.pattern vals) s) := by
  unfold perform at h
  split at h
  · rename_i v rest hr
    split at h
    · rename_i w hw
      refine .inl ⟨v, w, by simp [State.Presents, hr], hw, ?_⟩
      cases hm : s.mode <;> simp_all [rowEntry]
    · cases h
  · rename_i line rest hr
    exact .inr ⟨line, by simp [State.Presents, hr], by simpa using h.symm⟩
  · cases h
  · cases h

/-- Everything raw data can do when it goes on. -/
theorem performData_next {hh ll : Nat} {s t : State} (h : performData hh ll s = .next t) :
    (∃ v w, s.Presents (.dec v) ∧ packDb hh ll = .ok w ∧ t = decCommit (.data s.addr w) s) ∨
    (∃ line, s.Presents (.enc line) ∧ t = encCommit line (packDb hh ll) s) := by
  unfold performData at h
  split at h
  · rename_i v rest hr
    split at h
    · rename_i w hw
      exact .inl ⟨v, w, by simp [State.Presents, hr], hw, by simpa using h.symm⟩
    · cases h
  · rename_i line rest hr
    exact .inr ⟨line, by simp [State.Presents, hr], by simpa using h.symm⟩
  · cases h
  · cases h

theorem decCommit_cases (e : Entry) (s : State) :
    (s.DecReady ∧ decCommit e s = s.afterDec (nextMode s.mode s.addr e) e (render s.params.hexcase e)) ∨
    (¬s.DecReady ∧ decCommit e s = s.afterRefusal [.addressRange]) := by
  by_cases h : s.DecReady
  · exact .inl ⟨h, decCommit_ready h e⟩
  · exact .inr ⟨h, decCommit_notReady h e⟩

theorem encCommit_cases (line : Line) (r : Except EncErr Word) (s : State) :
    (s.EncReady ∧ ∃ w, r = .ok w ∧ encCommit line r s = s.afterEnc (highByte w) (lowByte w)) ∨
    (s.EncReady ∧ ∃ e, r = .error e ∧ encCommit line r s = s.afterError (errCode e) e line) ∨
    (¬s.EncReady ∧ encCommit line r s = s.afterRefusal (encRefusals s)) := by
  by_cases h : s.EncReady
  · cases r with
    | ok w => exact .inl ⟨h, w, rfl, encCommit_ok h line w⟩
    | error e => exact .inr (.inl ⟨h, e, rfl, encCommit_error h line e⟩)
  · exact .inr (.inr ⟨h, encCommit_notReady h line r⟩)

/-- The self-jump is the only thing that changes MODE, and only from `Decoding` (R13, R69). -/
theorem nextMode_dataMode (a : Nat) (e : Entry) : nextMode .dataMode a e = .dataMode := rfl

theorem nextMode_decoding (a : Nat) (e : Entry) : nextMode .decoding a e = .dataMode ↔ isSelfJump a e = true := by
  by_cases h : isSelfJump a e = true <;> simp [nextMode, h]

/-- Every encoder error has a code other than 0 (R140). -/
theorem errCode_ne_zero (e : EncErr) : errCode e ≠ 0#2 := by cases e <;> decide

theorem errCode_injective {d e : EncErr} (h : errCode d = errCode e) : d = e := by
  revert h; cases d <;> cases e <;> decide

end Sys2Proof.Machine
end

