-- ==== Sys2Proof/Laws/PerInstr.lean ====
section
/-! SUPPORT. Facts about each instruction as syntax, one lemma per constructor: its row, its values, its word. -/

namespace Sys2Proof.Laws

/-- The row of an instruction and the values its operands bind; none for raw data, which has no row (R135). -/
def formOf : Instr → Option (Format × Vals)
  | .cls => some (rowCls, [])
  | .ret => some (rowRet, [])
  | .sysNnn nnn => some (rowSysNnn, [(.nnn, nnn)])
  | .jpNnn nnn => some (rowJpNnn, [(.nnn, nnn)])
  | .callNnn nnn => some (rowCallNnn, [(.nnn, nnn)])
  | .seXkk x kk => some (rowSeXkk, [(.x, x.toNat), (.kk, kk)])
  | .sneXkk x kk => some (rowSneXkk, [(.x, x.toNat), (.kk, kk)])
  | .seXy x y => some (rowSeXy, [(.x, x.toNat), (.y, y.toNat)])
  | .ldXkk x kk => some (rowLdXkk, [(.x, x.toNat), (.kk, kk)])
  | .addXkk x kk => some (rowAddXkk, [(.x, x.toNat), (.kk, kk)])
  | .ldXy x y => some (rowLdXy, [(.x, x.toNat), (.y, y.toNat)])
  | .orXy x y => some (rowOrXy, [(.x, x.toNat), (.y, y.toNat)])
  | .andXy x y => some (rowAndXy, [(.x, x.toNat), (.y, y.toNat)])
  | .xorXy x y => some (rowXorXy, [(.x, x.toNat), (.y, y.toNat)])
  | .addXy x y => some (rowAddXy, [(.x, x.toNat), (.y, y.toNat)])
  | .subXy x y => some (rowSubXy, [(.x, x.toNat), (.y, y.toNat)])
  | .shrXy x y => some (rowShrXy, [(.x, x.toNat), (.y, y.toNat)])
  | .subnXy x y => some (rowSubnXy, [(.x, x.toNat), (.y, y.toNat)])
  | .shlXy x y => some (rowShlXy, [(.x, x.toNat), (.y, y.toNat)])
  | .sneXy x y => some (rowSneXy, [(.x, x.toNat), (.y, y.toNat)])
  | .ldINnn nnn => some (rowLdINnn, [(.nnn, nnn)])
  | .jpV0Nnn nnn => some (rowJpV0Nnn, [(.nnn, nnn)])
  | .rndXkk x kk => some (rowRndXkk, [(.x, x.toNat), (.kk, kk)])
  | .drwXyn x y n => some (rowDrwXyn, [(.x, x.toNat), (.y, y.toNat), (.n, n)])
  | .skpX x => some (rowSkpX, [(.x, x.toNat)])
  | .sknpX x => some (rowSknpX, [(.x, x.toNat)])
  | .ldXDt x => some (rowLdXDt, [(.x, x.toNat)])
  | .ldXK x => some (rowLdXK, [(.x, x.toNat)])
  | .ldDtX x => some (rowLdDtX, [(.x, x.toNat)])
  | .ldStX x => some (rowLdStX, [(.x, x.toNat)])
  | .addIX x => some (rowAddIX, [(.x, x.toNat)])
  | .ldFX x => some (rowLdFX, [(.x, x.toNat)])
  | .ldBX x => some (rowLdBX, [(.x, x.toNat)])
  | .ldIndX x => some (rowLdIndX, [(.x, x.toNat)])
  | .ldXInd x => some (rowLdXInd, [(.x, x.toNat)])
  | .db _ _ => none

/-- The values bound to a field, one entry at a time. -/
theorem valueOf_cons (f g : Field) (v : Nat) (vals : Vals) :
    valueOf ((g, v) :: vals) f = if f = g then v else valueOf vals f := by
  by_cases h : f = g
  · simp [valueOf, h]
  · have : (f == g) = false := by simpa using h
    simp [valueOf, List.lookup, this, h]

theorem pack_nnn (p : Word) (v : Nat) (h : v < 0x1000) : packVals p [(.nnn, v)] = .ok (p ||| placeLow v) := by
  rw [packVals_ok _ (by simp [Field.width, h])]
  simp [Field.offset, placeLow]

theorem pack_x (p : Word) (x : Nibble) : packVals p [(.x, x.toNat)] = .ok (p ||| placeX x) := by
  rw [packVals_ok _ (by simpa [Field.width] using x.isLt)]
  simp [Field.offset, placeX]

theorem pack_xkk (p : Word) (x : Nibble) (v : Nat) (h : v < 0x100) :
    packVals p [(.x, x.toNat), (.kk, v)] = .ok (p ||| placeX x ||| placeLow v) := by
  rw [packVals_ok _ (by simpa [Field.width, h] using x.isLt)]
  simp [Field.offset, placeX, placeLow]

theorem pack_xy (p : Word) (x y : Nibble) :
    packVals p [(.x, x.toNat), (.y, y.toNat)] = .ok (p ||| placeX x ||| placeY y) := by
  rw [packVals_ok _ (by simpa [Field.width] using ⟨x.isLt, y.isLt⟩)]
  simp [Field.offset, placeX, placeY]

theorem pack_xyn (p : Word) (x y : Nibble) (v : Nat) (h : v < 0x10) :
    packVals p [(.x, x.toNat), (.y, y.toNat), (.n, v)] = .ok (p ||| placeX x ||| placeY y ||| placeLow v) := by
  rw [packVals_ok _ (by simpa [Field.width, h] using ⟨x.isLt, y.isLt⟩)]
  simp [Field.offset, placeX, placeY, placeLow]

/-- R135: raw data packs its two bytes, the first one high. -/
theorem pack_db (hh ll : Nat) (h : (Instr.db hh ll).WellFormed) : Machine.packDb hh ll = .ok (encode (.db hh ll)) := by
  simp only [Instr.WellFormed, Instr.fits, byteFits, Bool.and_eq_true, decide_eq_true_eq] at h
  have hc : ¬(0x100 ≤ hh ∨ 0x100 ≤ ll) := by omega
  simp [Machine.packDb, hc, encode, placeLow]

/-- R33, R35, R100 to R134: the row's pattern with the operands in their fields is the word `encode` writes from the row's Encode
clause, and the row's name with those values is the instruction again. -/
def EncodePacksRow.Statement (i : Instr) : Prop :=
  ∀ f vals, formOf i = some (f, vals) →
    f ∈ defaultTable ∧ vals.map Prod.fst = boundFields f.slots ∧ instrOf f.id vals = some i ∧
    (i.WellFormed → packVals f.pattern vals = .ok (encode i))

theorem EncodePacksRow.cls : EncodePacksRow.Statement (.cls) := by
  intro f vals h0
  obtain ⟨rfl, rfl⟩ : rowCls = f ∧ [] = vals := by simpa [formOf] using h0
  exact ⟨by decide, rfl, rfl, fun _ => rfl⟩

theorem EncodePacksRow.ret : EncodePacksRow.Statement (.ret) := by
  intro f vals h0
  obtain ⟨rfl, rfl⟩ : rowRet = f ∧ [] = vals := by simpa [formOf] using h0
  exact ⟨by decide, rfl, rfl, fun _ => rfl⟩

theorem EncodePacksRow.sysNnn (nnn : Nat) : EncodePacksRow.Statement (.sysNnn nnn) := by
  intro f vals h0
  obtain ⟨rfl, rfl⟩ : rowSysNnn = f ∧ [(.nnn, nnn)] = vals := by simpa [formOf] using h0
  exact ⟨by decide, rfl, rfl, fun h => pack_nnn _ nnn (by simpa [Instr.WellFormed, Instr.fits, addressFits] using h)⟩

theorem EncodePacksRow.jpNnn (nnn : Nat) : EncodePacksRow.Statement (.jpNnn nnn) := by
  intro f vals h0
  obtain ⟨rfl, rfl⟩ : rowJpNnn = f ∧ [(.nnn, nnn)] = vals := by simpa [formOf] using h0
  exact ⟨by decide, rfl, rfl, fun h => pack_nnn _ nnn (by simpa [Instr.WellFormed, Instr.fits, addressFits] using h)⟩

theorem EncodePacksRow.callNnn (nnn : Nat) : EncodePacksRow.Statement (.callNnn nnn) := by
  intro f vals h0
  obtain ⟨rfl, rfl⟩ : rowCallNnn = f ∧ [(.nnn, nnn)] = vals := by simpa [formOf] using h0
  exact ⟨by decide, rfl, rfl, fun h => pack_nnn _ nnn (by simpa [Instr.WellFormed, Instr.fits, addressFits] using h)⟩

theorem EncodePacksRow.seXkk (x : Nibble) (kk : Nat) : EncodePacksRow.Statement (.seXkk x kk) := by
  intro f vals h0
  obtain ⟨rfl, rfl⟩ : rowSeXkk = f ∧ [(.x, x.toNat), (.kk, kk)] = vals := by simpa [formOf] using h0
  exact ⟨by decide, rfl, by simp [instrOf, rowSeXkk, valueOf_cons], fun h => pack_xkk _ x kk (by simpa [Instr.WellFormed, Instr.fits, byteFits] using h)⟩

theorem EncodePacksRow.sneXkk (x : Nibble) (kk : Nat) : EncodePacksRow.Statement (.sneXkk x kk) := by
  intro f vals h0
  obtain ⟨rfl, rfl⟩ : rowSneXkk = f ∧ [(.x, x.toNat), (.kk, kk)] = vals := by simpa [formOf] using h0
  exact ⟨by decide, rfl, by simp [instrOf, rowSneXkk, valueOf_cons], fun h => pack_xkk _ x kk (by simpa [Instr.WellFormed, Instr.fits, byteFits] using h)⟩

theorem EncodePacksRow.seXy (x : Nibble) (y : Nibble) : EncodePacksRow.Statement (.seXy x y) := by
  intro f vals h0
  obtain ⟨rfl, rfl⟩ : rowSeXy = f ∧ [(.x, x.toNat), (.y, y.toNat)] = vals := by simpa [formOf] using h0
  exact ⟨by decide, rfl, by simp [instrOf, rowSeXy, valueOf_cons], fun _ => pack_xy _ x y⟩

theorem EncodePacksRow.ldXkk (x : Nibble) (kk : Nat) : EncodePacksRow.Statement (.ldXkk x kk) := by
  intro f vals h0
  obtain ⟨rfl, rfl⟩ : rowLdXkk = f ∧ [(.x, x.toNat), (.kk, kk)] = vals := by simpa [formOf] using h0
  exact ⟨by decide, rfl, by simp [instrOf, rowLdXkk, valueOf_cons], fun h => pack_xkk _ x kk (by simpa [Instr.WellFormed, Instr.fits, byteFits] using h)⟩

theorem EncodePacksRow.addXkk (x : Nibble) (kk : Nat) : EncodePacksRow.Statement (.addXkk x kk) := by
  intro f vals h0
  obtain ⟨rfl, rfl⟩ : rowAddXkk = f ∧ [(.x, x.toNat), (.kk, kk)] = vals := by simpa [formOf] using h0
  exact ⟨by decide, rfl, by simp [instrOf, rowAddXkk, valueOf_cons], fun h => pack_xkk _ x kk (by simpa [Instr.WellFormed, Instr.fits, byteFits] using h)⟩

theorem EncodePacksRow.ldXy (x : Nibble) (y : Nibble) : EncodePacksRow.Statement (.ldXy x y) := by
  intro f vals h0
  obtain ⟨rfl, rfl⟩ : rowLdXy = f ∧ [(.x, x.toNat), (.y, y.toNat)] = vals := by simpa [formOf] using h0
  exact ⟨by decide, rfl, by simp [instrOf, rowLdXy, valueOf_cons], fun _ => pack_xy _ x y⟩

theorem EncodePacksRow.orXy (x : Nibble) (y : Nibble) : EncodePacksRow.Statement (.orXy x y) := by
  intro f vals h0
  obtain ⟨rfl, rfl⟩ : rowOrXy = f ∧ [(.x, x.toNat), (.y, y.toNat)] = vals := by simpa [formOf] using h0
  exact ⟨by decide, rfl, by simp [instrOf, rowOrXy, valueOf_cons], fun _ => pack_xy _ x y⟩

theorem EncodePacksRow.andXy (x : Nibble) (y : Nibble) : EncodePacksRow.Statement (.andXy x y) := by
  intro f vals h0
  obtain ⟨rfl, rfl⟩ : rowAndXy = f ∧ [(.x, x.toNat), (.y, y.toNat)] = vals := by simpa [formOf] using h0
  exact ⟨by decide, rfl, by simp [instrOf, rowAndXy, valueOf_cons], fun _ => pack_xy _ x y⟩

theorem EncodePacksRow.xorXy (x : Nibble) (y : Nibble) : EncodePacksRow.Statement (.xorXy x y) := by
  intro f vals h0
  obtain ⟨rfl, rfl⟩ : rowXorXy = f ∧ [(.x, x.toNat), (.y, y.toNat)] = vals := by simpa [formOf] using h0
  exact ⟨by decide, rfl, by simp [instrOf, rowXorXy, valueOf_cons], fun _ => pack_xy _ x y⟩

theorem EncodePacksRow.addXy (x : Nibble) (y : Nibble) : EncodePacksRow.Statement (.addXy x y) := by
  intro f vals h0
  obtain ⟨rfl, rfl⟩ : rowAddXy = f ∧ [(.x, x.toNat), (.y, y.toNat)] = vals := by simpa [formOf] using h0
  exact ⟨by decide, rfl, by simp [instrOf, rowAddXy, valueOf_cons], fun _ => pack_xy _ x y⟩

theorem EncodePacksRow.subXy (x : Nibble) (y : Nibble) : EncodePacksRow.Statement (.subXy x y) := by
  intro f vals h0
  obtain ⟨rfl, rfl⟩ : rowSubXy = f ∧ [(.x, x.toNat), (.y, y.toNat)] = vals := by simpa [formOf] using h0
  exact ⟨by decide, rfl, by simp [instrOf, rowSubXy, valueOf_cons], fun _ => pack_xy _ x y⟩

theorem EncodePacksRow.shrXy (x : Nibble) (y : Nibble) : EncodePacksRow.Statement (.shrXy x y) := by
  intro f vals h0
  obtain ⟨rfl, rfl⟩ : rowShrXy = f ∧ [(.x, x.toNat), (.y, y.toNat)] = vals := by simpa [formOf] using h0
  exact ⟨by decide, rfl, by simp [instrOf, rowShrXy, valueOf_cons], fun _ => pack_xy _ x y⟩

theorem EncodePacksRow.subnXy (x : Nibble) (y : Nibble) : EncodePacksRow.Statement (.subnXy x y) := by
  intro f vals h0
  obtain ⟨rfl, rfl⟩ : rowSubnXy = f ∧ [(.x, x.toNat), (.y, y.toNat)] = vals := by simpa [formOf] using h0
  exact ⟨by decide, rfl, by simp [instrOf, rowSubnXy, valueOf_cons], fun _ => pack_xy _ x y⟩

theorem EncodePacksRow.shlXy (x : Nibble) (y : Nibble) : EncodePacksRow.Statement (.shlXy x y) := by
  intro f vals h0
  obtain ⟨rfl, rfl⟩ : rowShlXy = f ∧ [(.x, x.toNat), (.y, y.toNat)] = vals := by simpa [formOf] using h0
  exact ⟨by decide, rfl, by simp [instrOf, rowShlXy, valueOf_cons], fun _ => pack_xy _ x y⟩

theorem EncodePacksRow.sneXy (x : Nibble) (y : Nibble) : EncodePacksRow.Statement (.sneXy x y) := by
  intro f vals h0
  obtain ⟨rfl, rfl⟩ : rowSneXy = f ∧ [(.x, x.toNat), (.y, y.toNat)] = vals := by simpa [formOf] using h0
  exact ⟨by decide, rfl, by simp [instrOf, rowSneXy, valueOf_cons], fun _ => pack_xy _ x y⟩

theorem EncodePacksRow.ldINnn (nnn : Nat) : EncodePacksRow.Statement (.ldINnn nnn) := by
  intro f vals h0
  obtain ⟨rfl, rfl⟩ : rowLdINnn = f ∧ [(.nnn, nnn)] = vals := by simpa [formOf] using h0
  exact ⟨by decide, rfl, rfl, fun h => pack_nnn _ nnn (by simpa [Instr.WellFormed, Instr.fits, addressFits] using h)⟩

theorem EncodePacksRow.jpV0Nnn (nnn : Nat) : EncodePacksRow.Statement (.jpV0Nnn nnn) := by
  intro f vals h0
  obtain ⟨rfl, rfl⟩ : rowJpV0Nnn = f ∧ [(.nnn, nnn)] = vals := by simpa [formOf] using h0
  exact ⟨by decide, rfl, rfl, fun h => pack_nnn _ nnn (by simpa [Instr.WellFormed, Instr.fits, addressFits] using h)⟩

theorem EncodePacksRow.rndXkk (x : Nibble) (kk : Nat) : EncodePacksRow.Statement (.rndXkk x kk) := by
  intro f vals h0
  obtain ⟨rfl, rfl⟩ : rowRndXkk = f ∧ [(.x, x.toNat), (.kk, kk)] = vals := by simpa [formOf] using h0
  exact ⟨by decide, rfl, by simp [instrOf, rowRndXkk, valueOf_cons], fun h => pack_xkk _ x kk (by simpa [Instr.WellFormed, Instr.fits, byteFits] using h)⟩

theorem EncodePacksRow.drwXyn (x : Nibble) (y : Nibble) (n : Nat) : EncodePacksRow.Statement (.drwXyn x y n) := by
  intro f vals h0
  obtain ⟨rfl, rfl⟩ : rowDrwXyn = f ∧ [(.x, x.toNat), (.y, y.toNat), (.n, n)] = vals := by simpa [formOf] using h0
  exact ⟨by decide, rfl, by simp [instrOf, rowDrwXyn, valueOf_cons], fun h => pack_xyn _ x y n (by simpa [Instr.WellFormed, Instr.fits, countFits] using h)⟩

theorem EncodePacksRow.skpX (x : Nibble) : EncodePacksRow.Statement (.skpX x) := by
  intro f vals h0
  obtain ⟨rfl, rfl⟩ : rowSkpX = f ∧ [(.x, x.toNat)] = vals := by simpa [formOf] using h0
  exact ⟨by decide, rfl, by simp [instrOf, rowSkpX, valueOf_cons], fun _ => pack_x _ x⟩

theorem EncodePacksRow.sknpX (x : Nibble) : EncodePacksRow.Statement (.sknpX x) := by
  intro f vals h0
  obtain ⟨rfl, rfl⟩ : rowSknpX = f ∧ [(.x, x.toNat)] = vals := by simpa [formOf] using h0
  exact ⟨by decide, rfl, by simp [instrOf, rowSknpX, valueOf_cons], fun _ => pack_x _ x⟩

theorem EncodePacksRow.ldXDt (x : Nibble) : EncodePacksRow.Statement (.ldXDt x) := by
  intro f vals h0
  obtain ⟨rfl, rfl⟩ : rowLdXDt = f ∧ [(.x, x.toNat)] = vals := by simpa [formOf] using h0
  exact ⟨by decide, rfl, by simp [instrOf, rowLdXDt, valueOf_cons], fun _ => pack_x _ x⟩

theorem EncodePacksRow.ldXK (x : Nibble) : EncodePacksRow.Statement (.ldXK x) := by
  intro f vals h0
  obtain ⟨rfl, rfl⟩ : rowLdXK = f ∧ [(.x, x.toNat)] = vals := by simpa [formOf] using h0
  exact ⟨by decide, rfl, by simp [instrOf, rowLdXK, valueOf_cons], fun _ => pack_x _ x⟩

theorem EncodePacksRow.ldDtX (x : Nibble) : EncodePacksRow.Statement (.ldDtX x) := by
  intro f vals h0
  obtain ⟨rfl, rfl⟩ : rowLdDtX = f ∧ [(.x, x.toNat)] = vals := by simpa [formOf] using h0
  exact ⟨by decide, rfl, by simp [instrOf, rowLdDtX, valueOf_cons], fun _ => pack_x _ x⟩

theorem EncodePacksRow.ldStX (x : Nibble) : EncodePacksRow.Statement (.ldStX x) := by
  intro f vals h0
  obtain ⟨rfl, rfl⟩ : rowLdStX = f ∧ [(.x, x.toNat)] = vals := by simpa [formOf] using h0
  exact ⟨by decide, rfl, by simp [instrOf, rowLdStX, valueOf_cons], fun _ => pack_x _ x⟩

theorem EncodePacksRow.addIX (x : Nibble) : EncodePacksRow.Statement (.addIX x) := by
  intro f vals h0
  obtain ⟨rfl, rfl⟩ : rowAddIX = f ∧ [(.x, x.toNat)] = vals := by simpa [formOf] using h0
  exact ⟨by decide, rfl, by simp [instrOf, rowAddIX, valueOf_cons], fun _ => pack_x _ x⟩

theorem EncodePacksRow.ldFX (x : Nibble) : EncodePacksRow.Statement (.ldFX x) := by
  intro f vals h0
  obtain ⟨rfl, rfl⟩ : rowLdFX = f ∧ [(.x, x.toNat)] = vals := by simpa [formOf] using h0
  exact ⟨by decide, rfl, by simp [instrOf, rowLdFX, valueOf_cons], fun _ => pack_x _ x⟩

theorem EncodePacksRow.ldBX (x : Nibble) : EncodePacksRow.Statement (.ldBX x) := by
  intro f vals h0
  obtain ⟨rfl, rfl⟩ : rowLdBX = f ∧ [(.x, x.toNat)] = vals := by simpa [formOf] using h0
  exact ⟨by decide, rfl, by simp [instrOf, rowLdBX, valueOf_cons], fun _ => pack_x _ x⟩

theorem EncodePacksRow.ldIndX (x : Nibble) : EncodePacksRow.Statement (.ldIndX x) := by
  intro f vals h0
  obtain ⟨rfl, rfl⟩ : rowLdIndX = f ∧ [(.x, x.toNat)] = vals := by simpa [formOf] using h0
  exact ⟨by decide, rfl, by simp [instrOf, rowLdIndX, valueOf_cons], fun _ => pack_x _ x⟩

theorem EncodePacksRow.ldXInd (x : Nibble) : EncodePacksRow.Statement (.ldXInd x) := by
  intro f vals h0
  obtain ⟨rfl, rfl⟩ : rowLdXInd = f ∧ [(.x, x.toNat)] = vals := by simpa [formOf] using h0
  exact ⟨by decide, rfl, by simp [instrOf, rowLdXInd, valueOf_cons], fun _ => pack_x _ x⟩

theorem EncodePacksRow.db (hh ll : Nat) : EncodePacksRow.Statement (.db hh ll) := by
  intro f vals h; cases h

end Sys2Proof.Laws
end

