-- ==== Sys2Proof/Laws/Exec.lean ====
section
/-! SUPPORT. Every meaning is the shared operation over its row: provers cite this instead of unfolding `exec`. -/

namespace Sys2Proof.Laws

open Sys2Proof.Machine

theorem exec_eq_perform {i : Instr} {f : Format} {vals : Vals} (h : formOf i = some (f, vals)) (s : State) :
    exec i s = perform f vals s := by
  cases i <;> simp only [formOf, Option.some.injEq, Prod.mk.injEq, reduceCtorEq] at h <;> obtain ⟨rfl, rfl⟩ := h <;> rfl

theorem exec_db (hh ll : Nat) (s : State) : exec (.db hh ll) s = performData hh ll s := rfl

/-- Raw data is the only instruction without a row (R135). -/
theorem formOf_none {i : Instr} (h : formOf i = none) : ∃ hh ll, i = .db hh ll := by
  cases i <;> first | exact ⟨_, _, rfl⟩ | cases h

end Sys2Proof.Laws
end

