-- ==== Sys2Proof/Laws/Run.lean ====
section
/-! SUPPORT. Runs one element at a time (R65, R70), with unbounded counters. -/

namespace Sys2Proof.Machine

theorem decStep_unbounded (t : Table) (w : Word) {s : State} (h : s.params.addrw = none) :
    decStep t w s = s.afterDec (nextMode s.mode s.addr (decodeEntry t s.mode s.addr w)) (decodeEntry t s.mode s.addr w)
      (render s.params.hexcase (decodeEntry t s.mode s.addr w)) :=
  decCommit_ready (hasRoom_unbounded h _) _

theorem disassembleFrom_cons (t : Table) (w : Word) (ws : List Word) {s : State} (h : s.params.addrw = none) :
    disassembleFrom t (w :: ws) s =
      ((decodeEntry t s.mode s.addr w, render s.params.hexcase (decodeEntry t s.mode s.addr w)) ::
        (disassembleFrom t ws (decStep t w s)).1, (disassembleFrom t ws (decStep t w s)).2) := by
  rw [disassembleFrom]
  simp only [decStep_unbounded t w h, State.afterDec]

theorem encStep_ok {t : Table} {line : Line} {s : State} (hr : s.EncReady) {w : Word} (hw : encodeLine t line = .ok w) :
    encStep t line s = s.afterEnc (highByte w) (lowByte w) := by
  rw [encStep, hw, encCommit_ok hr]

theorem encStep_error {t : Table} {line : Line} {s : State} (hr : s.EncReady) {e : EncErr} (he : encodeLine t line = .error e) :
    encStep t line s = s.afterError (errCode e) e line := by
  rw [encStep, he, encCommit_error hr]

theorem assembleFrom_ok {t : Table} {line : Line} (lines : List Line) {s : State} (i : Nat) (hr : s.EncReady) {w : Word}
    (hw : encodeLine t line = .ok w) :
    assembleFrom t i (line :: lines) s =
      (prependBytes (highByte w) (lowByte w) (assembleFrom t (i + 1) lines (s.afterEnc (highByte w) (lowByte w))).1,
        (assembleFrom t (i + 1) lines (s.afterEnc (highByte w) (lowByte w))).2) := by
  rw [assembleFrom]
  simp only [encStep_ok hr hw]
  rfl

theorem assembleFrom_error {t : Table} {line : Line} (lines : List Line) {s : State} (i : Nat) (hr : s.EncReady) {e : EncErr}
    (he : encodeLine t line = .error e) :
    assembleFrom t i (line :: lines) s = (.error (.fault e i line), s.afterError (errCode e) e line) := by
  rw [assembleFrom]
  simp only [encStep_error hr he]
  rfl

end Sys2Proof.Machine
end

