-- ==== Sys2Proof/Laws/Text.lean ====
section
/-! SUPPORT. The text side: slots, the choice of a row, trimming and splitting, and hex digits read back. -/

namespace Sys2Proof.Machine

/-! ## Slots and the choice of a row -/

theorem acceptsAll_length : ∀ {ss : List Slot} {ts : List Tok}, acceptsAll ss ts = true → ss.length = ts.length
  | [], [], _ => rfl
  | _ :: _, _ :: _, h => by simp only [acceptsAll, Bool.and_eq_true] at h; simp [acceptsAll_length h.2]
  | [], _ :: _, h => by simp [acceptsAll] at h
  | _ :: _, [], h => by simp [acceptsAll] at h

theorem lookupByText_some {t : Table} {mn : Text} {ops : List Tok} {f : Format} (h : lookupByText t mn ops = some f) :
    f ∈ t ∧ f.mnemonic = mn ∧ acceptsAll f.slots ops = true := by
  unfold lookupByText at h
  have h2 := List.find?_some h
  simp only [Bool.and_eq_true, beq_iff_eq] at h2
  exact ⟨List.mem_of_find?_eq_some h, h2.1, h2.2⟩

/-- The three filters of P60 in one. -/
theorem selectRow_filters (t : Table) (line : Line) :
    ((t.filter fun f => f.mnemonic == line.mn).filter fun f => f.slots.length == line.ops.length).filter
        (fun f => acceptsAll f.slots line.ops) =
      t.filter fun f => f.mnemonic == line.mn && acceptsAll f.slots line.ops := by
  rw [List.filter_filter, List.filter_filter]
  congr 1; funext f
  by_cases h : acceptsAll f.slots line.ops = true
  · have := acceptsAll_length h; simp [h, this]
  · simp [h]

/-- P60 lines 2 to 8 choose the row `lookup_by_text` finds. -/
theorem selectRow_ok {t : Table} {line : Line} {f : Format} :
    selectRow t line = .ok f ↔ lookupByText t line.mn line.ops = some f := by
  unfold lookupByText
  rw [← List.head?_filter, ← selectRow_filters]
  simp only [selectRow]
  generalize (t.filter fun f => f.mnemonic == line.mn) = c1
  cases c1 with
  | nil => simp
  | cons a c1 =>
    simp only
    generalize ((a :: c1).filter fun f => f.slots.length == line.ops.length) = c2
    cases c2 with
    | nil => simp
    | cons b c2 =>
      simp only
      cases (List.filter (fun f => acceptsAll f.slots line.ops) (b :: c2)) <;> simp

/-- A line of another mnemonic than `db` encodes through its row. -/
theorem encodeLine_row {t : Table} {line : Line} (h : line.mn ≠ dbMnemonic) :
    encodeLine t line = match selectRow t line with
      | .ok f => packVals f.pattern (bindVals f.slots line.ops)
      | .error e => .error e := by
  unfold encodeLine; exact if_neg h

/-! ## Trimming -/

theorem trimWs_cons {c : Char} (t : Text) (h : isWs c = true) : trimWs (c :: t) = trimWs t := by
  simp [trimWs, List.dropWhile, h]

theorem trimWs_snoc {c : Char} (t : Text) (h : isWs c = true) : trimWs (t ++ [c]) = trimWs t := by
  unfold trimWs
  induction t with
  | nil => simp [List.dropWhile, h]
  | cons a t ih =>
    by_cases ha : isWs a = true
    · simpa [List.dropWhile, ha] using ih
    · simp [List.dropWhile, ha, h]

theorem trimWs_blanks_append {b : Text} (t : Text) (h : blanks b) : trimWs (b ++ t) = trimWs t := by
  induction b with
  | nil => rfl
  | cons c b ih => rw [List.cons_append, trimWs_cons _ (h c (by simp)), ih fun c hc => h c (by simp [hc])]

theorem trimWs_append_blanks {b : Text} (t : Text) (h : blanks b) : trimWs (t ++ b) = trimWs t := by
  induction b generalizing t with
  | nil => simp
  | cons c b ih =>
    rw [show t ++ c :: b = (t ++ [c]) ++ b by simp, ih _ (fun c hc => h c (by simp [hc])), trimWs_snoc _ (h c (by simp))]

/-- A text with no white space at its ends is its own trimmed form. -/
theorem trimWs_self {p : Text} (h1 : ∀ c, p.head? = some c → isWs c = false) (h2 : ∀ c, p.getLast? = some c → isWs c = false) :
    trimWs p = p := by
  unfold trimWs
  have e1 : p.dropWhile isWs = p := by
    cases p with
    | nil => rfl
    | cons a p => simp [List.dropWhile, h1 a rfl]
  have e2 : p.reverse.dropWhile isWs = p.reverse := by
    have h3 : ∀ c, p.reverse.head? = some c → isWs c = false := by
      intro c hc; rw [List.head?_reverse] at hc; exact h2 c hc
    cases hq : p.reverse with
    | nil => rfl
    | cons a q => simp [List.dropWhile, h3 a (by rw [hq]; rfl)]
  rw [e1, e2, List.reverse_reverse]

/-- Every text is blanks, its trimmed form, and blanks. -/
theorem trimWs_core (t : Text) : ∃ a b, blanks a ∧ blanks b ∧ t = a ++ trimWs t ++ b := by
  refine ⟨t.takeWhile isWs, ((t.dropWhile isWs).reverse.takeWhile isWs).reverse, ?_, ?_, ?_⟩
  · intro c hc; exact List.mem_takeWhile_imp hc
  · intro c hc; exact List.mem_takeWhile_imp (List.mem_reverse.1 hc)
  · unfold trimWs
    rw [List.append_assoc, ← List.reverse_append, List.takeWhile_append_dropWhile, List.reverse_reverse,
      List.takeWhile_append_dropWhile]

/-! ## Splitting at commas -/

theorem ws_ne_comma {c : Char} (h : isWs c = true) : c ≠ ',' := by rintro rfl; revert h; decide

theorem splitCommas_ne_nil (t : Text) : splitCommas t ≠ [] := by
  cases t with
  | nil => simp [splitCommas]
  | cons c t => unfold splitCommas; split; simp; split <;> simp

theorem splitCommas_comma (t : Text) : splitCommas (',' :: t) = [] :: splitCommas t := by rw [splitCommas]; simp

theorem splitCommas_cons {c : Char} (t : Text) (h : c ≠ ',') :
    ∃ p ps, splitCommas t = p :: ps ∧ splitCommas (c :: t) = (c :: p) :: ps := by
  cases hs : splitCommas t with
  | nil => exact absurd hs (splitCommas_ne_nil t)
  | cons p ps => exact ⟨p, ps, rfl, by rw [splitCommas]; simp [h, hs]⟩

theorem splitCommas_piece {p : Text} (t : Text) (h : ∀ c ∈ p, c ≠ ',') : splitCommas (p ++ ',' :: t) = p :: splitCommas t := by
  induction p with
  | nil => exact splitCommas_comma t
  | cons c p ih =>
    obtain ⟨q, qs, h1, h2⟩ := splitCommas_cons (p ++ ',' :: t) (h c (by simp))
    rw [ih fun c hc => h c (by simp [hc])] at h1
    cases h1; exact h2

theorem splitCommas_single {p : Text} (h : ∀ c ∈ p, c ≠ ',') : splitCommas p = [p] := by
  induction p with
  | nil => rfl
  | cons c p ih =>
    obtain ⟨q, qs, h1, h2⟩ := splitCommas_cons p (h c (by simp))
    rw [ih fun c hc => h c (by simp [hc])] at h1
    cases h1; exact h2

/-- Splitting undoes joining with commas. -/
theorem splitCommas_intercalate : ∀ (ps : List Text), ps ≠ [] → (∀ p ∈ ps, ∀ c ∈ p, c ≠ ',') →
    splitCommas (List.intercalate [','] ps) = ps
  | [], h, _ => absurd rfl h
  | [p], _, h => by simp [List.intercalate, splitCommas_single (h p (by simp))]
  | p :: q :: ps, _, h => by
    have : List.intercalate [','] (p :: q :: ps) = p ++ ',' :: List.intercalate [','] (q :: ps) := by simp [List.intercalate]
    rw [this, splitCommas_piece _ (h p (by simp)), splitCommas_intercalate (q :: ps) (by simp) fun r hr => h r (by simp [hr])]

theorem splitCommas_snoc (t : Text) {c : Char} (h : c ≠ ',') :
    ∃ (l : List Text) (q : Text), splitCommas t = l ++ [q] ∧ splitCommas (t ++ [c]) = l ++ [q ++ [c]] := by
  induction t with
  | nil => exact ⟨[], [], rfl, splitCommas_single (by simpa using h)⟩
  | cons a t ih =>
    obtain ⟨l, q, h1, h2⟩ := ih
    by_cases ha : a = ','
    · subst ha
      exact ⟨[] :: l, q, by rw [splitCommas_comma, h1]; rfl, by rw [List.cons_append, splitCommas_comma, h2]; rfl⟩
    · obtain ⟨p, ps, e1, e2⟩ := splitCommas_cons t ha
      obtain ⟨p', ps', e1', e2'⟩ := splitCommas_cons (t ++ [c]) ha
      rw [h1] at e1; rw [h2] at e1'
      cases l with
      | nil =>
        simp at e1 e1'
        obtain ⟨rfl, rfl⟩ := e1; obtain ⟨rfl, rfl⟩ := e1'
        exact ⟨[], a :: q, e2, e2'⟩
      | cons x l =>
        simp at e1 e1'
        obtain ⟨rfl, rfl⟩ := e1; obtain ⟨rfl, rfl⟩ := e1'
        exact ⟨(a :: x) :: l, q, e2, e2'⟩

/-- White space at the ends of the operand text changes no trimmed piece. -/
theorem splitCommas_blanks {a b : Text} (t : Text) (ha : blanks a) (hb : blanks b) :
    (splitCommas (a ++ t ++ b)).map trimWs = (splitCommas t).map trimWs := by
  have left : (splitCommas (a ++ t)).map trimWs = (splitCommas t).map trimWs := by
    induction a with
    | nil => rfl
    | cons c a ih =>
      obtain ⟨p, ps, h1, h2⟩ := splitCommas_cons (a ++ t) (ws_ne_comma (ha c (by simp)))
      rw [List.cons_append, h2, ← ih (fun c hc => ha c (by simp [hc])), h1]
      simp [trimWs_cons p (ha c (by simp))]
  rw [← left]
  generalize a ++ t = u
  clear left
  induction b generalizing u with
  | nil => simp
  | cons c b ih =>
    rw [show u ++ c :: b = (u ++ [c]) ++ b by simp, ih (fun c hc => hb c (by simp [hc]))]
    obtain ⟨l, q, h1, h2⟩ := splitCommas_snoc u (ws_ne_comma (hb c (by simp)))
    rw [h1, h2]; simp [trimWs_snoc q (hb c (by simp))]

/-! ## Hex digits -/

theorem hexValue_hexDigit (hc : HexCase) (d : Nat) (h : d < 16) : hexValue (hexDigit hc d) = some d := by
  have : ∀ hc : HexCase, ∀ d, d < 16 → hexValue (hexDigit hc d) = some d := by intro hc; cases hc <;> decide
  exact this hc d h

theorem hexDigit_plain (hc : HexCase) (d : Nat) (h : d < 16) : isWs (hexDigit hc d) = false ∧ hexDigit hc d ≠ ',' := by
  have : ∀ hc : HexCase, ∀ d, d < 16 → isWs (hexDigit hc d) = false ∧ hexDigit hc d ≠ ',' := by intro hc; cases hc <;> decide
  exact this hc d h

theorem hexNumberFrom_snoc {c : Char} {d : Nat} (hd : hexValue c = some d) : ∀ (t : Text) (a v : Nat),
    hexNumberFrom a t = some v → hexNumberFrom a (t ++ [c]) = some (16 * v + d)
  | [], a, v, h => by simp [hexNumberFrom] at h; subst h; simp [hexNumberFrom, hd]
  | x :: t, a, v, h => by
    simp only [hexNumberFrom, List.cons_append] at *
    split at h
    · rw [hexNumberFrom_snoc hd t _ v h]
    · cases h

theorem hexNumberFrom_hexText (hc : HexCase) : ∀ (k v : Nat), v < 16 ^ k → hexNumberFrom 0 (hexText hc k v) = some v
  | 0, v, h => by simp at h; subst h; rfl
  | k + 1, v, h => by
    rw [hexText, hexNumberFrom_snoc (hexValue_hexDigit hc _ (Nat.mod_lt _ (by decide))) _ 0 (v / 16)
      (hexNumberFrom_hexText hc k (v / 16) (by rw [Nat.pow_succ] at h; omega))]
    congr 1; omega

theorem hexText_plain (hc : HexCase) : ∀ (k v : Nat), ∀ c ∈ hexText hc k v, isWs c = false ∧ c ≠ ','
  | 0, v, c, h => by simp [hexText] at h
  | k + 1, v, c, h => by
    rw [hexText, List.mem_append] at h
    rcases h with h | h
    · exact hexText_plain hc k _ c h
    · simp at h; subst h; exact hexDigit_plain hc _ (Nat.mod_lt _ (by decide))

/-- What is printed for a value is read back as it (R42, R47). -/
theorem hexNumber_hexText (hc : HexCase) (k v : Nat) (h : v < 16 ^ (k + 1)) : hexNumber (hexText hc (k + 1) v) = some v := by
  cases ht : hexText hc (k + 1) v with
  | nil => simp [hexText] at ht
  | cons x y => rw [hexNumber, ← ht]; exact hexNumberFrom_hexText hc _ v h

end Sys2Proof.Machine
end

