-- ==== Sys2Proof/Tests/Slice0.lean ====
section
/-! SUPPORT. The model's own tests. Expected values come from spec/95_test_vectors.md or are written out from the encoding tables of
spec/30_encoding.md; each comment names its source. After them, for each statement with hypotheses, states and operands that meet them. -/

namespace Sys2Proof.Tests

open Sys2Proof.Machine

/-! ## Helpers -/

/-- The text encodes to the word (section 2.1: "the text encodes to the word"). -/
abbrev encodes (text : String) (w : Word) : Prop := encodeLine defaultTable (tokenize text.toList) = .ok w

/-- The text is the error. -/
abbrev fails (text : String) (e : EncErr) : Prop := encodeLine defaultTable (tokenize text.toList) = .error e

/-- The word decodes in `Decoding` at 0x200 and renders to the text. -/
abbrev prints (w : Word) (text : String) : Prop := render .upper (decodeEntry defaultTable .decoding 0x200 w) = text.toList

/-- Reset, with the word presented. -/
def presentWord (w : Word) : State := { State.reset with requests := [.dec w] }

/-- Reset, with the line presented. -/
def presentLine (text : String) : State := { State.reset with requests := [.enc (tokenize text.toList)] }

/-- Reset, with the reset of a side presented. -/
def presentReset (k : ResetKind) : State := { State.reset with requests := [.reset k] }

/-- The answer of the newest result and the four fields after a step. -/
def after (s : State) : Option (Option Result × Mode × Nat × BitVec 2 × Nat) :=
  match step s with
  | .next t => some (t.results.head?, t.mode, t.addr, t.ecause, t.eaddr)
  | .fault _ => none
  | .refused _ => none

/-! ## Well-formedness: one ill-formed term for each check -/

/-- R102 to R106: 0x1000 is no 12-bit address (E5), 0xFFF is. -/
theorem test_wf_address : ¬(Instr.jpNnn 0x1000).WellFormed ∧ (Instr.jpNnn 0xFFF).WellFormed := by decide

/-- R107 to R111: 0x100 is no byte, 0xFF is. -/
theorem test_wf_byte : ¬(Instr.ldXkk 0xF#4 0x100).WellFormed ∧ (Instr.ldXkk 0xF#4 0xFF).WellFormed := by decide

/-- R123: 0x10 is no nibble count, 0xF is. -/
theorem test_wf_count : ¬(Instr.drwXyn 0x0#4 0x0#4 0x10).WellFormed ∧ (Instr.drwXyn 0x0#4 0x0#4 0xF).WellFormed := by decide

/-- R135: either byte of raw data too large. -/
theorem test_wf_data :
    ¬(Instr.db 0x100 0x00).WellFormed ∧ ¬(Instr.db 0x00 0x100).WellFormed ∧ (Instr.db 0xFF 0xFF).WellFormed := by decide

/-! ## Words written out bit by bit from R31, R32 and R36 -/

/-- Layout NONE: 0000 0000 1110 0000. -/
theorem test_bits_none : decode [0b0000_0000#8, 0b1110_0000#8] = .ok (.cls, []) := by decide

/-- Layout NNN: `CALL`, 0010 and twelve address bits. -/
theorem test_bits_nnn : decode [0b0010_1000#8, 0b0000_0001#8] = .ok (.callNnn 0b1000_0000_0001, []) := by decide

/-- Layout XKK: `LD`, 0110, register 3, byte 0x2A (E2). -/
theorem test_bits_xkk : decode [0b0110_0011#8, 0b0010_1010#8] = .ok (.ldXkk 0b0011#4 0b0010_1010, []) := by decide

/-- Layout XY: `ADD`, 1000, registers 1 and 2, 0100 (E3). -/
theorem test_bits_xy : decode [0b1000_0001#8, 0b0010_0100#8] = .ok (.addXy 0b0001#4 0b0010#4, []) := by decide

/-- Layout XYN: `DRW`, 1101, registers 10 and 5, count 7. -/
theorem test_bits_xyn : decode [0b1101_1010#8, 0b0101_0111#8] = .ok (.drwXyn 0b1010#4 0b0101#4 0b0111, []) := by decide

/-- Layout X: `SKP`, 1110, register 7, 1001 1110. -/
theorem test_bits_x : decode [0b1110_0111#8, 0b1001_1110#8] = .ok (.skpX 0b0111#4, []) := by decide

/-- R39: 5xy1 is no row, so raw data. -/
theorem test_bits_data : decode [0b0101_0001#8, 0b0010_0001#8] = .ok (.db 0b0101_0001 0b0010_0001, []) := by decide

/-! ## Every row: the mixed vector of section 2.1 -/

/-- R100, file 95 section 2.1. -/
theorem test_decode_cls : decode [0x00#8, 0xE0#8] = .ok (.cls, []) := by decide

/-- The same vector as text, both ways. -/
theorem test_text_cls : encodes "CLS" 0x00E0#16 ∧ prints 0x00E0#16 "CLS" := by decide

/-- R101, file 95 section 2.1. -/
theorem test_decode_ret : decode [0x00#8, 0xEE#8] = .ok (.ret, []) := by decide

/-- The same vector as text, both ways. -/
theorem test_text_ret : encodes "RET" 0x00EE#16 ∧ prints 0x00EE#16 "RET" := by decide

/-- R102, file 95 section 2.1. -/
theorem test_decode_sysNnn : decode [0x02#8, 0xF6#8] = .ok (.sysNnn 0x2F6, []) := by decide

/-- The same vector as text, both ways. -/
theorem test_text_sysNnn : encodes "SYS #2F6" 0x02F6#16 ∧ prints 0x02F6#16 "SYS #2F6" := by decide

/-- R103, file 95 section 2.1. -/
theorem test_decode_jpNnn : decode [0x12#8, 0xF6#8] = .ok (.jpNnn 0x2F6, []) := by decide

/-- The same vector as text, both ways. -/
theorem test_text_jpNnn : encodes "JP L2F6" 0x12F6#16 ∧ prints 0x12F6#16 "JP L2F6" := by decide

/-- R104, file 95 section 2.1. -/
theorem test_decode_callNnn : decode [0x22#8, 0xF6#8] = .ok (.callNnn 0x2F6, []) := by decide

/-- The same vector as text, both ways. -/
theorem test_text_callNnn : encodes "CALL #2F6" 0x22F6#16 ∧ prints 0x22F6#16 "CALL #2F6" := by decide

/-- R107, file 95 section 2.1. -/
theorem test_decode_seXkk : decode [0x3A#8, 0x3C#8] = .ok (.seXkk 0xA#4 0x3C, []) := by decide

/-- The same vector as text, both ways. -/
theorem test_text_seXkk : encodes "SE vA, #3C" 0x3A3C#16 ∧ prints 0x3A3C#16 "SE vA, #3C" := by decide

/-- R108, file 95 section 2.1. -/
theorem test_decode_sneXkk : decode [0x4A#8, 0x3C#8] = .ok (.sneXkk 0xA#4 0x3C, []) := by decide

/-- The same vector as text, both ways. -/
theorem test_text_sneXkk : encodes "SNE vA, #3C" 0x4A3C#16 ∧ prints 0x4A3C#16 "SNE vA, #3C" := by decide

/-- R112, file 95 section 2.1. -/
theorem test_decode_seXy : decode [0x5A#8, 0x50#8] = .ok (.seXy 0xA#4 0x5#4, []) := by decide

/-- The same vector as text, both ways. -/
theorem test_text_seXy : encodes "SE vA, v5" 0x5A50#16 ∧ prints 0x5A50#16 "SE vA, v5" := by decide

/-- R109, file 95 section 2.1. -/
theorem test_decode_ldXkk : decode [0x6A#8, 0x3C#8] = .ok (.ldXkk 0xA#4 0x3C, []) := by decide

/-- The same vector as text, both ways. -/
theorem test_text_ldXkk : encodes "LD vA, #3C" 0x6A3C#16 ∧ prints 0x6A3C#16 "LD vA, #3C" := by decide

/-- R110, file 95 section 2.1. -/
theorem test_decode_addXkk : decode [0x7A#8, 0x3C#8] = .ok (.addXkk 0xA#4 0x3C, []) := by decide

/-- The same vector as text, both ways. -/
theorem test_text_addXkk : encodes "ADD vA, #3C" 0x7A3C#16 ∧ prints 0x7A3C#16 "ADD vA, #3C" := by decide

/-- R113, file 95 section 2.1. -/
theorem test_decode_ldXy : decode [0x8A#8, 0x50#8] = .ok (.ldXy 0xA#4 0x5#4, []) := by decide

/-- The same vector as text, both ways. -/
theorem test_text_ldXy : encodes "LD vA, v5" 0x8A50#16 ∧ prints 0x8A50#16 "LD vA, v5" := by decide

/-- R114, file 95 section 2.1. -/
theorem test_decode_orXy : decode [0x8A#8, 0x51#8] = .ok (.orXy 0xA#4 0x5#4, []) := by decide

/-- The same vector as text, both ways. -/
theorem test_text_orXy : encodes "OR vA, v5" 0x8A51#16 ∧ prints 0x8A51#16 "OR vA, v5" := by decide

/-- R115, file 95 section 2.1. -/
theorem test_decode_andXy : decode [0x8A#8, 0x52#8] = .ok (.andXy 0xA#4 0x5#4, []) := by decide

/-- The same vector as text, both ways. -/
theorem test_text_andXy : encodes "AND vA, v5" 0x8A52#16 ∧ prints 0x8A52#16 "AND vA, v5" := by decide

/-- R116, file 95 section 2.1. -/
theorem test_decode_xorXy : decode [0x8A#8, 0x53#8] = .ok (.xorXy 0xA#4 0x5#4, []) := by decide

/-- The same vector as text, both ways. -/
theorem test_text_xorXy : encodes "XOR vA, v5" 0x8A53#16 ∧ prints 0x8A53#16 "XOR vA, v5" := by decide

/-- R117, file 95 section 2.1. -/
theorem test_decode_addXy : decode [0x8A#8, 0x54#8] = .ok (.addXy 0xA#4 0x5#4, []) := by decide

/-- The same vector as text, both ways. -/
theorem test_text_addXy : encodes "ADD vA, v5" 0x8A54#16 ∧ prints 0x8A54#16 "ADD vA, v5" := by decide

/-- R118, file 95 section 2.1. -/
theorem test_decode_subXy : decode [0x8A#8, 0x55#8] = .ok (.subXy 0xA#4 0x5#4, []) := by decide

/-- The same vector as text, both ways. -/
theorem test_text_subXy : encodes "SUB vA, v5" 0x8A55#16 ∧ prints 0x8A55#16 "SUB vA, v5" := by decide

/-- R119, file 95 section 2.1. -/
theorem test_decode_shrXy : decode [0x8A#8, 0x56#8] = .ok (.shrXy 0xA#4 0x5#4, []) := by decide

/-- The same vector as text, both ways. -/
theorem test_text_shrXy : encodes "SHR vA, v5" 0x8A56#16 ∧ prints 0x8A56#16 "SHR vA, v5" := by decide

/-- R120, file 95 section 2.1. -/
theorem test_decode_subnXy : decode [0x8A#8, 0x57#8] = .ok (.subnXy 0xA#4 0x5#4, []) := by decide

/-- The same vector as text, both ways. -/
theorem test_text_subnXy : encodes "SUBN vA, v5" 0x8A57#16 ∧ prints 0x8A57#16 "SUBN vA, v5" := by decide

/-- R121, file 95 section 2.1. -/
theorem test_decode_shlXy : decode [0x8A#8, 0x5E#8] = .ok (.shlXy 0xA#4 0x5#4, []) := by decide

/-- The same vector as text, both ways. -/
theorem test_text_shlXy : encodes "SHL vA, v5" 0x8A5E#16 ∧ prints 0x8A5E#16 "SHL vA, v5" := by decide

/-- R122, file 95 section 2.1. -/
theorem test_decode_sneXy : decode [0x9A#8, 0x50#8] = .ok (.sneXy 0xA#4 0x5#4, []) := by decide

/-- The same vector as text, both ways. -/
theorem test_text_sneXy : encodes "SNE vA, v5" 0x9A50#16 ∧ prints 0x9A50#16 "SNE vA, v5" := by decide

/-- R105, file 95 section 2.1. -/
theorem test_decode_ldINnn : decode [0xA2#8, 0xF6#8] = .ok (.ldINnn 0x2F6, []) := by decide

/-- The same vector as text, both ways. -/
theorem test_text_ldINnn : encodes "LD I, #2F6" 0xA2F6#16 ∧ prints 0xA2F6#16 "LD I, #2F6" := by decide

/-- R106, file 95 section 2.1. -/
theorem test_decode_jpV0Nnn : decode [0xB2#8, 0xF6#8] = .ok (.jpV0Nnn 0x2F6, []) := by decide

/-- The same vector as text, both ways. -/
theorem test_text_jpV0Nnn : encodes "JP v0, #2F6" 0xB2F6#16 ∧ prints 0xB2F6#16 "JP v0, #2F6" := by decide

/-- R111, file 95 section 2.1. -/
theorem test_decode_rndXkk : decode [0xCA#8, 0x3C#8] = .ok (.rndXkk 0xA#4 0x3C, []) := by decide

/-- The same vector as text, both ways. -/
theorem test_text_rndXkk : encodes "RND vA, #3C" 0xCA3C#16 ∧ prints 0xCA3C#16 "RND vA, #3C" := by decide

/-- R123, file 95 section 2.1. -/
theorem test_decode_drwXyn : decode [0xDA#8, 0x57#8] = .ok (.drwXyn 0xA#4 0x5#4 7, []) := by decide

/-- The same vector as text, both ways. -/
theorem test_text_drwXyn : encodes "DRW vA, v5, #7" 0xDA57#16 ∧ prints 0xDA57#16 "DRW vA, v5, #7" := by decide

/-- R124, file 95 section 2.1. -/
theorem test_decode_skpX : decode [0xEA#8, 0x9E#8] = .ok (.skpX 0xA#4, []) := by decide

/-- The same vector as text, both ways. -/
theorem test_text_skpX : encodes "SKP vA" 0xEA9E#16 ∧ prints 0xEA9E#16 "SKP vA" := by decide

/-- R125, file 95 section 2.1. -/
theorem test_decode_sknpX : decode [0xEA#8, 0xA1#8] = .ok (.sknpX 0xA#4, []) := by decide

/-- The same vector as text, both ways. -/
theorem test_text_sknpX : encodes "SKNP vA" 0xEAA1#16 ∧ prints 0xEAA1#16 "SKNP vA" := by decide

/-- R126, file 95 section 2.1. -/
theorem test_decode_ldXDt : decode [0xFA#8, 0x07#8] = .ok (.ldXDt 0xA#4, []) := by decide

/-- The same vector as text, both ways. -/
theorem test_text_ldXDt : encodes "LD vA, DT" 0xFA07#16 ∧ prints 0xFA07#16 "LD vA, DT" := by decide

/-- R127, file 95 section 2.1. -/
theorem test_decode_ldXK : decode [0xFA#8, 0x0A#8] = .ok (.ldXK 0xA#4, []) := by decide

/-- The same vector as text, both ways. -/
theorem test_text_ldXK : encodes "LD vA, K" 0xFA0A#16 ∧ prints 0xFA0A#16 "LD vA, K" := by decide

/-- R128, file 95 section 2.1. -/
theorem test_decode_ldDtX : decode [0xFA#8, 0x15#8] = .ok (.ldDtX 0xA#4, []) := by decide

/-- The same vector as text, both ways. -/
theorem test_text_ldDtX : encodes "LD DT, vA" 0xFA15#16 ∧ prints 0xFA15#16 "LD DT, vA" := by decide

/-- R129, file 95 section 2.1. -/
theorem test_decode_ldStX : decode [0xFA#8, 0x18#8] = .ok (.ldStX 0xA#4, []) := by decide

/-- The same vector as text, both ways. -/
theorem test_text_ldStX : encodes "LD ST, vA" 0xFA18#16 ∧ prints 0xFA18#16 "LD ST, vA" := by decide

/-- R130, file 95 section 2.1. -/
theorem test_decode_addIX : decode [0xFA#8, 0x1E#8] = .ok (.addIX 0xA#4, []) := by decide

/-- The same vector as text, both ways. -/
theorem test_text_addIX : encodes "ADD I, vA" 0xFA1E#16 ∧ prints 0xFA1E#16 "ADD I, vA" := by decide

/-- R131, file 95 section 2.1. -/
theorem test_decode_ldFX : decode [0xFA#8, 0x29#8] = .ok (.ldFX 0xA#4, []) := by decide

/-- The same vector as text, both ways. -/
theorem test_text_ldFX : encodes "LD F, vA" 0xFA29#16 ∧ prints 0xFA29#16 "LD F, vA" := by decide

/-- R132, file 95 section 2.1. -/
theorem test_decode_ldBX : decode [0xFA#8, 0x33#8] = .ok (.ldBX 0xA#4, []) := by decide

/-- The same vector as text, both ways. -/
theorem test_text_ldBX : encodes "LD B, vA" 0xFA33#16 ∧ prints 0xFA33#16 "LD B, vA" := by decide

/-- R133, file 95 section 2.1. -/
theorem test_decode_ldIndX : decode [0xFA#8, 0x55#8] = .ok (.ldIndX 0xA#4, []) := by decide

/-- The same vector as text, both ways. -/
theorem test_text_ldIndX : encodes "LD [I], vA" 0xFA55#16 ∧ prints 0xFA55#16 "LD [I], vA" := by decide

/-- R134, file 95 section 2.1. -/
theorem test_decode_ldXInd : decode [0xFA#8, 0x65#8] = .ok (.ldXInd 0xA#4, []) := by decide

/-- The same vector as text, both ways. -/
theorem test_text_ldXInd : encodes "LD vA, [I]" 0xFA65#16 ∧ prints 0xFA65#16 "LD vA, [I]" := by decide

/-- R135, R136, section 2.6: raw data as text, and a word no row matches. -/
theorem test_text_db : encodes "db #51, #21" 0x5121#16 ∧ prints 0x5121#16 "db #51, #21" := by decide

/-- R38: the more specific row wins. -/
theorem test_decode_overlap : encodes "SYS #0E0" 0x00E0#16 ∧ prints 0x00E0#16 "CLS" ∧ encodes "SYS #0EE" 0x00EE#16 ∧
    prints 0x00EE#16 "RET" := by decide

/-- Section 2.4: spelling the encoder accepts. -/
theorem test_text_spelling : encodes "  LD\tvb ,#2a " 0x6B2A#16 ∧ encodes "JP #1" 0x1001#16 ∧ encodes "LD I, L20A" 0xA20A#16 ∧
    encodes "LD v3, #0000002A" 0x632A#16 := by decide

/-- R141 to R143, R146, section 2.5: one line for each error, and the order of the checks. -/
theorem test_text_errors : fails "FOO v1, v2, v3, v4" .unknownInstruction ∧ fails "LD v1, #100, #100" .operandArityMismatch ∧
    fails "LD v1, L100" .unknownInstruction ∧ fails "LD v1, #100" .fieldOverflow ∧ fails "LD v1," .unknownInstruction ∧
    fails "" .unknownInstruction ∧ fails "JP v1, #200" .unknownInstruction ∧ fails "db #1" .operandArityMismatch := by decide

/-- E4: the self-jump is printed as code and sets `DataMode` for the word after it. -/
theorem test_selfJump :
    after (presentWord 0x1200#16) =
      some (some (.decoded (.code 0x200 rowJpNnn [(.nnn, 0x200)]) "JP L200".toList), .dataMode, 0x202, 0#2, 0x200) ∧
    after { presentWord 0x1234#16 with mode := .dataMode, addr := 0x202 } =
      some (some (.decoded (.data 0x202 0x1234#16) "db #12, #34".toList), .dataMode, 0x204, 0#2, 0x200) := by decide

/-- D17, section 2.8: no self-jump above 0xFFF. -/
theorem test_selfJump_high :
    after { presentWord 0x1200#16 with addr := 0x1200 } =
      some (some (.decoded (.code 0x1200 rowJpNnn [(.nnn, 0x200)]) "JP L200".toList), .decoding, 0x1202, 0#2, 0x200) := by decide

/-- Section 2.10: a line emitted, an error taken. -/
theorem test_encStep :
    after (presentLine "CLS") = some (some (.emitted 0x00#8 0xE0#8), .decoding, 0x200, 0#2, 0x202) ∧
    after (presentLine "LD v1, #100") =
      some (some (.error .fieldOverflow ⟨"LD".toList, [.reg 0x1#4, .hash 0x100]⟩), .decoding, 0x200, 3#2, 0x200) := by decide

/-- Section 2.10: a line refused while the error is recorded, and the reset that clears it. -/
theorem test_encStep_refused :
    after { presentLine "FOO" with ecause := 2#2, eaddr := 0x202 } =
      some (some (.refused [.runAborted]), .decoding, 0x200, 2#2, 0x202) ∧
    after { presentReset .encOnly with ecause := 3#2 } = some (some (.resetDone .encOnly), .decoding, 0x200, 0#2, 0x200) := by decide

/-- Section 2.10, last paragraph: `ADDRW` = 16 refuses at 0xFFFE, not at 0xFFFC. -/
theorem test_addressRange :
    after { presentWord 0x00E0#16 with addr := 0xFFFC, params := ⟨some 16, .upper⟩ } =
      some (some (.decoded (.code 0xFFFC rowCls []) "CLS".toList), .decoding, 0xFFFE, 0#2, 0x200) ∧
    after { presentWord 0x00E0#16 with addr := 0xFFFE, params := ⟨some 16, .upper⟩ } =
      some (some (.refused [.addressRange]), .decoding, 0xFFFE, 0#2, 0x200) := by decide

/-- Section 2.9: the byte adapters. -/
theorem test_adapters : wordsOfBytes [0x00#8, 0xE0#8, 0x63#8, 0x2A#8] = .ok [0x00E0#16, 0x632A#16] ∧
    wordsOfBytes [0x12#8, 0x00#8, 0x12#8] = .error (.trailingOddByte 3) ∧
    bytesOfWords [0x00E0#16, 0xFFFF#16] = [0x00#8, 0xE0#8, 0xFF#8, 0xFF#8] := by decide

/-- Program P4: the first failing line is the run's error and no byte comes out. -/
theorem test_run_fails :
    (assembleRun defaultTable Params.default [tokenize "LD v3, #2A".toList, tokenize "ADD v1, #124".toList]).1 =
      .error (.fault .fieldOverflow 1 ⟨"ADD".toList, [.reg 0x1#4, .hash 0x124]⟩) := by decide

/-! ## For each statement with hypotheses, states and operands that meet them all -/

/-- LookupByWordSelectsMostSpecific, OperandAssembly, DecodeThenEncodeReturnsTheWord and the others over well-formed tables: the
default table is one, and so is a table of one row. -/
theorem witness_wellFormedTable : Table.WellFormed defaultTable ∧ Table.WellFormed [rowCls] ∧ Table.Spellable [rowCls] := by
  refine ⟨⟨by decide, by decide, by decide⟩, by decide, by decide⟩

/-- The default table's mnemonics can be tokenised. -/
theorem witness_spellable : Table.Spellable defaultTable := by decide

/-- DefaultTableOverlaps: two rows that match one word. -/
theorem witness_DefaultTableOverlaps : rowCls ∈ defaultTable ∧ rowSysNnn ∈ defaultTable ∧ rowCls.hits 0x00E0#16 = true ∧
    rowSysNnn.hits 0x00E0#16 = true ∧ rowRet.hits 0x00EE#16 = true ∧ rowSysNnn.hits 0x00EE#16 = true := by decide

/-- UnmatchedWordsAreData: the first and last words of R39's families. -/
theorem witness_UnmatchedWordsAreData : unmatched 0x5001#16 = true ∧ unmatched 0x800F#16 = true ∧ unmatched 0x9FFF#16 = true ∧
    unmatched 0xE000#16 = true ∧ unmatched 0xFFFF#16 = true ∧ unmatched 0x8FFE#16 = false := by decide

/-- OperandAssembly: values for the row's fields that fit, and that do not, at the boundary; and an address of 0x1000. -/
theorem witness_OperandAssembly : rowJpNnn ∈ defaultTable ∧
    ([(.nnn, 0xFFF)] : Vals).map Prod.fst = boundFields rowJpNnn.slots ∧ (∀ v ∈ ([(.nnn, 0xFFF)] : Vals), v.2 < 2 ^ v.1.width) ∧
    (∃ v ∈ ([(.nnn, 0x1000)] : Vals), 2 ^ v.1.width ≤ v.2) ∧ 0x1000 ≤ 0x1000 := by decide

/-- DecodeOfEncodeIsTheInstruction: an instruction at its greatest operand, and raw data no row matches. -/
theorem witness_DecodeOfEncode : (Instr.sysNnn 0xFFF).WellFormed ∧ Instr.sysNnn 0xFFF ≠ .sysNnn 0x0E0 ∧
    Instr.sysNnn 0xFFF ≠ .sysNnn 0x0EE ∧ (Instr.db 0xFF 0xFF).WellFormed ∧ unmatched (encode (.db 0xFF 0xFF)) = true := by decide

/-- WordsOfBytesPairsOrRejects: an odd and an even sequence, the second with a word 0. -/
theorem witness_WordsOfBytes : [0x12#8].length % 2 = 1 ∧ [0x12#8, 0x34#8].length % 2 = 0 ∧ 0 < [0x1234#16].length := by decide

/-- BytesAndWordsRoundTrip. -/
theorem witness_BytesAndWords : wordsOfBytes [0x12#8, 0x34#8] = .ok [0x1234#16] := by decide

/-- TokenizeReadsTheGrammar: `\tLD  v3 , #2A ` cut into its parts, and a line without operands. -/
theorem witness_TokenizeReadsTheGrammar : (let pieces : List (Text × Text × Text) := [([], ['v', '3'], [' ']), ([' '], ['#', '2', 'A'], [])]
    blanks ['\t'] ∧ blanks [' ', ' '] ∧ blanks [' '] ∧ ['L', 'D'] ≠ [] ∧ (∀ c ∈ ['L', 'D'], isWs c = false) ∧
      (pieces ≠ [] → [' ', ' '] ≠ []) ∧ (∀ p ∈ pieces, blanks p.1 ∧ operandText p.2.1 ∧ blanks p.2.2)) ∧
    tokenize "\tLD  v3 , #2A ".toList = ⟨"LD".toList, [.reg 0x3#4, .hash 0x2A]⟩ ∧ tokenize " CLS ".toList = ⟨"CLS".toList, []⟩ := by
  refine ⟨?_, by decide, by decide⟩
  simp [blanks, operandText, isWs]

/-- LookupByTextFindsTheOneRow, EncodeThenDecodeReturnsTheLine: a line that encodes through a row with no more specific match. -/
theorem witness_EncodeThenDecode : "JP".toList ≠ dbMnemonic ∧
    lookupByText defaultTable "JP".toList [.label 0xFFF] = some rowJpNnn ∧
    encodeLine defaultTable ⟨"JP".toList, [.label 0xFFF]⟩ = .ok 0x1FFF#16 ∧
    (∀ g ∈ defaultTable, g.hits 0x1FFF#16 = true → popcount g.mask ≤ popcount rowJpNnn.mask) ∧
    encodeLine defaultTable ⟨dbMnemonic, [.hash 0xFF, .hash 0xFF]⟩ = .ok 0xFFFF#16 ∧
    lookupByText defaultTable "SYS".toList [.hash 0x0E0] = some rowSysNnn ∧
    encodeLine defaultTable ⟨"SYS".toList, [.hash 0x0E0]⟩ = .ok 0x00E0#16 := by decide

/-- EncodeErrorLadder: each of its four cases has a line. -/
theorem witness_EncodeErrorLadder : "FOO".toList ≠ dbMnemonic ∧ fails "FOO" .unknownInstruction ∧
    fails "LD v1, v2, v3" .operandArityMismatch ∧ fails "DRW v1, v2, #10" .fieldOverflow ∧ encodes "DRW v1, v2, #F" 0xD12F#16 := by
  decide

/-- ImmediateAndRegisterFormsNeverCollide: both forms of `ADD` encode. -/
theorem witness_ImmediateAndRegister : encodeLine defaultTable ⟨"ADD".toList, [.reg 0x1#4, .hash 0xFF]⟩ = .ok 0x71FF#16 ∧
    encodeLine defaultTable ⟨"ADD".toList, [.reg 0x1#4, .reg 0xF#4]⟩ = .ok 0x81F4#16 := by decide

/-- NoneAndAddressLinesEncode: both kinds of address token, and a register other than `v0`. -/
theorem witness_NoneAndAddressLines : (Tok.hash 0xFFF = .hash 0xFFF ∨ Tok.hash 0xFFF = .label 0xFFF) ∧
    (Tok.label 0x1000 = .hash 0x1000 ∨ Tok.label 0x1000 = .label 0x1000) ∧ 0x1#4 ≠ 0x0#4 := by decide

/-- RawDataLinesEncode: a token that is no hash, and a count other than 2. -/
theorem witness_RawDataLines : (∀ v, Tok.bad ≠ .hash v) ∧ [Tok.hash 1].length ≠ 2 :=
  ⟨fun _ h => Tok.noConfusion h, by decide⟩

/-- The Decode statements in `Decoding` (NoneAndAddress, RegisterByte, TwoRegister, DrawKeyTimer, RawData): a self-jump at the
greatest address where one is possible, a jump elsewhere, and raw data. -/
theorem witness_RowsDecode :
    (let s := { presentWord 0x1FFE#16 with addr := 0xFFE }
     s.Presents (.dec 0x1FFE#16) ∧ s.DecReady ∧ s.mode = .decoding ∧ s.addr = 0xFFE ∧ 0xFFE < 0x1000) ∧
    (let s := presentWord 0x1FFF#16
     s.Presents (.dec 0x1FFF#16) ∧ s.DecReady ∧ s.mode = .decoding ∧ 0xFFF < 0x1000 ∧ 0xFF < 0x100 ∧ 0xF < 0x10) := by decide

/-- DataModeRendersEverythingAsData: the self-jump in `DataMode`. -/
theorem witness_DataMode :
    let s := { presentWord 0x1200#16 with mode := .dataMode }
    (Instr.jpNnn 0x200).WellFormed ∧ s.Presents (.dec 0x1200#16) ∧ s.DecReady ∧ s.mode = .dataMode := by decide

/-- DecodeRefusedWithoutRoom: 16-bit counters at 0xFFFE have no room, at 0xFFFC they have. -/
theorem witness_DecodeRefused :
    (let s := { presentWord 0x00E0#16 with addr := 0xFFFE, params := ⟨some 16, .upper⟩ }
     Instr.cls.WellFormed ∧ s.Presents (.dec 0x00E0#16) ∧ ¬s.DecReady ∧ s.params.addrw = some 16 ∧ 2 ≤ 16) ∧
    State.DecReady { presentWord 0x00E0#16 with addr := 0xFFFC, params := ⟨some 16, .upper⟩ } ∧
    (presentWord 0x00E0#16).params.addrw = none := by decide

/-- EveryInstructionEncodes and OversizeOperandTakesFieldOverflow: the greatest address that fits, and one more. -/
theorem witness_Encodes :
    (let s := presentLine "JP LFFF"
     (Instr.jpNnn 0xFFF).WellFormed ∧ s.Presents (.enc (tokenize "JP LFFF".toList)) ∧ s.EncReady) ∧
    (let s := presentLine "JP L1000"
     ¬(Instr.jpNnn 0x1000).WellFormed ∧ s.Presents (.enc (tokenize "JP L1000".toList)) ∧ s.EncReady) := by decide

/-- EncodeRefusedWhileAbortedOrWithoutRoom: aborted, without room, and both. -/
theorem witness_EncodeRefused :
    let line := tokenize "CLS".toList
    (let s := { presentLine "CLS" with ecause := 1#2 }
     s.Presents (.enc line) ∧ s.ecause ≠ 0#2 ∧ hasRoom s.params s.eaddr = true) ∧
    (let s := { presentLine "CLS" with eaddr := 0xFFE, params := ⟨some 12, .upper⟩ }
     s.Presents (.enc line) ∧ s.ecause = 0#2 ∧ hasRoom s.params s.eaddr = false) ∧
    (let s := { presentLine "CLS" with ecause := 3#2, eaddr := 0xFFE, params := ⟨some 12, .upper⟩ }
     s.Presents (.enc line) ∧ s.ecause ≠ 0#2 ∧ hasRoom s.params s.eaddr = false) := by decide

/-- ModelStops: a queue with neither a word nor a line first, an instruction no word encodes, and an empty queue. -/
theorem witness_ModelStops :
    ((presentReset .both).requests.head? = some (.reset .both)) ∧ State.reset.requests = [] ∧
    (¬(Instr.db 0x100 0x00).WellFormed ∧ (presentWord 0x0000#16).Presents (.dec 0x0000#16)) ∧ (presentWord 0x0000#16).requests ≠ [] := by
  decide

/-- StepRunsTheDecodedInstruction, StepRefinesTheTableDrivenBlock: bytes that decode, a line that names an instruction, a table word. -/
theorem witness_StepRuns :
    ((presentWord 0x632A#16).Presents (.dec (wordOfBytes 0x63#8 0x2A#8)) ∧ decode [0x63#8, 0x2A#8] = .ok (.ldXkk 0x3#4 0x2A, []) ∧
      (Instr.ldXkk 0x3#4 0x2A).WellFormed) ∧
    ((presentLine "JP L1000").Presents (.enc (tokenize "JP L1000".toList)) ∧
      selectInstr (tokenize "JP L1000".toList) = .ok (.jpNnn 0x1000)) ∧
    decodeTableWord 16 0x632A = some (.ldXkk 0x3#4 0x2A) := by decide

/-- EncStepEmitsOrTakesTheError: a line for each of the four outcomes. -/
theorem witness_EncStep :
    ((presentLine "RET").EncReady ∧ encodes "RET" 0x00EE#16) ∧ ((presentLine "FOO").EncReady ∧ fails "FOO" .unknownInstruction) ∧
    ((presentLine "LD v1").EncReady ∧ fails "LD v1" .operandArityMismatch) ∧
    ((presentLine "LD v1, #100").EncReady ∧ fails "LD v1, #100" .fieldOverflow) := by decide

/-- DecoderRaisesNothing: both modes, a matched and an unmatched word, with and without room. -/
theorem witness_DecoderRaisesNothing :
    ((presentWord 0x5121#16).mode = .decoding ∧ lookupByWord defaultTable 0x5121#16 = none) ∧
    ((presentWord 0x00E0#16).mode = .decoding ∧ lookupByWord defaultTable 0x00E0#16 = some rowCls) ∧
    State.DecReady { presentWord 0x00E0#16 with mode := .dataMode } ∧
    ¬State.DecReady { presentWord 0x00E0#16 with addr := 0xFFE, params := ⟨some 12, .upper⟩ } := by decide

/-- ModeIsSetOnlyByASelfJump, AddrIsWrittenOnlyByDecStepAndReset, EcauseIsSticky, EaddrCountsEmittedWords, StepFrame,
OnlyResetClears: a step that goes on for every kind of request, in both modes and with and without a recorded error. -/
theorem witness_Steps :
    (after (presentWord 0x1200#16)).isSome = true ∧
    (after { presentWord 0x1200#16 with mode := .dataMode }).isSome = true ∧
    (after (presentReset .both)).isSome = true ∧ (after { presentReset .decOnly with mode := .dataMode }).isSome = true ∧
    (after { presentReset .encOnly with ecause := 1#2 }).isSome = true ∧ (after (presentLine "LD v1")).isSome = true ∧
    (after { presentLine "CLS" with ecause := 1#2 }).isSome = true ∧ (presentLine "CLS").params.addrw = none := by decide

/-- SidesDoNotReadEachOther: two states that differ in the other side's fields only. -/
theorem witness_Sides :
    (sameButEnc (presentWord 0x00E0#16) { presentWord 0x00E0#16 with ecause := 2#2, eaddr := 0x400 } ∧
      (after (presentWord 0x00E0#16)).isSome = true) ∧
    (sameButDec (presentLine "CLS") { presentLine "CLS" with mode := .dataMode, addr := 0x400 } ∧
      (after (presentLine "CLS")).isSome = true) := by decide

/-- ResetWritesItsSideOnly. -/
theorem witness_Reset : (presentReset .both).Presents (.reset .both) ∧ (presentReset .decOnly).Presents (.reset .decOnly) ∧
    (presentReset .encOnly).Presents (.reset .encOnly) := by decide

/-- StepKeepsAddressesLegal and StepKeepsHistory: a state with both invariants that steps. -/
theorem witness_Invariants : (presentWord 0x1200#16).AddressesLegal ∧ (presentWord 0x1200#16).DecHistory ∧
    (presentWord 0x1200#16).EncHistory ∧ (after (presentWord 0x1200#16)).isSome = true := by
  refine ⟨⟨?_, ⟨rfl, by decide, ?_⟩, ⟨rfl, by decide, ?_⟩⟩, by decide, ⟨rfl, .inl ⟨rfl, rfl⟩⟩, by decide⟩ <;>
    (intro n h; cases h)

/-- InvariantsHoldAtReset: a realisation with 16-bit counters is one with at least 12 bits. -/
theorem witness_Params : Params.wf ⟨some 16, .upper⟩ := by
  intro n h
  cases h
  decide

/-- AssembleRunClosedForm, RunsAreSequential, DataModeAfterARun, ReassemblingADisassemblyReturnsTheImage,
MachineRunsAreTheBlocksRuns, InterleavingDoesNotMatter: the default parameters, lines that encode, a line that fails, an even image with a self-jump. -/
theorem witness_Runs : Params.default.addrw = none ∧
    [tokenize "CLS".toList].map (encodeLine defaultTable) = [0x00E0#16].map Except.ok ∧ fails "FOO" .unknownInstruction ∧
    [0x12#8, 0x00#8].length % 2 = 0 ∧ (assembleRun defaultTable Params.default [tokenize "CLS".toList]).1 = .ok [0x00#8, 0xE0#8] ∧
    (disassembleRun defaultTable Params.default [0x1200#16]).1.length = [0x1200#16].length := by decide

end Sys2Proof.Tests
end

section
/-! PROOFS. The word a decoded instruction packs to is the word presented (R67, R71), so that a step on a word is the table-driven
`DecStep` (R69). -/

namespace Sys2Proof.Laws

open Sys2Proof.Machine

/-- R67, R35: the value of a field, put back into the field, is the field's bits of the word. -/
theorem extract_place (f : Field) (w : Word) : BitVec.ofNat 16 (f.extract w) <<< f.offset = w &&& f.mask := by
  simp only [Field.extract, BitVec.ofNat_toNat, BitVec.setWidth_eq, Field.mask]
  ext i hi
  by_cases hlow : i < f.offset
  · simp [hlow]
  · have hback : f.offset + (i - f.offset) = i := by omega
    simp [hlow, hback, BitVec.getLsbD_eq_getElem hi]

/-- R67, R35: packing the extracted values ORs the bound fields' bits of the word into the pattern. -/
theorem packVals_extractVals (slots : List Slot) (w p : Word) :
    packVals p (extractVals slots w) = .ok (p ||| (w &&& fieldBits slots)) := by
  unfold extractVals fieldBits
  induction boundFields slots generalizing p with
  | nil => simp [packVals]
  | cons f fs ih =>
    have hfits : ¬2 ^ f.width ≤ f.extract w := (extract_lt f w).not_ge
    simp only [List.map_cons, packVals, hfits, if_false, ih, extract_place, List.foldr_cons]
    rw [BitVec.or_assoc, ← BitVec.and_or_distrib_left]

/-- R34 WF3, R71: a row that matches a word packs the extracted values to that word again, since mask and fields cover it. -/
theorem packVals_of_hits {f : Format} (hwf : f.wf3) {w : Word} (h : f.hits w = true) :
    packVals f.pattern (extractVals f.slots w) = .ok w := by
  have hpat : w &&& f.mask = f.pattern := by simpa [Format.hits] using h
  rw [packVals_extractVals, ← hpat, ← BitVec.and_or_distrib_left, hwf]
  exact congrArg Except.ok BitVec.and_allOnes

/-- R34 WF3, R36. -/
theorem defaultTable_wf3 : ∀ f ∈ defaultTable, f.wf3 := by decide

/-- R21: the two bytes of a word pack to the word again. -/
theorem packDb_bytes (w : Word) : packDb (highByte w).toNat (lowByte w).toNat = .ok w := by
  have hfits : ¬(0x100 ≤ (highByte w).toNat ∨ 0x100 ≤ (lowByte w).toNat) := by
    have hhi := (highByte w).isLt
    have hlo := (lowByte w).isLt
    omega
  simp only [packDb, hfits, if_false, BitVec.ofNat_toNat]
  congr 1
  ext i hi
  by_cases hlow : i < 8
  · simp [highByte, lowByte, hlow, BitVec.getLsbD_eq_getElem hi]
  · have hback : 8 + (i - 8) = i := by omega
    have hlt : i - 8 < 8 := by omega
    simp [highByte, lowByte, hlow, hback, hlt, BitVec.getLsbD_eq_getElem hi]

/-- The value an instruction's operand hands back for a field of the word: a register field passes through a nibble. -/
def readBack (w : Word) : Field → Nat
  | .x => (BitVec.ofNat 4 (Field.x.extract w)).toNat
  | .y => (BitVec.ofNat 4 (Field.y.extract w)).toNat
  | f => f.extract w

/-- R31, R67: nothing is lost in the nibble, since the field is four bits wide. -/
theorem readBack_eq (w : Word) (f : Field) : readBack w f = f.extract w := by
  cases f with
  | x => exact Nat.mod_eq_of_lt (extract_lt .x w)
  | y => exact Nat.mod_eq_of_lt (extract_lt .y w)
  | n | kk | nnn => rfl

/-- R66: for each of the 35 rows, the extracted values make an instruction of that row with those values. -/
theorem instrOf_extractVals (w : Word) {f : Format} (hf : f ∈ defaultTable) :
    ∃ i, instrOf f.id (extractVals f.slots w) = some i ∧ formOf i = some (f, extractVals f.slots w) := by
  have hvals : extractVals f.slots w = (boundFields f.slots).map fun a => (a, readBack w a) := by
    simp only [extractVals, readBack_eq]
  suffices hrow : ∀ g ∈ defaultTable, ∃ i, instrOf g.id (extractVals g.slots w) = some i ∧
      formOf i = some (g, (boundFields g.slots).map fun a => (a, readBack w a)) by
    simpa only [← hvals] using hrow f hf
  simp only [defaultTable, List.cons_append, List.nil_append, List.forall_mem_cons, List.not_mem_nil, false_implies,
    implies_true, and_true]
  and_intros <;> exact ⟨_, rfl, rfl⟩

end Sys2Proof.Laws
end

section
/-! PROOFS. What one step does, by the request at the head (R9), and what it does to MODE (R13). -/

namespace Sys2Proof.Laws

open Sys2Proof.Machine

/-! ## A step by its request -/

/-- R9: one request stands at the head. -/
theorem presents_iff {s : State} {r : Request} (h : s.Presents r) (q : Request) : s.Presents q ↔ r = q := by
  have hhead : s.requests.head? = some r := h
  rw [State.Presents, hhead, Option.some_inj]

/-- R66, R69: a step on a word is the table-driven `DecStep`, in either mode. -/
theorem step_dec {s : State} {w : Word} (h : s.Presents (.dec w)) : step s = .next (decStep defaultTable w s) := by
  have hstep : step s = exec (decodeWord w) s := by
    obtain ⟨rest, hr⟩ := List.head?_eq_some_iff.1 h
    simp [step, fetch, hr]
  rw [hstep, decStep]
  cases hrow : lookupByWord defaultTable w with
  | none =>
    have hentry : decodeEntry defaultTable s.mode s.addr w = .data s.addr w := by
      cases hm : s.mode <;> simp [decodeEntry, hrow]
    rw [decodeWord_of_none hrow, exec_db, performData_dec h (packDb_bytes w), hentry]
  | some f =>
    obtain ⟨hf, hhits, -⟩ := lookupByWord_some hrow
    obtain ⟨i, hi, hform⟩ := instrOf_extractVals w hf
    have hentry : decodeEntry defaultTable s.mode s.addr w = rowEntry f (extractVals f.slots w) w s := by
      cases hm : s.mode <;> simp [decodeEntry, rowEntry, hrow, hm]
    rw [decodeWord_of_row hrow hi, exec_eq_perform hform, perform_dec h (packVals_of_hits (defaultTable_wf3 f hf) hhits), hentry]

/-- R60: on the ENC side an instruction answers a line with an encoding that no state has a part in. -/
theorem exec_enc (i : Instr) :
    ∃ r, ∀ {s : State} {line : Line}, s.Presents (.enc line) → exec i s = .next (encCommit line r s) := by
  cases hform : formOf i with
  | none =>
    obtain ⟨hh, ll, rfl⟩ := formOf_none hform
    exact ⟨packDb hh ll, fun h => performData_enc h hh ll⟩
  | some form => exact ⟨packVals form.1.pattern form.2, fun h => by rw [exec_eq_perform hform, perform_enc h]⟩

/-- R64: a step on a line commits an encoding that the line alone fixes. -/
theorem step_enc (line : Line) :
    ∃ r, ∀ {s : State}, s.Presents (.enc line) → step s = .next (encCommit line r s) := by
  cases hsel : selectInstr line with
  | error e =>
    refine ⟨.error e, fun {s} h => ?_⟩
    obtain ⟨rest, hr⟩ := List.head?_eq_some_iff.1 h
    simp [step, fetch, hr, hsel, rejectLine]
  | ok i =>
    obtain ⟨r, hexec⟩ := exec_enc i
    refine ⟨r, fun {s} h => ?_⟩
    obtain ⟨rest, hr⟩ := List.head?_eq_some_iff.1 h
    simpa [step, fetch, hr, hsel] using hexec h

/-- R160: a step on a reset request is that reset. -/
theorem step_reset {s : State} {k : ResetKind} (h : s.Presents (.reset k)) : step s = .next (doReset k s) := by
  obtain ⟨rest, hr⟩ := List.head?_eq_some_iff.1 h
  simp [step, fetch, hr, performReset]

/-- R9: everything a step that goes on can do. -/
theorem step_cases {s t : State} (h : step s = .next t) :
    (∃ w, s.Presents (.dec w) ∧ t = decStep defaultTable w s) ∨
    (∃ line r, s.Presents (.enc line) ∧ t = encCommit line r s) ∨
    (∃ k, s.Presents (.reset k) ∧ t = doReset k s) := by
  cases hreq : s.requests.head? with
  | none =>
    have hnil : s.requests = [] := List.head?_eq_none_iff.1 hreq
    simp [step, fetch, hnil] at h
  | some req =>
    cases req with
    | dec w =>
      rw [step_dec hreq] at h
      cases h
      exact .inl ⟨w, hreq, rfl⟩
    | enc line =>
      obtain ⟨r, henc⟩ := step_enc line
      rw [henc hreq] at h
      cases h
      exact .inr (.inl ⟨line, r, hreq, rfl⟩)
    | reset k =>
      rw [step_reset hreq] at h
      cases h
      exact .inr (.inr ⟨k, hreq, rfl⟩)

/-! ## MODE after a step -/

/-- R13: no encode operation writes MODE. -/
@[simp] theorem encCommit_mode (line : Line) (r : Except EncErr Word) (s : State) : (encCommit line r s).mode = s.mode := by
  rcases encCommit_cases line r s with ⟨-, w, -, h⟩ | ⟨-, e, -, h⟩ | ⟨-, h⟩ <;> simp [h]

/-- R13: no encode operation reads MODE. -/
theorem encCommit_withMode (line : Line) (r : Except EncErr Word) (s : State) (m : Mode) :
    { encCommit line r { s with mode := m } with mode := (encCommit line r s).mode } = encCommit line r s := by
  have hsame : encRefusals { s with mode := m } = encRefusals s := rfl
  unfold encCommit
  rw [hsame]
  cases encRefusals s with
  | cons a as => rfl
  | nil => cases r <;> rfl

/-- R160: a reset of the DEC side clears MODE, a reset of the ENC side alone keeps it. -/
@[simp] theorem doReset_mode (k : ResetKind) (s : State) : (doReset k s).mode = if k = .encOnly then s.mode else .decoding := by
  cases k <;> rfl

/-- R13: but for MODE itself, a reset does the same from any MODE. -/
theorem doReset_withMode (k : ResetKind) (s : State) (m : Mode) :
    { doReset k { s with mode := m } with mode := (doReset k s).mode } = doReset k s := by
  cases k <;> rfl

/-- R69, R154: a `DecStep` that is performed takes MODE on by the entry, a refused one keeps it. -/
theorem decStep_mode (t : Table) (w : Word) (s : State) :
    (decStep t w s).mode = if s.DecReady then nextMode s.mode s.addr (decodeEntry t s.mode s.addr w) else s.mode := by
  rcases decCommit_cases (decodeEntry t s.mode s.addr w) s with ⟨hr, h⟩ | ⟨hr, h⟩ <;> simp [decStep, h, hr]

/-- R13: nothing a `DecStep` does leads back from `DataMode`. -/
theorem decStep_mode_of_dataMode {s : State} (hm : s.mode = .dataMode) (t : Table) (w : Word) : (decStep t w s).mode = .dataMode := by
  simp [decStep_mode, hm, nextMode_dataMode]

/-- R13, R69: from `Decoding` a `DecStep` sets MODE exactly when it is performed and its entry is a self-jump. -/
theorem decStep_mode_of_decoding {s : State} (hm : s.mode = .decoding) (t : Table) (w : Word) :
    (decStep t w s).mode = .dataMode ↔ s.DecReady ∧ isSelfJump s.addr (decodeEntry t .decoding s.addr w) = true := by
  rw [decStep_mode, hm]
  split_ifs with hr
  · rw [nextMode_decoding, and_iff_right hr]
  · simp [hr]

/-! ## The self-jump as an instruction -/

/-- R36: `JP nnn` is the instruction of row `JP_NNN` with that target, and of no other row. -/
theorem instrOf_eq_jpNnn (id : RowId) (vals : Vals) (nnn : Nat) :
    instrOf id vals = some (.jpNnn nnn) ↔ id = .jpNnn ∧ valueOf vals .nnn = nnn := by
  cases id <;> simp [instrOf]

/-- R69 (D17): the entry of a word is a self-jump exactly when the word decodes to `JP nnn` with `nnn` equal to ADDR. -/
theorem isSelfJump_decodeEntry (addr : Nat) (w : Word) :
    isSelfJump addr (decodeEntry defaultTable .decoding addr w) = true ↔ decodeWord w = .jpNnn addr := by
  cases hrow : lookupByWord defaultTable w with
  | none => simp [decodeEntry, hrow, isSelfJump, decodeWord_of_none hrow]
  | some f =>
    obtain ⟨i, hi, -⟩ := instrOf_extractVals w (lookupByWord_some hrow).1
    calc isSelfJump addr (decodeEntry defaultTable .decoding addr w) = true
      _ ↔ f.id = .jpNnn ∧ valueOf (extractVals f.slots w) .nnn = addr := by simp [decodeEntry, hrow, isSelfJump]
      _ ↔ instrOf f.id (extractVals f.slots w) = some (.jpNnn addr) := (instrOf_eq_jpNnn _ _ _).symm
      _ ↔ decodeWord w = .jpNnn addr := by rw [hi, decodeWord_of_row hrow hi, Option.some.injEq]

end Sys2Proof.Laws
end

section
/-! PROOFS. MODE: set by the self-jump alone, cleared by reset alone, read by `DecStep` alone (R13). -/

namespace Sys2Proof.Laws

open Sys2Proof.Machine

/-- R13: the one event that sets MODE. -/
theorem step_sets_mode {s t : State} (h : step s = .next t) (hm : s.mode = .decoding) :
    t.mode = .dataMode ↔ s.DecReady ∧ ∃ w nnn, s.Presents (.dec w) ∧ decodeWord w = .jpNnn nnn ∧ nnn = s.addr := by
  rcases step_cases h with ⟨w, hp, rfl⟩ | ⟨line, r, hp, rfl⟩ | ⟨k, hp, rfl⟩
  · simp [presents_iff hp, decStep_mode_of_decoding hm, isSelfJump_decodeEntry]
  · simp [presents_iff hp, hm]
  · simp [presents_iff hp, hm]

/-- R13, R160: the one event that clears MODE. -/
theorem step_clears_mode {s t : State} (h : step s = .next t) (hm : s.mode = .dataMode) :
    t.mode = .decoding ↔ s.Presents (.reset .both) ∨ s.Presents (.reset .decOnly) := by
  rcases step_cases h with ⟨w, hp, rfl⟩ | ⟨line, r, hp, rfl⟩ | ⟨k, hp, rfl⟩
  · simp [presents_iff hp, decStep_mode_of_dataMode hm]
  · simp [presents_iff hp, hm]
  · cases k <;> simp [presents_iff hp, hm]

/-- R13, R66: in `DataMode` a performed `DecStep` delivers a Data Entry and stays there. -/
theorem step_dec_of_dataMode {s : State} {w : Word} (hm : s.mode = .dataMode) (hp : s.Presents (.dec w)) (hr : s.DecReady) :
    step s = .next (s.afterDec .dataMode (.data s.addr w) (render s.params.hexcase (.data s.addr w))) := by
  rw [step_dec hp, decStep, decCommit_ready hr, hm]
  rfl

/-- R13: a step on a line keeps MODE. -/
theorem step_enc_mode {s t : State} {line : Line} (hp : s.Presents (.enc line)) (h : step s = .next t) : t.mode = s.mode := by
  obtain ⟨r, henc⟩ := step_enc line
  rw [henc hp] at h
  cases h
  exact encCommit_mode line r s

/-- R13: a step that is not on a word does not read MODE. -/
theorem step_withMode {s t : State} (hp : ∀ w, ¬s.Presents (.dec w)) (h : step s = .next t) (m : Mode) :
    ∃ u, step { s with mode := m } = .next u ∧ { u with mode := t.mode } = t := by
  rcases step_cases h with ⟨w, hw, -⟩ | ⟨line, -, hl, -⟩ | ⟨k, hk, rfl⟩
  · exact absurd hw (hp w)
  · obtain ⟨r, henc⟩ := step_enc line
    obtain rfl : encCommit line r s = t := by simpa [henc hl] using h
    exact ⟨_, henc hl, encCommit_withMode line r s m⟩
  · exact ⟨_, step_reset hk, doReset_withMode k s m⟩

/-- Settles O44: from what a step does by its request, and what each of the three does to MODE. -/
theorem modeIsSetOnlyByASelfJump : Obligations.ModeIsSetOnlyByASelfJump :=
  ⟨rfl, fun _ _ h hm => step_sets_mode h hm, fun _ _ h hm => step_clears_mode h hm,
    fun _ _ hm hp hr => step_dec_of_dataMode hm hp hr, fun _ _ _ hp h => step_enc_mode hp h,
    fun _ _ m hp h => step_withMode hp h m⟩

end Sys2Proof.Laws
end

section
/-! PROOFS. Bytes and words: the byte order of R21, in an image and in what a run emits. -/

namespace Sys2Proof.Laws

open Sys2Proof.Machine

/-- R22, R63: a `db` line packs two bytes to the word the byte adapter reads them as. -/
theorem packDb_toNat (hi lo : Byte) : packDb hi.toNat lo.toNat = .ok (wordOfBytes hi lo) := by
  have hfits : ¬(0x100 ≤ hi.toNat ∨ 0x100 ≤ lo.toNat) := by
    have hhi := hi.isLt
    have hlo := lo.isLt
    omega
  simp only [packDb, hfits, if_false, BitVec.ofNat_toNat, wordOfBytes]

/-- R21: the two bytes of a word, read in, are the word again. -/
theorem wordOfBytes_highByte_lowByte (w : Word) : wordOfBytes (highByte w) (lowByte w) = w :=
  Except.ok.inj ((packDb_toNat _ _).symm.trans (packDb_bytes w))

/-- R22: two bytes are one word. -/
theorem wordsOfBytes_pair (hi lo : Byte) : wordsOfBytes [hi, lo] = .ok [wordOfBytes hi lo] := rfl

/-- R23: the bytes of one word, the high one first. -/
theorem bytesOfWords_singleton (w : Word) : bytesOfWords [w] = [highByte w, lowByte w] := rfl

/-- R65: a run over one line that encodes yields the two bytes of its word, the high one first. -/
theorem assembleRun_singleton {t : Table} {p : Params} {line : Line} {w : Word} (hroom : hasRoom p loadAddr = true)
    (hw : encodeLine t line = .ok w) : (assembleRun t p [line]).1 = .ok [highByte w, lowByte w] := by
  have hready : (startState p).EncReady := ⟨rfl, hroom⟩
  rw [assembleRun, assembleFrom_ok [] 0 hready hw]
  rfl

/-- Settles O14: the two bytes read in are the word again, and the examples are runs over one line. -/
theorem byteOrderIsBigEndian : Obligations.ByteOrderIsBigEndian := by
  have hroom : hasRoom Params.default loadAddr = true := hasRoom_unbounded rfl loadAddr
  have hld : encodeLine defaultTable (tokenize "LD v3, #2A".toList) = .ok 0x632A#16 := by decide
  have hcls : encodeLine defaultTable (tokenize "CLS".toList) = .ok 0x00E0#16 := by decide
  have hdb : encodeLine defaultTable (tokenize "db #12, #34".toList) = .ok 0x1234#16 := by decide
  refine ⟨fun w => ⟨bytesOfWords_singleton w, ?readIn⟩, fun w s => ⟨s.results, emitWord_results w s⟩,
    assembleRun_singleton hroom hld, assembleRun_singleton hroom hcls, assembleRun_singleton hroom hdb⟩
  case readIn =>
    calc wordsOfBytes [highByte w, lowByte w]
      _ = .ok [wordOfBytes (highByte w) (lowByte w)] := wordsOfBytes_pair _ _
      _ = .ok [w] := by rw [wordOfBytes_highByte_lowByte]

end Sys2Proof.Laws
end

section
/-! PROOFS. The lookup by text: the row R45 describes, and why WF5 leaves room for one only. -/

namespace Sys2Proof.Laws

open Sys2Proof.Machine

/-- R44: the slots that accept some token of this kind; for a pseudo-register, of this name. -/
def slotsOfKind : Tok → List Slot
  | .reg _ => [.X, .Y, .V0]
  | .hash _ => [.KK, .N, .NNN]
  | .label _ => [.NNN]
  | .pseudo p => [.P p]
  | .bad => []

/-- R44: a slot that accepts a token is one of its kind's. -/
theorem mem_slotsOfKind {s : Slot} {tok : Tok} (h : accepts s tok = true) : s ∈ slotsOfKind tok := by
  revert h
  fun_cases accepts s tok <;> simp [slotsOfKind]

/-- R44: any two slots of one kind have a token in common: `v0`, any hash, a label, the one name. -/
theorem overlaps_of_sameKind (tok : Tok) : ∀ a ∈ slotsOfKind tok, ∀ b ∈ slotsOfKind tok, a.overlaps b = true := by
  cases tok <;> simp [slotsOfKind, Slot.overlaps]

/-- R45: `acceptsAll` is acceptance position by position. -/
theorem acceptsAll_iff (ss : List Slot) (ts : List Tok) :
    acceptsAll ss ts = true ↔ List.Forall₂ (fun slot tok => accepts slot tok = true) ss ts := by
  induction ss generalizing ts with
  | nil => cases ts <;> simp [acceptsAll]
  | cons s ss ih => cases ts <;> simp [acceptsAll, ih]

/-- R34 WF5: two slot lists that accept one token list overlap. -/
theorem slotsOverlap_of_acceptsAll {as bs : List Slot} {ts : List Tok} (ha : acceptsAll as ts = true)
    (hb : acceptsAll bs ts = true) : slotsOverlap as bs = true := by
  rw [acceptsAll_iff] at ha hb
  induction ha generalizing bs with
  | nil =>
    cases hb
    rfl
  | cons hslot _ ih =>
    cases hb with
    | cons hslot' hrest =>
      have hhead := overlaps_of_sameKind _ _ (mem_slotsOfKind hslot) _ (mem_slotsOfKind hslot')
      simp [slotsOverlap, hhead, ih hrest]

/-- R45, R34 WF5: where no two rows share a line, the row found is the row that qualifies, wherever it stands in the table. -/
theorem lookupByText_iff {t : Table} (hwf5 : t.Pairwise fun f g => textOverlap f g = false) {mn : Text} {ops : List Tok}
    {f : Format} : lookupByText t mn ops = some f ↔ f ∈ t ∧ f.mnemonic = mn ∧ acceptsAll f.slots ops = true := by
  refine ⟨lookupByText_some, fun ⟨hmem, hmn, hops⟩ => ?_⟩
  obtain ⟨before, after, rfl⟩ := List.append_of_mem hmem
  obtain ⟨-, -, hapart⟩ := List.pairwise_append.1 hwf5
  have hbefore : ∀ g ∈ before, ¬(g.mnemonic = mn ∧ acceptsAll g.slots ops = true) := by
    rintro g hg ⟨hgmn, hgops⟩
    have hshared : textOverlap g f = true := by
      simp [textOverlap, hgmn, hmn, slotsOverlap_of_acceptsAll hgops hops]
    exact Bool.false_ne_true ((hapart g hg f List.mem_cons_self).symm.trans hshared)
  rw [lookupByText, List.find?_eq_some_iff_append]
  exact ⟨by simp [hmn, hops], before, after, rfl, fun g hg => by simpa [or_iff_not_imp_left] using hbefore g hg⟩

/-- Settles O18: WF5 makes the first row that qualifies the only one, and acceptance fixes the count. -/
theorem lookupByTextFindsTheOneRow : Obligations.LookupByTextFindsTheOneRow := by
  intro t ⟨_, hwf5, _⟩ mn ops f
  rw [lookupByText_iff hwf5, acceptsAll_iff]
  constructor
  · rintro ⟨hmem, hmn, hops⟩
    exact ⟨hmem, hmn, hops.length_eq, hops⟩
  · rintro ⟨hmem, hmn, -, hops⟩
    exact ⟨hmem, hmn, hops⟩

end Sys2Proof.Laws
end

section
/-! PROOFS. Packing read back: what `packVals` leaves of the pattern and puts into each field (R35), by the disjointness of WF2. -/

namespace Sys2Proof.Laws

open Sys2Proof.Machine

/-! ## One value in its field -/

/-- R35: a value shifted to the offset of its field. -/
def placed (f : Field) (v : Nat) : Word := BitVec.ofNat 16 v <<< f.offset

/-- R31: every field lies in the word. -/
theorem offset_add_width_le (f : Field) : f.offset + f.width ≤ 16 := by
  cases f <;> decide

/-- R35: a value that fits its field loses nothing by the shift. -/
theorem placed_toNat {f : Field} {v : Nat} (hv : v < 2 ^ f.width) : (placed f v).toNat = v * 2 ^ f.offset := by
  have hroom : v * 2 ^ f.offset < 2 ^ 16 :=
    calc v * 2 ^ f.offset
      _ < 2 ^ f.width * 2 ^ f.offset := Nat.mul_lt_mul_of_pos_right hv (Nat.two_pow_pos _)
      _ = 2 ^ (f.offset + f.width) := by rw [← pow_add, Nat.add_comm]
      _ ≤ 2 ^ 16 := Nat.pow_le_pow_right (by decide) (offset_add_width_le f)
  rw [placed, BitVec.toNat_shiftLeft, BitVec.toNat_ofNat, Nat.shiftLeft_eq, Nat.mod_mul_mod, Nat.mod_eq_of_lt hroom]

/-- R31, R67: extraction as arithmetic on the word. -/
theorem extract_eq (f : Field) (w : Word) : f.extract w = w.toNat / 2 ^ f.offset % 2 ^ f.width := by
  have hones : (BitVec.ofNat 16 (2 ^ f.width - 1)).toNat = 2 ^ f.width - 1 := by cases f <;> rfl
  rw [Field.extract, BitVec.toNat_and, hones, Nat.and_two_pow_sub_one_eq_mod, BitVec.toNat_ushiftRight,
    Nat.shiftRight_eq_div_pow]

/-- R35, R67: the value placed in a field is the value extracted from it. -/
theorem extract_placed {f : Field} {v : Nat} (hv : v < 2 ^ f.width) : f.extract (placed f v) = v := by
  rw [extract_eq, placed_toNat hv, Nat.mul_div_cancel _ (Nat.two_pow_pos _), Nat.mod_eq_of_lt hv]

/-- R35: a value that fits its field sets no bit outside it. -/
theorem placed_and_mask {f : Field} {v : Nat} (hv : v < 2 ^ f.width) : placed f v &&& f.mask = placed f v := by
  rw [← extract_place, extract_placed hv, placed]

/-- R67: extraction is determined by the field's bits. -/
theorem extract_of_and_mask {f : Field} {v : Nat} (hv : v < 2 ^ f.width) {w : Word} (h : w &&& f.mask = placed f v) :
    f.extract w = v := by
  have hsame : (placed f (f.extract w)).toNat = (placed f v).toNat := congrArg BitVec.toNat ((extract_place f w).trans h)
  rw [placed_toNat (extract_lt f w), placed_toNat hv] at hsame
  exact Nat.eq_of_mul_eq_mul_right (Nat.two_pow_pos _) hsame

/-- Bits that lie within `a` miss whatever `a` misses. -/
theorem and_eq_zero_of_within {u a m : Word} (hu : u &&& a = u) (ha : a &&& m = 0#16) : u &&& m = 0#16 := by
  rw [← hu, BitVec.and_assoc, ha, BitVec.and_zero]

/-! ## All values in their fields -/

/-- R35: packing goes on past the first value exactly when it fits. -/
theorem packVals_cons_ok {p w : Word} {v : Field × Nat} {vals : Vals} :
    packVals p (v :: vals) = .ok w ↔ v.2 < 2 ^ v.1.width ∧ packVals (p ||| placed v.1 v.2) vals = .ok w := by
  by_cases hv : 2 ^ v.1.width ≤ v.2
  · simp [packVals, hv]
  · simp [packVals, placed, hv, Nat.not_le.1 hv]

/-- R35: packing leaves the bits that no field covers. -/
theorem packVals_and_of_disjoint {vals : Vals} {p w m : Word} (hw : packVals p vals = .ok w)
    (hm : ∀ a ∈ vals.map Prod.fst, a.mask &&& m = 0#16) : w &&& m = p &&& m := by
  induction vals generalizing p with
  | nil =>
    cases hw
    rfl
  | cons v vals ih =>
    obtain ⟨hfits, hrest⟩ := packVals_cons_ok.1 hw
    obtain ⟨hv, hvals⟩ := List.forall_mem_cons.1 hm
    have hclear : placed v.1 v.2 &&& m = 0#16 := and_eq_zero_of_within (placed_and_mask hfits) hv
    rw [ih hrest hvals, BitVec.and_or_distrib_right, hclear, BitVec.or_zero]

/-- R35: packing into disjoint fields that start clear puts exactly the given value into each. -/
theorem packVals_and_mask {vals : Vals} {p w : Word} (hw : packVals p vals = .ok w)
    (hdisj : (vals.map Prod.fst).Pairwise fun a b => a.mask &&& b.mask = 0#16)
    (hclear : ∀ a ∈ vals.map Prod.fst, p &&& a.mask = 0#16) :
    ∀ v ∈ vals, v.2 < 2 ^ v.1.width ∧ w &&& v.1.mask = placed v.1 v.2 := by
  induction vals generalizing p with
  | nil => simp
  | cons u vals ih =>
    obtain ⟨hfits, hrest⟩ := packVals_cons_ok.1 hw
    obtain ⟨hu, hvals⟩ := List.pairwise_cons.1 hdisj
    obtain ⟨hpu, hpvals⟩ := List.forall_mem_cons.1 hclear
    refine List.forall_mem_cons.2 ⟨⟨hfits, ?newField⟩, ih hrest hvals ?oldFields⟩
    case newField =>
      rw [packVals_and_of_disjoint hrest fun a ha => (BitVec.and_comm _ _).trans (hu a ha), BitVec.and_or_distrib_right, hpu,
        BitVec.zero_or, placed_and_mask hfits]
    case oldFields =>
      intro a ha
      rw [BitVec.and_or_distrib_right, hpvals a ha, and_eq_zero_of_within (placed_and_mask hfits) (hu a ha), BitVec.or_zero]

/-! ## A row of a well-formed table -/

/-- R34 WF2: what misses all the fields' bits misses each field. -/
theorem mask_and_eq_zero_of_fieldBits {slots : List Slot} {m : Word} (h : fieldBits slots &&& m = 0#16) :
    ∀ a ∈ boundFields slots, a.mask &&& m = 0#16 := by
  unfold fieldBits at h
  generalize boundFields slots = fields at h ⊢
  induction fields with
  | nil => simp
  | cons a as ih =>
    rw [List.foldr_cons, BitVec.and_or_distrib_right, BitVec.or_eq_zero_iff] at h
    exact List.forall_mem_cons.2 ⟨h.1, ih h.2⟩

/-- R34 WF1: the pattern lies within the mask. -/
theorem pattern_and_mask {f : Format} (hwf1 : f.wf1) : f.pattern &&& f.mask = f.pattern := by
  calc f.pattern &&& f.mask
    _ = f.pattern &&& f.mask ||| f.pattern &&& ~~~f.mask := by rw [hwf1, BitVec.or_zero]
    _ = f.pattern := by rw [← BitVec.and_or_distrib_left, BitVec.or_not_self, BitVec.and_allOnes]

/-- R34 WF1, WF2, R35: a word packed through a row is matched by the row. -/
theorem hits_of_packVals {f : Format} (hwf1 : f.wf1) (hwf2 : f.wf2) {vals : Vals} (hvals : vals.map Prod.fst = boundFields f.slots)
    {w : Word} (hw : packVals f.pattern vals = .ok w) : f.hits w = true := by
  have hfixed : w &&& f.mask = f.pattern &&& f.mask :=
    packVals_and_of_disjoint hw (hvals ▸ mask_and_eq_zero_of_fieldBits hwf2.2)
  simp [Format.hits, hfixed, pattern_and_mask hwf1]

/-- R34 WF1, WF2, R35: each field of a word packed through a row holds the value given for it. -/
theorem extract_of_packVals {f : Format} (hwf1 : f.wf1) (hwf2 : f.wf2) {vals : Vals}
    (hvals : vals.map Prod.fst = boundFields f.slots) {w : Word} (hw : packVals f.pattern vals = .ok w) :
    ∀ v ∈ vals, v.1.extract w = v.2 := by
  obtain ⟨hdisj, hmask⟩ := hwf2
  have hclear : ∀ a ∈ boundFields f.slots, f.pattern &&& a.mask = 0#16 := fun a ha =>
    and_eq_zero_of_within (pattern_and_mask hwf1) ((BitVec.and_comm _ _).trans (mask_and_eq_zero_of_fieldBits hmask a ha))
  rw [← hvals] at hdisj hclear
  intro v hv
  obtain ⟨hfits, hfield⟩ := packVals_and_mask hw hdisj hclear v hv
  exact extract_of_and_mask hfits hfield

/-- R67: the extracted values are the given ones when each field holds its value. -/
theorem extractVals_eq {slots : List Slot} {vals : Vals} (hvals : vals.map Prod.fst = boundFields slots) {w : Word}
    (h : ∀ v ∈ vals, v.1.extract w = v.2) : extractVals slots w = vals := by
  calc extractVals slots w
    _ = vals.map fun v => (v.1, v.1.extract w) := by rw [extractVals, ← hvals, List.map_map, Function.comp_def]
    _ = vals.map id := List.map_congr_left fun v hv => Prod.ext rfl (h v hv)
    _ = vals := vals.map_id

/-! ## A jump to an address -/

/-- R60: a line whose row is found packs the values it binds into the row's pattern. -/
theorem encodeLine_of_lookup {t : Table} {line : Line} (hdb : line.mn ≠ dbMnemonic) {f : Format}
    (h : lookupByText t line.mn line.ops = some f) :
    encodeLine t line = packVals f.pattern (bindVals f.slots line.ops) := by
  rw [encodeLine_row hdb, selectRow_ok.2 h]

/-- R103: `JP` with one address is row `JP_NNN`, whatever the address. -/
theorem encodeLine_jp {tok : Tok} (h : accepts .NNN tok = true) :
    encodeLine defaultTable ⟨"JP".toList, [tok]⟩ = packVals 0x1000#16 [(.nnn, tokenValue tok)] := by
  have hrow : lookupByText defaultTable "JP".toList [tok] = some rowJpNnn := by
    cases tok with
    | hash v | label v => rfl
    | reg i | pseudo p | bad => cases h
  have hdb : "JP".toList ≠ dbMnemonic := by decide
  exact encodeLine_of_lookup (line := ⟨_, [tok]⟩) hdb hrow

/-- R35, R143 (C1): `JP` with an address of more than 12 bits is rejected. -/
theorem encodeLine_jp_overflow {tok : Tok} (h : accepts .NNN tok = true) (hv : 0x1000 ≤ tokenValue tok) :
    encodeLine defaultTable ⟨"JP".toList, [tok]⟩ = .error .fieldOverflow := by
  rw [encodeLine_jp h]
  exact packVals_overflow _ ⟨_, List.mem_singleton_self _, hv⟩

/-- Settles O6: WF1 and WF2 keep pattern and fields apart, so that packing changes nothing it should not. -/
theorem operandAssembly : Obligations.OperandAssembly := by
  refine ⟨fun t ht f hf vals hvals => ⟨fun hfits => ?fit, packVals_overflow _⟩, ?jump,
    fun v hv => ⟨encodeLine_jp_overflow rfl hv, encodeLine_jp_overflow rfl hv⟩⟩
  case fit =>
    obtain ⟨hwf1, hwf2, -⟩ := ht.1 f hf
    have hpack := packVals_ok f.pattern hfits
    have hback := extract_of_packVals hwf1 hwf2 hvals hpack
    exact ⟨_, hpack, rfl, fun v hv => (hback v hv).symm.trans (extract_eq _ _), extractVals_eq hvals hback,
      hits_of_packVals hwf1 hwf2 hvals hpack⟩
  case jump =>
    rw [encodeLine_jp rfl, tokenValue, pack_nnn _ _ (by decide)]
    rfl

end Sys2Proof.Laws
end

section
/-! PROOFS. The row of a line and the row of a word: what encoding through a row leaves in the word (R35, R45), and which row a word
finds (R37, R66). -/

namespace Sys2Proof.Laws

open Sys2Proof.Machine

/-! ## The row found by text -/

/-- R44: the slots of a row bind its fields, whatever the tokens. -/
theorem bindVals_fst {slots : List Slot} {ops : List Tok} (h : acceptsAll slots ops = true) :
    (bindVals slots ops).map Prod.fst = boundFields slots := by
  calc (bindVals slots ops).map Prod.fst
    _ = (slots.zip ops).filterMap (Slot.field ∘ Prod.fst) := by simp [bindVals, List.map_filterMap, Function.comp_def]
    _ = ((slots.zip ops).map Prod.fst).filterMap Slot.field := List.filterMap_map.symm
    _ = boundFields slots := by rw [List.map_fst_zip (acceptsAll_length h).le, boundFields]

/-- R34 WF7, R45: no row is found for a `db` line. -/
theorem ne_db_of_lookup {t : Table} (ht : t.WellFormed) {mn : Text} {ops : List Tok} {f : Format}
    (h : lookupByText t mn ops = some f) : mn ≠ dbMnemonic := by
  obtain ⟨hmem, rfl, -⟩ := lookupByText_some h
  obtain ⟨-, -, -, -, hdb⟩ := ht.1 f hmem
  exact hdb

/-- R60, R35: a word encoded through a row is matched by the row, and its fields hold the line's values. -/
theorem encoded_word_of_lookup {t : Table} (ht : t.WellFormed) {line : Line} {f : Format} {w : Word}
    (hrow : lookupByText t line.mn line.ops = some f) (hw : encodeLine t line = .ok w) :
    f.hits w = true ∧ extractVals f.slots w = bindVals f.slots line.ops := by
  rw [encodeLine_of_lookup (ne_db_of_lookup ht hrow) hrow] at hw
  obtain ⟨hmem, -, hops⟩ := lookupByText_some hrow
  obtain ⟨hwf1, hwf2, -⟩ := ht.1 f hmem
  have hfields := bindVals_fst hops
  exact ⟨hits_of_packVals hwf1 hwf2 hfields hw, extractVals_eq hfields (extract_of_packVals hwf1 hwf2 hfields hw)⟩

/-! ## The row found by word -/

/-- R34 WF6: the test on two rows does not look at their order. -/
theorem wordOverlap_comm (f g : Format) : wordOverlap f g = wordOverlap g f := by
  rw [wordOverlap, wordOverlap, BitVec.xor_comm, BitVec.and_assoc, BitVec.and_assoc, BitVec.and_comm f.mask]

/-- R34 WF6: two rows of a well-formed table that match one word with equally many fixed bits are one row. -/
theorem eq_of_hits_of_popcount_eq {t : Table} (ht : t.WellFormed) {f g : Format} (hf : f ∈ t) (hg : g ∈ t) {w : Word}
    (hfw : f.hits w = true) (hgw : g.hits w = true) (hpop : popcount f.mask = popcount g.mask) : f = g := by
  obtain ⟨-, -, hwf6⟩ := ht
  have hsymm : Std.Symm fun f g => wordOverlap f g = true → popcount f.mask ≠ popcount g.mask :=
    ⟨fun f g h hover => (h (wordOverlap_comm f g ▸ hover)).symm⟩
  by_contra hne
  exact hwf6.forall hf hg hne (hits_overlap hfw hgw) hpop

/-- R37: a matching row with the most fixed bits is the row found. -/
theorem lookupByWord_eq_of_most_specific {t : Table} (ht : t.WellFormed) {f : Format} (hf : f ∈ t) {w : Word}
    (hfw : f.hits w = true) (hmost : ∀ g ∈ t, g.hits w = true → popcount g.mask ≤ popcount f.mask) :
    lookupByWord t w = some f := by
  cases hfound : lookupByWord t w with
  | none => exact absurd hfw (by simp [lookupByWord_none.1 hfound f hf])
  | some g =>
    obtain ⟨hg, hgw, hgmost⟩ := lookupByWord_some hfound
    exact congrArg some (eq_of_hits_of_popcount_eq ht hg hf hgw hfw ((hmost g hg hgw).antisymm (hgmost f hf hfw)))

/-- R66, R67: a word with a row is that row's Code Entry. -/
theorem decodeEntry_of_row {t : Table} {w : Word} {f : Format} (h : lookupByWord t w = some f) (addr : Nat) :
    decodeEntry t .decoding addr w = .code addr f (extractVals f.slots w) := by
  simp only [decodeEntry, h]

/-- R66, R136: a word without a row is a Data Entry. -/
theorem decodeEntry_of_no_row {t : Table} {w : Word} (h : lookupByWord t w = none) (addr : Nat) :
    decodeEntry t .decoding addr w = .data addr w := by
  simp only [decodeEntry, h]

/-! ## The default table -/

/-- R34, R36: WF1 to WF7 of the 35 rows. -/
theorem defaultTable_wellFormed : Table.WellFormed defaultTable := by decide

/-- R45, R34 WF5: in the default table a row is found for any tokens its slots accept. -/
theorem lookupByText_defaultTable {f : Format} (hf : f ∈ defaultTable) {ops : List Tok} (hops : acceptsAll f.slots ops = true) :
    lookupByText defaultTable f.mnemonic ops = some f :=
  (lookupByText_iff defaultTable_wellFormed.2.1).2 ⟨hf, rfl, hops⟩

end Sys2Proof.Laws
end

section
/-! PROOFS. Encoding a line and decoding its word: the row and the values come back, but where a more specific row takes the word
(R38, R72). -/

namespace Sys2Proof.Laws

open Sys2Proof.Machine

/-- R72: a line whose word no more specific row matches comes back as its row with its values. -/
theorem decodeEntry_of_encodeLine {t : Table} (ht : t.WellFormed) {line : Line} {f : Format} {w : Word}
    (hrow : lookupByText t line.mn line.ops = some f) (hw : encodeLine t line = .ok w)
    (hmost : ∀ g ∈ t, g.hits w = true → popcount g.mask ≤ popcount f.mask) (addr : Nat) :
    decodeEntry t .decoding addr w = .code addr f (bindVals f.slots line.ops) := by
  obtain ⟨hhits, hvals⟩ := encoded_word_of_lookup ht hrow hw
  rw [decodeEntry_of_row (lookupByWord_eq_of_most_specific ht (lookupByText_some hrow).1 hhits hmost), hvals]

/-! ## Raw data -/

/-- R21: the number of the word of two bytes. -/
theorem wordOfBytes_toNat (hi lo : Byte) : (wordOfBytes hi lo).toNat = 256 * hi.toNat + lo.toNat := by
  have hroom : hi.toNat * 2 ^ 8 < 2 ^ 16 := by
    have hhi := hi.isLt
    omega
  rw [wordOfBytes, BitVec.toNat_or, BitVec.toNat_shiftLeft, BitVec.toNat_setWidth_of_le (by decide),
    BitVec.toNat_setWidth_of_le (by decide), Nat.shiftLeft_eq, Nat.mod_eq_of_lt hroom, Nat.mul_comm]
  exact (Nat.two_pow_add_eq_or_of_lt lo.isLt hi.toNat).symm

/-- R63: the word of a `db` line that encodes, as a number. -/
theorem packDb_ok_toNat {hi lo : Nat} {w : Word} (h : packDb hi lo = .ok w) : w.toNat = 256 * hi + lo := by
  by_cases hover : 0x100 ≤ hi ∨ 0x100 ≤ lo
  · simp [packDb, hover] at h
  · have hhi : (BitVec.ofNat 8 hi).toNat = hi := Nat.mod_eq_of_lt (by omega)
    have hlo : (BitVec.ofNat 8 lo).toNat = lo := Nat.mod_eq_of_lt (by omega)
    rw [← hhi, ← hlo, packDb_toNat] at h
    cases h
    rw [wordOfBytes_toNat, hhi, hlo]

/-! ## The default table -/

/-- R38: the rows of the default table that a more specific one overlaps: `SYS`, by `CLS` and `RET`. -/
theorem defaultTable_more_specific : ∀ f ∈ defaultTable, ∀ g ∈ defaultTable, wordOverlap f g = true →
    popcount f.mask < popcount g.mask → f = rowSysNnn ∧ (g = rowCls ∨ g = rowRet) := by decide

/-- R44: one address slot accepts one hash or one label. -/
theorem acceptsAll_address {ops : List Tok} (h : acceptsAll [.NNN] ops = true) : ∃ v, ops = [.hash v] ∨ ops = [.label v] := by
  match ops, h with
  | [.hash v], _ => exact ⟨v, .inl rfl⟩
  | [.label v], _ => exact ⟨v, .inr rfl⟩

/-- R102, R38: a `SYS` line carries the address that its word holds. -/
theorem sysNnn_ops {line : Line} {w : Word} (hrow : lookupByText defaultTable line.mn line.ops = some rowSysNnn)
    (hw : encodeLine defaultTable line = .ok w) :
    line.ops = [.hash (Field.nnn.extract w)] ∨ line.ops = [.label (Field.nnn.extract w)] := by
  obtain ⟨-, hvals⟩ := encoded_word_of_lookup defaultTable_wellFormed hrow hw
  obtain ⟨-, -, hops⟩ := lookupByText_some hrow
  obtain ⟨v, h | h⟩ := acceptsAll_address hops
  all_goals
    have hv : Field.nnn.extract w = v := by simpa [h, extractVals, bindVals, boundFields, rowSysNnn, Slot.field, tokenValue] using hvals
    simp [h, hv]

/-- R37: a row that fixes every bit matches its pattern alone. -/
theorem hits_of_full_mask {f : Format} (hf : f.mask = 0xFFFF#16) {w : Word} (h : f.hits w = true) : w = f.pattern := by
  have hfixed : w &&& f.mask = f.pattern := by simpa [Format.hits] using h
  rw [← hfixed, hf]
  exact BitVec.and_allOnes.symm

/-- R72, R38, C13: with the default table a line comes back, or it is `SYS #0E0` or `SYS #0EE`. -/
theorem decodeEntry_defaultTable {line : Line} {f : Format} {w : Word}
    (hrow : lookupByText defaultTable line.mn line.ops = some f) (hw : encodeLine defaultTable line = .ok w) (addr : Nat) :
    decodeEntry defaultTable .decoding addr w = .code addr f (bindVals f.slots line.ops) ∨
    (f = rowSysNnn ∧ w = 0x00E0#16 ∧ (line.ops = [.hash 0x0E0] ∨ line.ops = [.label 0x0E0]) ∧
      decodeEntry defaultTable .decoding addr w = .code addr rowCls []) ∨
    (f = rowSysNnn ∧ w = 0x00EE#16 ∧ (line.ops = [.hash 0x0EE] ∨ line.ops = [.label 0x0EE]) ∧
      decodeEntry defaultTable .decoding addr w = .code addr rowRet []) := by
  by_cases hmost : ∀ g ∈ defaultTable, g.hits w = true → popcount g.mask ≤ popcount f.mask
  · exact .inl (decodeEntry_of_encodeLine defaultTable_wellFormed hrow hw hmost addr)
  · push Not at hmost
    obtain ⟨g, hg, hgw, hless⟩ := hmost
    obtain ⟨hfw, -⟩ := encoded_word_of_lookup defaultTable_wellFormed hrow hw
    obtain ⟨rfl, rfl | rfl⟩ :=
      defaultTable_more_specific f (lookupByText_some hrow).1 g hg (hits_overlap hfw hgw) hless
    · obtain rfl := hits_of_full_mask rfl hgw
      exact .inr (.inl ⟨rfl, rfl, sysNnn_ops hrow hw, rfl⟩)
    · obtain rfl := hits_of_full_mask rfl hgw
      exact .inr (.inr ⟨rfl, rfl, sysNnn_ops hrow hw, rfl⟩)

/-- Settles O28: packing read back gives the row that matches and its values, WF6 makes it the row found, and in the default table
only `SYS` has more specific rows. -/
theorem encodeThenDecodeReturnsTheLine : Obligations.EncodeThenDecodeReturnsTheLine := by
  refine ⟨fun _ ht _ _ _ addr _ hrow hw hmost => decodeEntry_of_encodeLine ht hrow hw hmost addr,
    fun _ _ _ _ _ hw => ⟨rfl, packDb_ok_toNat hw⟩, fun _ _ _ addr hrow hw => decodeEntry_defaultTable hrow hw addr, ?samples⟩
  case samples =>
    simp only [List.forall_mem_cons, List.not_mem_nil, false_implies, implies_true, and_true]
    refine ⟨⟨0x1200#16, ?_⟩, ⟨0x6305#16, ?_⟩, ⟨0x6B2A#16, ?_⟩, ⟨0x00E0#16, ?_⟩⟩ <;> decide

end Sys2Proof.Laws
end

section
/-! PROOFS. Field extraction as bit slices (R67). -/

namespace Sys2Proof.Laws

open Sys2Proof.Machine

/-- R31, R67: the value of a field is the slice of the word at its offset and of its width. -/
theorem extract_eq_slice (f : Field) (w : Word) : f.extract w = (w.extractLsb' f.offset f.width).toNat := by
  rw [extract_eq, BitVec.extractLsb'_toNat, Nat.shiftRight_eq_div_pow]

/-- R67: extraction yields the bound fields of the slots, in slot order. -/
theorem extractVals_fst (slots : List Slot) (w : Word) : (extractVals slots w).map Prod.fst = boundFields slots := by
  simp [extractVals, Function.comp_def]

/-- R67: each extracted value is that of its field. -/
theorem extractVals_snd {slots : List Slot} {w : Word} {v : Field × Nat} (h : v ∈ extractVals slots w) : v.2 = v.1.extract w := by
  obtain ⟨f, -, rfl⟩ := List.mem_map.1 h
  rfl

/-- Settles O5: each field is its slice, and extraction maps it over the bound fields. -/
theorem fieldExtraction : Obligations.FieldExtraction :=
  ⟨fun w => ⟨extract_eq_slice .x w, extract_eq_slice .y w, extract_eq_slice .n w, extract_eq_slice .kk w, extract_eq_slice .nnn w,
      fun f => extract_eq f w⟩,
    fun slots w => ⟨extractVals_fst slots w, fun _ => extractVals_snd⟩, rfl, fun _ => rfl⟩

end Sys2Proof.Laws
end

section
/-! PROOFS. The byte and the two-register forms of `SE`, `SNE`, `LD` and `ADD` (R61). -/

namespace Sys2Proof.Laws

open Sys2Proof.Machine

/-! ## Hash tokens -/

/-- R42: no pseudo-register is spelled with the sign `#`. -/
theorem spelling_ne_hash (p : Pseudo) (digits : Text) : spelling p ≠ '#' :: digits := by
  cases p <;> simp [spelling]

/-- R42(b): after the sign `#` the token is the number its digits spell, however many they are. -/
theorem token_hash {digits : Text} {v : Nat} (h : hexNumber digits = some v) : token ('#' :: digits) = .hash v := by
  have hplain : allPseudos.find? (fun p => spelling p == '#' :: digits) = none := by simp [spelling_ne_hash]
  simp [token, hplain, h]

/-! ## The two forms -/

/-- R61: the byte row and the two-register row of each of the four mnemonics. -/
def formPairs : List (Format × Format) :=
  [(rowSeXkk, rowSeXy), (rowSneXkk, rowSneXy), (rowLdXkk, rowLdXy), (rowAddXkk, rowAddXy)]

/-- R36, R61: the two rows of a pair share their mnemonic, take a byte and a register second, and match no word in common. -/
theorem formPairs_rows : ∀ p ∈ formPairs, p.1 ∈ defaultTable ∧ p.2 ∈ defaultTable ∧ p.2.mnemonic = p.1.mnemonic ∧
    p.1.slots = [.X, .KK] ∧ p.2.slots = [.X, .Y] ∧ wordOverlap p.1 p.2 = false := by decide

/-- R61: the four mnemonics are those of the pairs. -/
theorem formPairs_mnemonics : formPairs.map (fun p => p.1.mnemonic) = ["SE".toList, "SNE".toList, "LD".toList, "ADD".toList] := by
  decide

/-- R61: a hash second finds the byte row. -/
theorem lookupByText_byteForm {p : Format × Format} (hp : p ∈ formPairs) (x : Nibble) (kk : Nat) :
    lookupByText defaultTable p.1.mnemonic [.reg x, .hash kk] = some p.1 := by
  obtain ⟨hbyte, -, -, hslots, -⟩ := formPairs_rows p hp
  exact lookupByText_defaultTable hbyte (by rw [hslots]; rfl)

/-- R61: a register second finds the two-register row. -/
theorem lookupByText_registerForm {p : Format × Format} (hp : p ∈ formPairs) (x y : Nibble) :
    lookupByText defaultTable p.1.mnemonic [.reg x, .reg y] = some p.2 := by
  obtain ⟨-, hreg, hmn, -, hslots, -⟩ := formPairs_rows p hp
  rw [← hmn]
  exact lookupByText_defaultTable hreg (by rw [hslots]; rfl)

/-- R61, P60: the kind of the second token alone selects the row of the pair. -/
theorem selectRow_formPair {p : Format × Format} (hp : p ∈ formPairs) (x y : Nibble) (kk : Nat) :
    selectRow defaultTable ⟨p.1.mnemonic, [.reg x, .hash kk]⟩ = .ok p.1 ∧
      selectRow defaultTable ⟨p.1.mnemonic, [.reg x, .reg y]⟩ = .ok p.2 :=
  ⟨selectRow_ok.2 (lookupByText_byteForm hp x kk), selectRow_ok.2 (lookupByText_registerForm hp x y)⟩

/-- R61: a word of the byte form is none of the two-register form, since each is matched by its row and no word by both. -/
theorem words_of_formPair_ne {p : Format × Format} (hp : p ∈ formPairs) {x y x' : Nibble} {kk : Nat} {u v : Word}
    (hu : encodeLine defaultTable ⟨p.1.mnemonic, [.reg x, .hash kk]⟩ = .ok u)
    (hv : encodeLine defaultTable ⟨p.1.mnemonic, [.reg x', .reg y]⟩ = .ok v) : u ≠ v := by
  rintro rfl
  obtain ⟨hbyte, -⟩ := encoded_word_of_lookup defaultTable_wellFormed (lookupByText_byteForm hp x kk) hu
  obtain ⟨hreg, -⟩ := encoded_word_of_lookup defaultTable_wellFormed (lookupByText_registerForm hp x' y) hv
  obtain ⟨-, -, -, -, -, hapart⟩ := formPairs_rows p hp
  exact Bool.false_ne_true (hapart.symm.trans (hits_overlap hbyte hreg))

/-- Settles O21: the kind of the second token selects the row of a pair, and the two rows of a pair match no word in common. -/
theorem immediateAndRegisterFormsNeverCollide : Obligations.ImmediateAndRegisterFormsNeverCollide := by
  refine ⟨fun _ _ => token_hash, fun x y kk => ?select, fun mn hmn x y x' kk u v hu hv => ?apart, by decide, by decide⟩
  case select =>
    have hpairs := fun p hp => selectRow_formPair (p := p) hp x y kk
    simp only [formPairs, List.forall_mem_cons] at hpairs
    obtain ⟨⟨hse, hse'⟩, ⟨hsne, hsne'⟩, ⟨hld, hld'⟩, ⟨hadd, hadd'⟩, -⟩ := hpairs
    exact ⟨hse, hse', hsne, hsne', hld, hld', hadd, hadd'⟩
  case apart =>
    rw [← formPairs_mnemonics] at hmn
    obtain ⟨p, hp, rfl⟩ := List.mem_map.1 hmn
    exact words_of_formPair_ne hp hu hv

end Sys2Proof.Laws
end

section
/-! PROOFS. The decoder has no error of its own: the cases of R66, and a `DecStep` that happens or is refused (R145, R154). -/

namespace Sys2Proof.Laws

open Sys2Proof.Machine

/-- Settles O43: the entry by the lookup, and the step by whether there is room. -/
theorem decoderRaisesNothing : Obligations.DecoderRaisesNothing := by
  refine ⟨fun t addr w => ⟨rfl, fun _ h => decodeEntry_of_row h addr, fun h => decodeEntry_of_no_row h addr⟩,
    fun s w hp => ⟨fun hready => ⟨nextMode s.mode s.addr (decodeEntry defaultTable s.mode s.addr w), ?happens⟩, fun hroom => ?refused⟩⟩
  case happens => rw [step_dec hp, decStep, decCommit_ready hready]
  case refused => rw [step_dec hp, decStep, decCommit_notReady hroom]

end Sys2Proof.Laws
end

section
/-! PROOFS. Reset: nothing survives it, nothing else clears, and every run begins from its values (R161). -/

namespace Sys2Proof.Laws

open Sys2Proof.Machine

/-! ## ECAUSE after a step -/

/-- R10: no decode operation writes ECAUSE. -/
@[simp] theorem decStep_ecause (t : Table) (w : Word) (s : State) : (decStep t w s).ecause = s.ecause := by
  rcases decCommit_cases (decodeEntry t s.mode s.addr w) s with ⟨-, h⟩ | ⟨-, h⟩ <;> simp [decStep, h]

/-- R14, R154(a): after an error every line is refused, and the first code stays. -/
theorem encCommit_ecause_of_ne_zero {s : State} (he : s.ecause ≠ 0#2) (line : Line) (r : Except EncErr Word) :
    (encCommit line r s).ecause = s.ecause := by
  have hready : ¬s.EncReady := fun h => he h.1
  rw [encCommit_notReady hready, afterRefusal_ecause]

/-- R160: a reset of the ENC side clears ECAUSE, a reset of the DEC side alone keeps it. -/
@[simp] theorem doReset_ecause (k : ResetKind) (s : State) : (doReset k s).ecause = if k = .decOnly then s.ecause else 0#2 := by
  cases k <;> rfl

/-- R149, R160: the one event that clears a recorded error. -/
theorem step_clears_ecause {s t : State} (h : step s = .next t) (he : s.ecause ≠ 0#2) :
    t.ecause = 0#2 ↔ s.Presents (.reset .both) ∨ s.Presents (.reset .encOnly) := by
  rcases step_cases h with ⟨w, hp, rfl⟩ | ⟨line, r, hp, rfl⟩ | ⟨k, hp, rfl⟩
  · simp [presents_iff hp, he]
  · simp [presents_iff hp, encCommit_ecause_of_ne_zero he, he]
  · cases k <;> simp [presents_iff hp, he]

/-! ## A full reset -/

/-- R160: the four fields after a reset of both sides, whatever they held before. -/
theorem step_reset_both_fields {s t : State} (hp : s.Presents (.reset .both)) (h : step s = .next t) :
    t.mode = .decoding ∧ t.addr = 0x200 ∧ t.ecause = 0#2 ∧ t.eaddr = 0x200 := by
  obtain rfl : doReset .both s = t := by simpa [step_reset hp] using h
  exact ⟨rfl, rfl, rfl, rfl⟩

/-- Settles O51: DataMode and a recorded error are each cleared by a reset alone, and `startState` is where the three runs begin. -/
theorem onlyResetClears : Obligations.OnlyResetClears := by
  refine ⟨fun s t h => ⟨fun hp => step_reset_both_fields hp h, fun hm => (step_clears_mode h hm).1,
    fun he => (step_clears_ecause h he).1⟩, fun t p lines ws bs => ⟨startState p, startState_mode p, startState_addr p,
    startState_ecause p, startState_eaddr p, ?assembly, ?disassembly, ?bytes⟩⟩
  case assembly => rw [assembleRun]
  case disassembly => rw [disassembleRun]
  case bytes => cases hbs : wordsOfBytes bs <;> simp only [disassembleBytes, disassembleRun, hbs]

end Sys2Proof.Laws
end

section
/-! PROOFS. The word of an instruction is the word its row packs (R35, R71): every word is that of the instruction it decodes to. -/

namespace Sys2Proof.Laws

open Sys2Proof.Machine

/-- R33, R35: what `encode` writes from the Encode clauses is what the row packs, for every instruction. -/
theorem encodePacksRow (i : Instr) : EncodePacksRow.Statement i := by
  cases i
  open EncodePacksRow in
    exacts [cls, ret, sysNnn _, jpNnn _, callNnn _, seXkk _ _, sneXkk _ _, seXy _ _, ldXkk _ _, addXkk _ _, ldXy _ _,
      orXy _ _, andXy _ _, xorXy _ _, addXy _ _, subXy _ _, shrXy _ _, subnXy _ _, shlXy _ _, sneXy _ _, ldINnn _,
      jpV0Nnn _, rndXkk _ _, drwXyn _ _ _, skpX _, sknpX _, ldXDt _, ldXK _, ldDtX _, ldStX _, addIX _, ldFX _,
      ldBX _, ldIndX _, ldXInd _, db _ _]

/-- R11, R35: a register index fits its field; so an instruction of a row is well formed exactly when all its values fit. -/
theorem wellFormed_iff_vals_fit {i : Instr} {f : Format} {vals : Vals} (h : formOf i = some (f, vals)) :
    i.WellFormed ↔ ∀ v ∈ vals, v.2 < 2 ^ v.1.width := by
  have hreg : ∀ r : Nibble, r.toNat < 16 := fun r => r.isLt
  cases i with
  | db hh ll => cases h
  | _ =>
    obtain ⟨rfl, rfl⟩ := Prod.mk.inj (Option.some.inj h)
    simp [Instr.WellFormed, Instr.fits, addressFits, byteFits, countFits, Field.width, hreg]

/-- R60, R143: the encoding of an instruction: its word, or `FieldOverflow` when an operand does not fit. -/
def encoding (i : Instr) : Except EncErr Word := if i.fits then .ok (encode i) else .error .fieldOverflow

/-- R60: a well-formed instruction encodes to its word. -/
theorem encoding_wellFormed {i : Instr} (h : i.WellFormed) : encoding i = .ok (encode i) := if_pos h

/-- R143: any other is `FieldOverflow`. -/
theorem encoding_not_wellFormed {i : Instr} (h : ¬i.WellFormed) : encoding i = .error .fieldOverflow := if_neg h

/-- R35, R143: the row of an instruction packs its values to the instruction's encoding. -/
theorem packVals_formOf {i : Instr} {f : Format} {vals : Vals} (h : formOf i = some (f, vals)) :
    packVals f.pattern vals = encoding i := by
  obtain ⟨-, -, -, hpack⟩ := encodePacksRow i f vals h
  by_cases hwf : i.WellFormed
  · rw [hpack hwf, encoding_wellFormed hwf]
  · have hover : ∃ v ∈ vals, 2 ^ v.1.width ≤ v.2 := by
      simpa only [wellFormed_iff_vals_fit h, not_forall, Nat.not_lt, exists_prop] using hwf
    rw [packVals_overflow _ hover, encoding_not_wellFormed hwf]

/-- R135, R143: raw data packs to its encoding. -/
theorem packDb_encoding (hh ll : Nat) : packDb hh ll = encoding (.db hh ll) := by
  by_cases hwf : (Instr.db hh ll).WellFormed
  · rw [pack_db hh ll hwf, encoding_wellFormed hwf]
  · have hover : 0x100 ≤ hh ∨ 0x100 ≤ ll := by
      simp only [Instr.WellFormed, Instr.fits, byteFits, Bool.and_eq_true, decide_eq_true_eq] at hwf
      omega
    rw [encoding_not_wellFormed hwf, packDb, if_pos hover]

/-- An instruction whose encoding is a word is well formed, and the word is its own. -/
theorem encoding_eq_ok {i : Instr} {w : Word} : encoding i = .ok w ↔ i.WellFormed ∧ encode i = w := by
  rw [encoding]
  split_ifs with hwf <;> simp [Instr.WellFormed, hwf]

/-- R66: the instruction of a word with a row has that row and the word's values. -/
theorem formOf_decodeWord {w : Word} {f : Format} (h : lookupByWord defaultTable w = some f) :
    formOf (decodeWord w) = some (f, extractVals f.slots w) := by
  obtain ⟨i, hi, hform⟩ := instrOf_extractVals w (lookupByWord_some h).1
  rw [decodeWord_of_row h hi, hform]

/-- R71: a word is the encoding of the instruction it decodes to. -/
theorem encoding_decodeWord (w : Word) : encoding (decodeWord w) = .ok w := by
  cases hrow : lookupByWord defaultTable w with
  | none => rw [decodeWord_of_none hrow, ← packDb_encoding, packDb_bytes]
  | some f =>
    obtain ⟨hf, hhits, -⟩ := lookupByWord_some hrow
    rw [← packVals_formOf (formOf_decodeWord hrow), packVals_of_hits (defaultTable_wf3 f hf) hhits]

/-- Settles O8: mask and fields of a row cover the word, so packing the extracted values loses no bit. -/
theorem encodeOfDecodeIsTheWord : Obligations.EncodeOfDecodeIsTheWord :=
  fun w => encoding_eq_ok.1 (encoding_decodeWord w)

end Sys2Proof.Laws
end

section
/-! PROOFS. Which words are which row (R37 to R39, the Decode clauses of R100 to R134), and the raw data among them. -/

namespace Sys2Proof.Laws

open Sys2Proof.Machine

/-! ## The rows that match a word -/

/-- R38: two different rows of the default table overlap only as `CLS` or `RET` with `SYS`. -/
theorem defaultTable_overlap : ∀ f ∈ defaultTable, ∀ g ∈ defaultTable, wordOverlap f g = true →
    f = g ∨ (f = rowCls ∧ g = rowSysNnn) ∨ (f = rowSysNnn ∧ g = rowCls) ∨ (f = rowRet ∧ g = rowSysNnn) ∨
      (f = rowSysNnn ∧ g = rowRet) := by decide

/-- Settles O3: an overlap is `SYS` with `CLS` or `RET`, and these two match their own pattern alone. -/
theorem defaultTableOverlaps : Obligations.DefaultTableOverlaps := by
  refine ⟨fun w f hf g hg hfw hgw => ?_, rfl, rfl, rfl, rfl⟩
  rcases defaultTable_overlap f hf g hg (hits_overlap hfw hgw) with h | ⟨rfl, rfl⟩ | ⟨rfl, rfl⟩ | ⟨rfl, rfl⟩ | ⟨rfl, rfl⟩
  · exact .inl h
  · exact .inr (.inl ⟨hits_of_full_mask rfl hfw, .inl ⟨rfl, rfl⟩⟩)
  · exact .inr (.inl ⟨hits_of_full_mask rfl hgw, .inr ⟨rfl, rfl⟩⟩)
  · exact .inr (.inr ⟨hits_of_full_mask rfl hfw, .inl ⟨rfl, rfl⟩⟩)
  · exact .inr (.inr ⟨hits_of_full_mask rfl hgw, .inr ⟨rfl, rfl⟩⟩)

/-- R37, R38: a row of the default table other than `SYS` is found for every word it matches. -/
theorem lookupByWord_of_hits {f : Format} (hf : f ∈ defaultTable) (hsys : f ≠ rowSysNnn) {w : Word} (h : f.hits w = true) :
    lookupByWord defaultTable w = some f := by
  refine lookupByWord_eq_of_most_specific defaultTable_wellFormed hf h fun g hg hgw => ?_
  by_contra hless
  exact hsys (defaultTable_more_specific f hf g hg (hits_overlap h hgw) (Nat.not_le.1 hless)).1

/-- R38: `SYS` is found for the words it matches but for those of `CLS` and `RET`. -/
theorem lookupByWord_sysNnn {w : Word} (h : rowSysNnn.hits w = true) (hcls : w ≠ 0x00E0#16) (hret : w ≠ 0x00EE#16) :
    lookupByWord defaultTable w = some rowSysNnn := by
  refine lookupByWord_eq_of_most_specific defaultTable_wellFormed (by decide) h fun g hg hgw => ?_
  by_contra hless
  obtain ⟨-, rfl | rfl⟩ := defaultTable_more_specific _ (by decide) g hg (hits_overlap h hgw) (Nat.not_le.1 hless)
  · exact hcls (hits_of_full_mask rfl hgw)
  · exact hret (hits_of_full_mask rfl hgw)

/-- R66: a word found in a row decodes to an instruction of that row exactly when it holds the instruction's values. -/
theorem decodeWord_eq_iff_of_row {w : Word} {f : Format} (hrow : lookupByWord defaultTable w = some f) {i : Instr} {vals : Vals}
    (hform : formOf i = some (f, vals)) : decodeWord w = i ↔ extractVals f.slots w = vals := by
  constructor
  · rintro rfl
    simpa [formOf_decodeWord hrow] using hform
  · rintro rfl
    obtain ⟨-, -, hi, -⟩ := encodePacksRow i _ _ hform
    exact decodeWord_of_row hrow hi

/-- R66: the row of a decoded instruction is the row found. -/
theorem lookupByWord_of_formOf_decodeWord {w : Word} {f : Format} {vals : Vals} (h : formOf (decodeWord w) = some (f, vals)) :
    lookupByWord defaultTable w = some f := by
  cases hrow : lookupByWord defaultTable w with
  | none => simp [decodeWord_of_none hrow, formOf] at h
  | some g =>
    rw [formOf_decodeWord hrow] at h
    cases h
    rfl

/-- R37, R66: a word decodes to an instruction exactly when the instruction's row matches it and it holds the values. -/
theorem decodeWord_eq_iff {i : Instr} {f : Format} {vals : Vals} (hform : formOf i = some (f, vals)) (hsys : f ≠ rowSysNnn)
    (w : Word) : decodeWord w = i ↔ f.hits w = true ∧ extractVals f.slots w = vals := by
  obtain ⟨hf, -⟩ := encodePacksRow i f vals hform
  constructor
  · rintro rfl
    have hrow := lookupByWord_of_formOf_decodeWord hform
    exact ⟨(lookupByWord_some hrow).2.1, (decodeWord_eq_iff_of_row hrow hform).1 rfl⟩
  · rintro ⟨hhits, hvals⟩
    exact (decodeWord_eq_iff_of_row (lookupByWord_of_hits hf hsys hhits) hform).2 hvals

/-! ## The fixed bits of a row -/

/-- R32: a word with the given top nibble and lowest bits, and nothing between. -/
def ends {k : Nat} (top : Nibble) (low : BitVec k) : Word := top.setWidth 16 <<< 12 ||| low.setWidth 16

theorem extract_top_ends {k : Nat} (hk : k ≤ 12) (top : Nibble) (low : BitVec k) : (ends top low).extractLsb' 12 4 = top := by
  ext i hi
  have hlow : low.getLsbD (12 + i) = false := BitVec.getLsbD_of_ge _ _ (by omega)
  simp [ends, show 12 + i < 16 by omega, hi, hlow]

theorem extract_low_ends {k : Nat} (hk : k ≤ 12) (top : Nibble) (low : BitVec k) : (ends top low).extractLsb' 0 k = low := by
  ext i hi
  simp [ends, show i < 12 by omega, show i < 16 by omega, hi]

/-- R37: under a mask of the top nibble and the `k` lowest bits a word keeps just these. -/
theorem and_ends {k : Nat} (hk : k ≤ 12) (w : Word) :
    w &&& ends (BitVec.allOnes 4) (BitVec.allOnes k) = ends (w.extractLsb' 12 4) (w.extractLsb' 0 k) := by
  ext i hi
  simp only [ends, BitVec.getElem_and, BitVec.getElem_or, BitVec.getElem_shiftLeft, BitVec.getElem_setWidth,
    BitVec.getLsbD_allOnes, BitVec.getLsbD_extractLsb']
  by_cases hlow : i < 12
  · simp [hlow, BitVec.getLsbD_eq_getElem hi, Bool.and_comm]
  · simp [hlow, show ¬i < k by omega, show i - 12 < 4 by omega, show 12 + (i - 12) = i by omega, BitVec.getLsbD_eq_getElem hi]

/-- R37: two words agree under such a mask exactly when the top nibble and the lowest bits are the same. -/
theorem and_ends_eq_iff {k : Nat} (hk : k ≤ 12) (w p : Word) :
    w &&& ends (BitVec.allOnes 4) (BitVec.allOnes k) = p &&& ends (BitVec.allOnes 4) (BitVec.allOnes k) ↔
      w.extractLsb' 12 4 = p.extractLsb' 12 4 ∧ w.extractLsb' 0 k = p.extractLsb' 0 k := by
  rw [and_ends hk, and_ends hk]
  constructor
  · intro h
    exact ⟨by simpa only [extract_top_ends hk] using congrArg (BitVec.extractLsb' 12 4) h,
      by simpa only [extract_low_ends hk] using congrArg (BitVec.extractLsb' 0 k) h⟩
  · rintro ⟨htop, hlow⟩
    rw [htop, hlow]

/-- R32: two words agree on the fixed bits of a layout. -/
def layoutAgree (w p : Word) : Layout → Prop
  | .none => w = p
  | .X => w.extractLsb' 12 4 = p.extractLsb' 12 4 ∧ w.extractLsb' 0 8 = p.extractLsb' 0 8
  | .XY => w.extractLsb' 12 4 = p.extractLsb' 12 4 ∧ w.extractLsb' 0 4 = p.extractLsb' 0 4
  | .XKK | .XYN | .NNN => w.extractLsb' 12 4 = p.extractLsb' 12 4

/-- R32: they do exactly when they agree under the layout's mask. -/
theorem and_layoutMask_eq_iff (l : Layout) (w p : Word) : w &&& l.mask = p &&& l.mask ↔ layoutAgree w p l := by
  have htop := and_ends_eq_iff (k := 0) (by decide) w p
  simp only [BitVec.of_length_zero, and_true] at htop
  cases l with
  | none => exact iff_of_eq (congrArg₂ Eq BitVec.and_allOnes BitVec.and_allOnes)
  | X => exact and_ends_eq_iff (k := 8) (by decide) w p
  | XY => exact and_ends_eq_iff (k := 4) (by decide) w p
  | XKK | XYN | NNN => exact htop

/-- R32, R36: each row of the default table has the mask of its layout. -/
theorem defaultTable_layoutMask : ∀ f ∈ defaultTable, f.mask = f.layout.mask := by decide

/-- R37: a row of the default table matches the words that agree with its pattern on the fixed bits of its layout. -/
theorem hits_iff_layoutAgree {f : Format} (hf : f ∈ defaultTable) (w : Word) :
    f.hits w = true ↔ layoutAgree w f.pattern f.layout := by
  obtain ⟨hwf1, -⟩ := defaultTable_wellFormed.1 f hf
  calc f.hits w = true
    _ ↔ w &&& f.mask = f.pattern &&& f.mask := by rw [pattern_and_mask hwf1, Format.hits, beq_iff_eq]
    _ ↔ layoutAgree w f.pattern f.layout := by rw [defaultTable_layoutMask f hf, and_layoutMask_eq_iff]

/-! ## The words of each row -/

/-- R67: a word holds the values for a row's fields exactly when each field reads as its value. -/
theorem extractVals_eq_iff {slots : List Slot} {vals : Vals} (hvals : vals.map Prod.fst = boundFields slots) (w : Word) :
    extractVals slots w = vals ↔ ∀ v ∈ vals, v.1.extract w = v.2 :=
  ⟨by rintro rfl v hv; exact (extractVals_snd hv).symm, extractVals_eq hvals⟩

/-- R37, R67: which words decode to an instruction of a row other than `SYS`. -/
theorem decodeWord_eq_iff_fields {i : Instr} {f : Format} {vals : Vals} (hform : formOf i = some (f, vals)) (hsys : f ≠ rowSysNnn)
    (w : Word) : decodeWord w = i ↔ layoutAgree w f.pattern f.layout ∧ ∀ v ∈ vals, v.1.extract w = v.2 := by
  obtain ⟨hf, hvals, -⟩ := encodePacksRow i f vals hform
  rw [decodeWord_eq_iff hform hsys, hits_iff_layoutAgree hf, extractVals_eq_iff hvals]

theorem extract_x_eq_iff (w : Word) (x : Nibble) : Field.x.extract w = x.toNat ↔ x = w.extractLsb' 8 4 := by
  rw [extract_eq_slice, eq_comm]
  exact BitVec.toNat_inj

theorem extract_y_eq_iff (w : Word) (y : Nibble) : Field.y.extract w = y.toNat ↔ y = w.extractLsb' 4 4 := by
  rw [extract_eq_slice, eq_comm]
  exact BitVec.toNat_inj

/-- R67: the fields of numbers, by their slices. -/
theorem extract_eq_iff (f : Field) (w : Word) (v : Nat) : f.extract w = v ↔ v = (w.extractLsb' f.offset f.width).toNat := by
  rw [extract_eq_slice, eq_comm]

section Selected

variable {i : Instr} {f : Format} {x y : Nibble} {v : Nat}

/-- R103 to R106: the words of a row with an address. -/
theorem decodeWord_eq_nnn (hform : formOf i = some (f, [(.nnn, v)])) (hsys : f ≠ rowSysNnn) (w : Word) :
    decodeWord w = i ↔ layoutAgree w f.pattern f.layout ∧ v = (w.extractLsb' 0 12).toNat := by
  simp only [decodeWord_eq_iff_fields hform hsys, List.forall_mem_singleton, extract_eq_iff]
  rfl

/-- R107 to R111: the words of a row with a register and a byte. -/
theorem decodeWord_eq_xkk (hform : formOf i = some (f, [(.x, x.toNat), (.kk, v)])) (hsys : f ≠ rowSysNnn) (w : Word) :
    decodeWord w = i ↔ layoutAgree w f.pattern f.layout ∧ x = w.extractLsb' 8 4 ∧ v = (w.extractLsb' 0 8).toNat := by
  simp only [decodeWord_eq_iff_fields hform hsys, List.forall_mem_cons, List.not_mem_nil, false_implies, implies_true, and_true,
    extract_x_eq_iff, extract_eq_iff .kk]
  rfl

/-- R112 to R122: the words of a row with two registers. -/
theorem decodeWord_eq_xy (hform : formOf i = some (f, [(.x, x.toNat), (.y, y.toNat)])) (hsys : f ≠ rowSysNnn) (w : Word) :
    decodeWord w = i ↔ layoutAgree w f.pattern f.layout ∧ x = w.extractLsb' 8 4 ∧ y = w.extractLsb' 4 4 := by
  simp only [decodeWord_eq_iff_fields hform hsys, List.forall_mem_cons, List.not_mem_nil, false_implies, implies_true, and_true,
    extract_x_eq_iff, extract_y_eq_iff]

/-- R123: the words of a row with two registers and a count. -/
theorem decodeWord_eq_xyn (hform : formOf i = some (f, [(.x, x.toNat), (.y, y.toNat), (.n, v)])) (hsys : f ≠ rowSysNnn)
    (w : Word) : decodeWord w = i ↔
      layoutAgree w f.pattern f.layout ∧ x = w.extractLsb' 8 4 ∧ y = w.extractLsb' 4 4 ∧ v = (w.extractLsb' 0 4).toNat := by
  simp only [decodeWord_eq_iff_fields hform hsys, List.forall_mem_cons, List.not_mem_nil, false_implies, implies_true, and_true,
    extract_x_eq_iff, extract_y_eq_iff, extract_eq_iff .n]
  rfl

/-- R124 to R134: the words of a row with one register. -/
theorem decodeWord_eq_x (hform : formOf i = some (f, [(.x, x.toNat)])) (hsys : f ≠ rowSysNnn) (w : Word) :
    decodeWord w = i ↔ layoutAgree w f.pattern f.layout ∧ x = w.extractLsb' 8 4 := by
  simp only [decodeWord_eq_iff_fields hform hsys, List.forall_mem_singleton, extract_x_eq_iff]

/-- R100, R101: a row without operands has one word. -/
theorem decodeWord_eq_none (hform : formOf i = some (f, [])) (hsys : f ≠ rowSysNnn) (w : Word) :
    decodeWord w = i ↔ layoutAgree w f.pattern f.layout := by
  simp [decodeWord_eq_iff_fields hform hsys]

end Selected

/-- R102, R38: the words of `SYS` are those that start with a zero nibble, but for the words of `CLS` and `RET`. -/
theorem decodeWord_eq_sysNnn (w : Word) (nnn : Nat) : decodeWord w = .sysNnn nnn ↔
    w.extractLsb' 12 4 = 0x0#4 ∧ w ≠ 0x00E0#16 ∧ w ≠ 0x00EE#16 ∧ nnn = (w.extractLsb' 0 12).toNat := by
  have hits_iff : rowSysNnn.hits w = true ↔ w.extractLsb' 12 4 = 0x0#4 := hits_iff_layoutAgree (by decide) w
  have hvals : extractVals rowSysNnn.slots w = [(.nnn, nnn)] ↔ nnn = (w.extractLsb' 0 12).toNat :=
    (extractVals_eq_iff rfl w).trans (by rw [List.forall_mem_singleton, extract_eq_iff]; rfl)
  constructor
  · intro h
    have hrow : lookupByWord defaultTable w = some rowSysNnn := lookupByWord_of_formOf_decodeWord (congrArg formOf h)
    have hcls : lookupByWord defaultTable 0x00E0#16 ≠ some rowSysNnn := by decide
    have hret : lookupByWord defaultTable 0x00EE#16 ≠ some rowSysNnn := by decide
    exact ⟨hits_iff.1 (lookupByWord_some hrow).2.1, fun hw => hcls (hw ▸ hrow), fun hw => hret (hw ▸ hrow),
      hvals.1 ((decodeWord_eq_iff_of_row hrow rfl).1 h)⟩
  · rintro ⟨htop, hcls, hret, hnnn⟩
    exact (decodeWord_eq_iff_of_row (lookupByWord_sysNnn (hits_iff.2 htop) hcls hret) rfl).2 (hvals.2 hnnn)

/-- Settles O10: the words of each row are those with its fixed bits; `SYS` leaves two of its words to `CLS` and `RET`. -/
theorem noneAndAddressWordsSelected : Obligations.NoneAndAddressWordsSelected := fun w nnn =>
  ⟨decodeWord_eq_none (f := rowCls) rfl (by decide) w, decodeWord_eq_none (f := rowRet) rfl (by decide) w,
    decodeWord_eq_sysNnn w nnn,
    decodeWord_eq_nnn (f := rowJpNnn) rfl (by decide) w, decodeWord_eq_nnn (f := rowCallNnn) rfl (by decide) w,
    decodeWord_eq_nnn (f := rowLdINnn) rfl (by decide) w, decodeWord_eq_nnn (f := rowJpV0Nnn) rfl (by decide) w⟩

/-- Settles O11: the layout XKK fixes the top nibble alone. -/
theorem registerByteWordsSelected : Obligations.RegisterByteWordsSelected := fun w _ _ =>
  ⟨decodeWord_eq_xkk (f := rowSeXkk) rfl (by decide) w, decodeWord_eq_xkk (f := rowSneXkk) rfl (by decide) w,
    decodeWord_eq_xkk (f := rowLdXkk) rfl (by decide) w, decodeWord_eq_xkk (f := rowAddXkk) rfl (by decide) w,
    decodeWord_eq_xkk (f := rowRndXkk) rfl (by decide) w⟩

/-- Settles O12: the layout XY fixes the top and the bottom nibble. -/
theorem twoRegisterWordsSelected : Obligations.TwoRegisterWordsSelected := fun w _ _ =>
  ⟨decodeWord_eq_xy (f := rowSeXy) rfl (by decide) w, decodeWord_eq_xy (f := rowLdXy) rfl (by decide) w,
    decodeWord_eq_xy (f := rowOrXy) rfl (by decide) w, decodeWord_eq_xy (f := rowAndXy) rfl (by decide) w,
    decodeWord_eq_xy (f := rowXorXy) rfl (by decide) w, decodeWord_eq_xy (f := rowAddXy) rfl (by decide) w,
    decodeWord_eq_xy (f := rowSubXy) rfl (by decide) w, decodeWord_eq_xy (f := rowShrXy) rfl (by decide) w,
    decodeWord_eq_xy (f := rowSubnXy) rfl (by decide) w, decodeWord_eq_xy (f := rowShlXy) rfl (by decide) w,
    decodeWord_eq_xy (f := rowSneXy) rfl (by decide) w⟩

/-- Settles O13: the layout XYN fixes the top nibble, the layout X the low byte too. -/
theorem drawKeyTimerWordsSelected : Obligations.DrawKeyTimerWordsSelected := fun w _ _ _ =>
  ⟨decodeWord_eq_xyn (f := rowDrwXyn) rfl (by decide) w,
    decodeWord_eq_x (f := rowSkpX) rfl (by decide) w, decodeWord_eq_x (f := rowSknpX) rfl (by decide) w,
    decodeWord_eq_x (f := rowLdXDt) rfl (by decide) w, decodeWord_eq_x (f := rowLdXK) rfl (by decide) w,
    decodeWord_eq_x (f := rowLdDtX) rfl (by decide) w, decodeWord_eq_x (f := rowLdStX) rfl (by decide) w,
    decodeWord_eq_x (f := rowAddIX) rfl (by decide) w, decodeWord_eq_x (f := rowLdFX) rfl (by decide) w,
    decodeWord_eq_x (f := rowLdBX) rfl (by decide) w, decodeWord_eq_x (f := rowLdIndX) rfl (by decide) w,
    decodeWord_eq_x (f := rowLdXInd) rfl (by decide) w⟩

/-! ## The words of no row -/

/-- R39: no row is found exactly when the word differs from every row's pattern somewhere in the row's fixed bits. -/
theorem lookupByWord_none_iff (w : Word) :
    lookupByWord defaultTable w = none ↔ ∀ f ∈ defaultTable, ¬layoutAgree w f.pattern f.layout := by
  rw [lookupByWord_none]
  refine forall₂_congr fun f hf => ?_
  rw [← hits_iff_layoutAgree hf, Bool.not_eq_true]

/-- R36, R39: the top nibbles whose words are not all of one row, and the others. -/
theorem topNibble_cases (top : Nibble) : top = 0x5#4 ∨ top = 0x8#4 ∨ top = 0x9#4 ∨ top = 0xE#4 ∨ top = 0xF#4 ∨
    top ∈ [0x0#4, 0x1#4, 0x2#4, 0x3#4, 0x4#4, 0x6#4, 0x7#4, 0xA#4, 0xB#4, 0xC#4, 0xD#4] := by
  revert top
  decide

/-- R36, R39: the low nibbles that no row of top nibble 8 has. -/
theorem lowNibble_of_8 (low : Nibble) : low ∉ [0x0#4, 0x1#4, 0x2#4, 0x3#4, 0x4#4, 0x5#4, 0x6#4, 0x7#4, 0xE#4] ↔
    low ∈ [0x8#4, 0x9#4, 0xA#4, 0xB#4, 0xC#4, 0xD#4, 0xF#4] := by
  revert low
  decide

/-- R39: the five families are what the 35 rows leave, top nibble by top nibble. -/
theorem disagree_iff_unmatched (w : Word) :
    (∀ f ∈ defaultTable, ¬layoutAgree w f.pattern f.layout) ↔ unmatched w = true := by
  have hcls : w = 0x00E0#16 → w.extractLsb' 12 4 = 0x0#4 := by rintro rfl; rfl
  have hret : w = 0x00EE#16 → w.extractLsb' 12 4 = 0x0#4 := by rintro rfl; rfl
  have hlow := lowNibble_of_8 (w.extractLsb' 0 4)
  simp only [List.mem_cons, List.not_mem_nil, or_false, not_or] at hlow
  simp only [defaultTable, rowCls, rowRet, rowSysNnn, rowJpNnn, rowCallNnn, rowSeXkk, rowSneXkk, rowSeXy, rowLdXkk, rowAddXkk,
    rowLdXy, rowOrXy, rowAndXy, rowXorXy, rowAddXy, rowSubXy, rowShrXy, rowSubnXy, rowShlXy, rowSneXy, rowLdINnn, rowJpV0Nnn,
    rowRndXkk, rowDrwXyn, rowSkpX, rowSknpX, rowLdXDt, rowLdXK, rowLdDtX, rowLdStX, rowAddIX, rowLdFX, rowLdBX, rowLdIndX,
    rowLdXInd, layoutAgree, unmatched, List.cons_append, List.nil_append, List.forall_mem_cons]
  generalize w.extractLsb' 12 4 = top, w.extractLsb' 0 4 = low, w.extractLsb' 0 8 = kk at *
  rcases topNibble_cases top with rfl | rfl | rfl | rfl | rfl | htop
  case inr.inr.inr.inr.inr => fin_cases htop <;> simp
  all_goals simp_all

/-- R39: no row is found for the words of the five families, and for no others. -/
theorem lookupByWord_none_iff_unmatched (w : Word) : lookupByWord defaultTable w = none ↔ unmatched w = true :=
  (lookupByWord_none_iff w).trans (disagree_iff_unmatched w)

/-- Settles O4: the families are the words no row finds, and these are raw data. -/
theorem unmatchedWordsAreData : Obligations.UnmatchedWordsAreData := fun w =>
  ⟨lookupByWord_none_iff_unmatched w, fun h => decodeWord_of_none ((lookupByWord_none_iff_unmatched w).2 h)⟩

/-! ## The word of an instruction, decoded -/

/-- R21: decoding the bytes of a word decodes the word, and leaves the rest. -/
theorem decode_bytes (w : Word) (rest : List Byte) : decode (bytesOfWords [w] ++ rest) = .ok (decodeWord w, rest) := by
  rw [bytesOfWords_singleton, List.cons_append, List.cons_append, List.nil_append, decode, wordOfBytes_highByte_lowByte]

/-- R35, R71: a row matches the words it packs, and their fields hold the packed values. -/
theorem encode_fields {i : Instr} {f : Format} {vals : Vals} (hform : formOf i = some (f, vals)) (hwf : i.WellFormed) :
    f.hits (encode i) = true ∧ extractVals f.slots (encode i) = vals := by
  obtain ⟨hf, hvals, -, hpack⟩ := encodePacksRow i f vals hform
  obtain ⟨hwf1, hwf2, -⟩ := defaultTable_wellFormed.1 f hf
  exact ⟨hits_of_packVals hwf1 hwf2 hvals (hpack hwf), extractVals_eq hvals (extract_of_packVals hwf1 hwf2 hvals (hpack hwf))⟩

/-- R102: the instructions of row `SYS`. -/
theorem eq_sysNnn_of_formOf {i : Instr} {vals : Vals} (h : formOf i = some (rowSysNnn, vals)) : ∃ nnn, i = .sysNnn nnn := by
  obtain ⟨-, -, hi, -⟩ := encodePacksRow i _ _ h
  exact ⟨_, (Option.some.inj hi).symm⟩

/-- R38, C13: the word of a `SYS` line determines its address. -/
theorem sysNnn_of_encode {nnn : Nat} (hwf : (Instr.sysNnn nnn).WellFormed) : nnn = Field.nnn.extract (encode (.sysNnn nnn)) := by
  obtain ⟨-, hvals⟩ := encode_fields (i := .sysNnn nnn) rfl hwf
  simpa [extractVals, boundFields, rowSysNnn, Slot.field] using hvals.symm

/-- R71, R38: a well-formed instruction of a row is what its word decodes to, but for `SYS #0E0` and `SYS #0EE`. -/
theorem decodeWord_encode {i : Instr} {f : Format} {vals : Vals} (hform : formOf i = some (f, vals)) (hwf : i.WellFormed)
    (hcls : i ≠ .sysNnn 0x0E0) (hret : i ≠ .sysNnn 0x0EE) : decodeWord (encode i) = i := by
  obtain ⟨hhits, hvals⟩ := encode_fields hform hwf
  suffices hrow : lookupByWord defaultTable (encode i) = some f from (decodeWord_eq_iff_of_row hrow hform).2 hvals
  by_cases hsys : f = rowSysNnn
  · subst hsys
    obtain ⟨nnn, rfl⟩ := eq_sysNnn_of_formOf hform
    refine lookupByWord_sysNnn hhits (fun hw => hcls ?_) (fun hw => hret ?_) <;>
      exact congrArg Instr.sysNnn ((sysNnn_of_encode hwf).trans (by rw [hw]; rfl))
  · obtain ⟨hf, -⟩ := encodePacksRow i f vals hform
    exact lookupByWord_of_hits hf hsys hhits

/-- R135, R136: raw data whose word no row matches is what its word decodes to. -/
theorem decodeWord_encode_db {hh ll : Nat} (hwf : (Instr.db hh ll).WellFormed)
    (hdata : unmatched (encode (.db hh ll)) = true) : decodeWord (encode (.db hh ll)) = .db hh ll := by
  have hnum := packDb_ok_toNat (pack_db hh ll hwf)
  simp only [Instr.WellFormed, Instr.fits, byteFits, Bool.and_eq_true, decide_eq_true_eq] at hwf
  obtain ⟨hhigh, hlow⟩ := bytes_toNat (encode (.db hh ll))
  rw [decodeWord_of_none ((lookupByWord_none_iff_unmatched _).2 hdata), hhigh, hlow, hnum]
  congr 1 <;> omega

/-- Settles O9: the row of the instruction matches its word, and only `SYS` loses two words to more specific rows. -/
theorem decodeOfEncodeIsTheInstruction : Obligations.DecodeOfEncodeIsTheInstruction := by
  intro i rest hwf hcls hret hdata
  suffices h : decodeWord (encode i) = i by rw [encodeBytes, decode_bytes, h]
  cases hform : formOf i with
  | some form => exact decodeWord_encode hform hwf hcls hret
  | none =>
    obtain ⟨hh, ll, rfl⟩ := formOf_none hform
    exact decodeWord_encode_db hwf (hdata hh ll rfl)

end Sys2Proof.Laws
end

section
/-! PROOFS. The lookup by word as the first match in order of specificity (R37, D24), in any table. -/

namespace Sys2Proof.Laws

open Sys2Proof.Machine

/-- R6: a word has at most 16 one bits. -/
theorem popcount_le (w : Word) : popcount w ≤ 16 :=
  (List.length_filter_le _ _).trans (List.length_range ..).le

/-- R37: the counts of fixed bits, the greatest first. -/
def countsDown : List Nat := (List.range 17).reverse

/-- R37: the counts above one count come before it, those below it after it. -/
theorem countsDown_split {k : Nat} (hk : k ≤ 16) :
    ∃ above below, countsDown = above ++ k :: below ∧ (∀ j ∈ above, k < j) ∧ ∀ j ∈ below, j < k := by
  obtain ⟨above, below, h⟩ := List.append_of_mem (show k ∈ countsDown by simp [countsDown]; omega)
  have hsorted : countsDown.Pairwise (· > ·) := List.pairwise_reverse.2 List.pairwise_lt_range
  rw [h, List.pairwise_append, List.pairwise_cons] at hsorted
  obtain ⟨-, ⟨hbelow, -⟩, habove⟩ := hsorted
  exact ⟨above, below, h, fun j hj => habove j hj k List.mem_cons_self, hbelow⟩

/-- R37: the rows of a table with the given counts of fixed bits. -/
def rowsOfCounts (t : Table) (counts : List Nat) : Table := counts.flatMap fun k => t.filter fun f => popcount f.mask == k

/-- R37: such a row has one of the counts. -/
theorem popcount_of_mem_rowsOfCounts {t : Table} {counts : List Nat} {f : Format} (h : f ∈ rowsOfCounts t counts) :
    popcount f.mask ∈ counts := by
  simp only [rowsOfCounts, List.mem_flatMap, List.mem_filter, beq_iff_eq] at h
  obtain ⟨k, hk, -, rfl⟩ := h
  exact hk

/-- R37: a row of another count does not show. -/
theorem rowsOfCounts_cons_of_notMem {t : Table} {f : Format} {counts : List Nat} (h : popcount f.mask ∉ counts) :
    rowsOfCounts (f :: t) counts = rowsOfCounts t counts := by
  refine List.flatMap_congr fun k hk => List.filter_cons_of_neg fun hf => h ?_
  rwa [eq_of_beq hf]

/-- R37, D24: a row put in front of a table comes, in the order of specificity, after the rows with more fixed bits and before
all others. -/
theorem specificityOrder_cons (f : Format) (t : Table) : ∃ more rest,
    specificityOrder t = more ++ rest ∧ specificityOrder (f :: t) = more ++ f :: rest ∧
      (∀ g ∈ more, popcount f.mask < popcount g.mask) ∧ ∀ g ∈ rest, popcount g.mask ≤ popcount f.mask := by
  obtain ⟨above, below, hsplit, habove, hbelow⟩ := countsDown_split (popcount_le f.mask)
  have hnotAbove : popcount f.mask ∉ above := fun h => lt_irrefl _ (habove _ h)
  have hnotBelow : popcount f.mask ∉ below := fun h => lt_irrefl _ (hbelow _ h)
  have horder : ∀ u, specificityOrder u = rowsOfCounts u above ++
      (u.filter (fun g => popcount g.mask == popcount f.mask) ++ rowsOfCounts u below) := by
    intro u
    rw [specificityOrder, ← countsDown, hsplit, List.flatMap_append, List.flatMap_cons]
    rfl
  refine ⟨rowsOfCounts t above, _, horder t, ?_, fun g hg => habove _ (popcount_of_mem_rowsOfCounts hg), fun g hg => ?_⟩
  · rw [horder, rowsOfCounts_cons_of_notMem hnotAbove, rowsOfCounts_cons_of_notMem hnotBelow,
      List.filter_cons_of_pos (by simp), List.cons_append]
  · rcases List.mem_append.1 hg with hsame | hless
    · exact (eq_of_beq (List.mem_filter.1 hsame).2).le
    · exact (hbelow _ (popcount_of_mem_rowsOfCounts hless)).le

/-- R37, D24: walking the table once finds the first match in order of specificity. -/
theorem lookupByWord_eq_find (t : Table) (w : Word) : lookupByWord t w = (specificityOrder t).find? fun f => f.hits w := by
  induction t with
  | nil => rfl
  | cons f t ih =>
    obtain ⟨more, rest, hold, hnew, hmore, hrest⟩ := specificityOrder_cons f t
    rw [hold, List.find?_append] at ih
    rw [hnew, List.find?_append, List.find?_cons, lookupByWord, ih]
    cases hm : more.find? fun g => g.hits w with
    | some g => simp [hmore g (List.mem_of_find?_eq_some hm)]
    | none =>
      cases hr : rest.find? fun g => g.hits w with
      | none => cases hf : f.hits w <;> simp
      | some g => cases hf : f.hits w <;> simp [hrest g (List.mem_of_find?_eq_some hr)]

/-- R34 WF6, R37: in a well-formed table the row found is the matching row with strictly the most fixed bits. -/
theorem lookupByWord_eq_some_iff {t : Table} (ht : t.WellFormed) (w : Word) (f : Format) : lookupByWord t w = some f ↔
    f ∈ t ∧ f.hits w = true ∧ ∀ g ∈ t, g.hits w = true → g = f ∨ popcount g.mask < popcount f.mask := by
  constructor
  · intro h
    obtain ⟨hf, hfw, hmost⟩ := lookupByWord_some h
    exact ⟨hf, hfw, fun g hg hgw => (hmost g hg hgw).eq_or_lt.imp_left (eq_of_hits_of_popcount_eq ht hg hf hgw hfw)⟩
  · rintro ⟨hf, hfw, hmost⟩
    refine lookupByWord_eq_of_most_specific ht hf hfw fun g hg hgw => ?_
    rcases hmost g hg hgw with rfl | hless
    · exact le_rfl
    · exact hless.le

/-- Settles O2: by induction on the table, and WF6 for the uniqueness. -/
theorem lookupByWordSelectsMostSpecific : Obligations.LookupByWordSelectsMostSpecific :=
  ⟨lookupByWord_eq_find, fun _ ht w f => lookupByWord_eq_some_iff ht w f⟩

end Sys2Proof.Laws
end

section
/-! PROOFS. The byte adapters: an even sequence is its words, an odd one is rejected whole, and the two undo
each other (R22, R23). -/

namespace Sys2Proof.Laws

open Sys2Proof.Machine

/-- R22: the first word of a byte sequence is its first two bytes; the rest decides whether there are words at all. -/
theorem pairBytes_cons {n : Nat} {hi lo : Byte} {bs : List Byte} {ws : List Word} (h : pairBytes n bs = .ok ws) :
    pairBytes n (hi :: lo :: bs) = .ok (wordOfBytes hi lo :: ws) := by
  simp only [pairBytes, h]

/-- R22, R144: pairing an odd sequence ends in the error, whatever was paired before. -/
theorem pairBytes_odd (n : Nat) : ∀ bs : List Byte, bs.length % 2 = 1 → pairBytes n bs = .error (.trailingOddByte n)
  | [], h => by simp at h
  | [_], _ => rfl
  | hi :: lo :: bs, h => by
    have hrest := pairBytes_odd n bs (by rw [List.length_cons, List.length_cons] at h; omega)
    simp only [pairBytes, hrest]

/-- R22: pairing an even sequence yields as many words as pairs. -/
theorem pairBytes_even (n : Nat) : ∀ bs : List Byte, bs.length % 2 = 0 → ∃ ws, pairBytes n bs = .ok ws ∧ 2 * ws.length = bs.length
  | [], _ => ⟨[], rfl, rfl⟩
  | [_], h => by simp at h
  | hi :: lo :: bs, h => by
    obtain ⟨ws, hws, hlen⟩ := pairBytes_even n bs (by rw [List.length_cons, List.length_cons] at h; omega)
    exact ⟨_, pairBytes_cons hws, by simp; omega⟩

/-- R23: the bytes of one more word, in front. -/
theorem bytesOfWords_cons (w : Word) (ws : List Word) : bytesOfWords (w :: ws) = highByte w :: lowByte w :: bytesOfWords ws := rfl

/-- R21: the two bytes a word is made of are its bytes. -/
theorem bytes_wordOfBytes (hi lo : Byte) : highByte (wordOfBytes hi lo) = hi ∧ lowByte (wordOfBytes hi lo) = lo := by
  have hnum := wordOfBytes_toNat hi lo
  obtain ⟨hhigh, hlow⟩ := bytes_toNat (wordOfBytes hi lo)
  have hlt := lo.isLt
  constructor <;> apply BitVec.eq_of_toNat_eq <;> omega

/-- R22, R23: words turned into bytes are read back. -/
theorem pairBytes_bytesOfWords (n : Nat) (ws : List Word) : pairBytes n (bytesOfWords ws) = .ok ws := by
  induction ws with
  | nil => rfl
  | cons w ws ih => rw [bytesOfWords_cons, pairBytes_cons ih, wordOfBytes_highByte_lowByte]

/-- R22, R23: bytes read as words are turned back. -/
theorem bytesOfWords_of_pairBytes (n : Nat) : ∀ (bs : List Byte) (ws : List Word), pairBytes n bs = .ok ws → bytesOfWords ws = bs
  | [], ws, h => by cases h; rfl
  | [_], ws, h => by cases h
  | hi :: lo :: bs, ws, h => by
    cases hrest : pairBytes n bs with
    | error e => simp [pairBytes, hrest] at h
    | ok us =>
      obtain rfl : wordOfBytes hi lo :: us = ws := by simpa [pairBytes_cons hrest] using h
      obtain ⟨hhigh, hlow⟩ := bytes_wordOfBytes hi lo
      rw [bytesOfWords_cons, hhigh, hlow, bytesOfWords_of_pairBytes n bs us hrest]

/-- Settles O16: by induction on the words and on the pairs of bytes. -/
theorem bytesAndWordsRoundTrip : Obligations.BytesAndWordsRoundTrip :=
  ⟨fun ws => ⟨pairBytes_bytesOfWords _ ws, bytesOfWords_length ws⟩, fun bs ws => bytesOfWords_of_pairBytes bs.length bs ws⟩

/-- R21, R23: byte `2k` of the bytes of words is the high byte of word `k`, byte `2k + 1` the low one. -/
theorem bytesOfWords_getD (ws : List Word) (k : Nat) : (bytesOfWords ws).getD (2 * k) 0#8 = highByte (ws.getD k 0#16) ∧
    (bytesOfWords ws).getD (2 * k + 1) 0#8 = lowByte (ws.getD k 0#16) := by
  induction ws generalizing k with
  | nil => exact ⟨by simp [bytesOfWords, highByte], by simp [bytesOfWords, lowByte]⟩
  | cons w ws ih =>
    cases k with
    | zero => exact ⟨rfl, rfl⟩
    | succ k => exact ih k

/-- R21: a word as the number of its two bytes. -/
theorem toNat_eq_bytes (w : Word) : w.toNat = 256 * (highByte w).toNat + (lowByte w).toNat := by
  rw [← wordOfBytes_toNat, wordOfBytes_highByte_lowByte]

/-- R22: word `k` of an even sequence is the number of its bytes `2k` and `2k + 1`. -/
theorem toNat_getD_of_wordsOfBytes {bs : List Byte} {ws : List Word} (h : wordsOfBytes bs = .ok ws) (k : Nat) :
    (ws.getD k 0#16).toNat = 256 * (bs.getD (2 * k) 0#8).toNat + (bs.getD (2 * k + 1) 0#8).toNat := by
  obtain ⟨hhigh, hlow⟩ := bytesOfWords_getD ws k
  rw [← bytesOfWords_of_pairBytes _ bs ws h, hhigh, hlow, toNat_eq_bytes]

/-- Settles O15: pairing two bytes at a time; a single byte left over is the error of the whole. -/
theorem wordsOfBytesPairsOrRejects : Obligations.WordsOfBytesPairsOrRejects := by
  refine ⟨fun bs => ⟨pairBytes_odd _ bs, fun heven => ?even⟩, fun t p bs hodd => ⟨startState p, ?rejected, rfl, rfl, rfl⟩⟩
  case even =>
    obtain ⟨ws, hws, hlen⟩ := pairBytes_even bs.length bs heven
    exact ⟨ws, hws, hlen, fun k _ => toNat_getD_of_wordsOfBytes hws k⟩
  case rejected => simp only [disassembleBytes, wordsOfBytes, pairBytes_odd _ bs hodd]

end Sys2Proof.Laws
end

section
/-! PROOFS. `Tokenize` on a line of the grammar (R41, R43): the mnemonic, and one token for each operand. -/

namespace Sys2Proof.Laws

open Sys2Proof.Machine

/-! ## The ends of a trimmed text -/

/-- R43: what is left after leading white space begins with none. -/
theorem dropWhile_isWs_head {t : Text} {c : Char} (h : (t.dropWhile isWs).head? = some c) : isWs c = false := by
  simpa [h] using List.head?_dropWhile_not isWs t

/-- R43: a trimmed text ends with no white space. -/
theorem trimWs_getLast {t : Text} {c : Char} (h : (trimWs t).getLast? = some c) : isWs c = false := by
  rw [trimWs, List.getLast?_reverse] at h
  exact dropWhile_isWs_head h

/-- R43: nor does it begin with any, since trimming the end leaves the beginning. -/
theorem trimWs_head {t : Text} {c : Char} (h : (trimWs t).head? = some c) : isWs c = false := by
  have hbegin : trimWs t <+: t.dropWhile isWs := by
    rw [trimWs, ← List.reverse_suffix, List.reverse_reverse]
    exact List.dropWhile_suffix _
  obtain ⟨cut, hcut⟩ := hbegin
  refine dropWhile_isWs_head (t := t) ?_
  rw [← hcut, List.head?_append, h, Option.some_or]

/-- R41: an operand with white space around it trims to the operand. -/
theorem trimWs_operand {before op after : Text} (hb : blanks before) (hop : operandText op) (ha : blanks after) :
    trimWs (before ++ op ++ after) = op := by
  obtain ⟨-, -, hhead, hlast⟩ := hop
  rw [trimWs_append_blanks _ ha, trimWs_blanks_append _ hb, trimWs_self hhead hlast]

theorem blanks_append {a b : Text} (ha : blanks a) (hb : blanks b) : blanks (a ++ b) := by
  intro c hc
  exact (List.mem_append.1 hc).elim (ha c) (hb c)

/-! ## Mnemonic and operands -/

/-- R43 steps 1 to 4, on a trimmed line: the mnemonic up to the first white space, the operand text after it. -/
theorem tokenize_of_trimmed {text mn gap core : Text} (htrim : trimWs text = mn ++ (gap ++ core)) (hmn : ∀ c ∈ mn, isWs c = false)
    (hgap : blanks gap) (hcore : ∀ c, core.head? = some c → isWs c = false) (hsep : core ≠ [] → gap ≠ []) :
    tokenize text = ⟨mn, if core = [] then [] else ((splitCommas core).map trimWs).map token⟩ := by
  have hword : ∀ c ∈ mn, (!isWs c) = true := fun c hc => by rw [hmn c hc]; rfl
  have hstop : (gap ++ core).takeWhile (fun c => !isWs c) = [] ∧ (gap ++ core).dropWhile (fun c => !isWs c) = gap ++ core := by
    cases gap with
    | nil =>
      have hnil : core = [] := by_contra fun h => hsep h rfl
      rw [hnil]
      exact ⟨rfl, rfl⟩
    | cons c gap => simp [hgap c List.mem_cons_self]
  have hrest : (gap ++ core).dropWhile isWs = core := by
    rw [List.dropWhile_append_of_pos hgap]
    cases core with
    | nil => rfl
    | cons c core => simp [hcore c rfl]
  simp only [tokenize, htrim, List.takeWhile_append_of_pos hword, List.dropWhile_append_of_pos hword, hstop.1, hstop.2, hrest,
    List.append_nil, List.map_map, Function.comp_def]

/-- R41: the text of an operand with the white space around it, in a line. -/
def pieceText (p : Text × Text × Text) : Text := p.1 ++ p.2.1 ++ p.2.2

/-- R41: an operand and the white space around it. -/
abbrev IsPiece (p : Text × Text × Text) : Prop := blanks p.1 ∧ operandText p.2.1 ∧ blanks p.2.2

/-- R41: no comma stands in an operand or in the white space around it. -/
theorem pieceText_ne_comma {p : Text × Text × Text} (hp : IsPiece p) : ∀ c ∈ pieceText p, c ≠ ',' := by
  obtain ⟨hbefore, ⟨-, hop, -⟩, hafter⟩ := hp
  intro c hc
  rcases List.mem_append.1 hc with hc | hc
  · rcases List.mem_append.1 hc with hc | hc
    · exact ws_ne_comma (hbefore c hc)
    · exact hop c hc
  · exact ws_ne_comma (hafter c hc)

/-- R43 step 3: the operand text of a line splits into its operands. -/
theorem splitCommas_pieces {pieces : List (Text × Text × Text)} (hne : pieces ≠ []) (hp : ∀ p ∈ pieces, IsPiece p) :
    (splitCommas (trimWs (List.intercalate [','] (pieces.map pieceText)))).map trimWs = pieces.map fun p => p.2.1 := by
  obtain ⟨a, b, ha, hb, hsplit⟩ := trimWs_core (List.intercalate [','] (pieces.map pieceText))
  rw [← splitCommas_blanks _ ha hb, ← hsplit, splitCommas_intercalate _ (by simpa using hne)
    (List.forall_mem_map.2 fun p hmem => pieceText_ne_comma (hp p hmem)), List.map_map]
  refine List.map_congr_left fun p hmem => ?_
  obtain ⟨hbefore, hop, hafter⟩ := hp p hmem
  exact trimWs_operand hbefore hop hafter

/-- R43: a line with no operand is its mnemonic. -/
theorem tokenize_mnemonic {lead mn after : Text} (hlead : blanks lead) (hafter : blanks after) (hmn : ∀ c ∈ mn, isWs c = false) :
    tokenize (lead ++ mn ++ after) = ⟨mn, []⟩ := by
  have htrim : trimWs (lead ++ mn ++ after) = mn ++ ([] ++ []) := by
    rw [trimWs_append_blanks _ hafter, trimWs_blanks_append _ hlead, List.append_nil, List.append_nil]
    exact trimWs_self (fun c hc => hmn c (List.mem_of_head? hc)) (fun c hc => hmn c (List.mem_of_getLast? hc))
  exact tokenize_of_trimmed htrim hmn (List.forall_mem_nil _) (fun _ h => nomatch h) (fun h => absurd rfl h)

/-- R43: a line with operands is its mnemonic and their tokens. -/
theorem tokenize_operands {lead mn sep trail : Text} {pieces : List (Text × Text × Text)} (hlead : blanks lead) (hsep : blanks sep)
    (htrail : blanks trail) (hmn : mn ≠ []) (hword : ∀ c ∈ mn, isWs c = false) (hne : pieces ≠ []) (hgap : sep ≠ [])
    (hp : ∀ p ∈ pieces, IsPiece p) :
    tokenize (lead ++ mn ++ sep ++ List.intercalate [','] (pieces.map pieceText) ++ trail) =
      ⟨mn, pieces.map fun p => token p.2.1⟩ := by
  have hpieces := splitCommas_pieces hne hp
  obtain ⟨a, b, ha, hb, hsplit⟩ := trimWs_core (List.intercalate [','] (pieces.map pieceText))
  have hhead := fun c => trimWs_head (t := List.intercalate [','] (pieces.map pieceText)) (c := c)
  have hlast := fun c => trimWs_getLast (t := List.intercalate [','] (pieces.map pieceText)) (c := c)
  generalize trimWs (List.intercalate [','] (pieces.map pieceText)) = core at hpieces hsplit hhead hlast
  have hcore : core ≠ [] := by
    rintro rfl
    cases pieces with
    | nil => exact hne rfl
    | cons p ps =>
      obtain ⟨-, ⟨hop, -⟩, -⟩ := hp p List.mem_cons_self
      exact hop (List.cons.inj hpieces).1.symm
  have htrim : trimWs (lead ++ mn ++ sep ++ List.intercalate [','] (pieces.map pieceText) ++ trail) = mn ++ (sep ++ a ++ core) := by
    calc trimWs (lead ++ mn ++ sep ++ List.intercalate [','] (pieces.map pieceText) ++ trail)
      _ = trimWs (lead ++ (mn ++ (sep ++ a ++ core)) ++ (b ++ trail)) := by rw [hsplit]; simp only [List.append_assoc]
      _ = trimWs (mn ++ (sep ++ a ++ core)) := by
        rw [trimWs_append_blanks _ (blanks_append hb htrail), trimWs_blanks_append _ hlead]
      _ = mn ++ (sep ++ a ++ core) := by
        refine trimWs_self (fun c hc => hword c ?_) (fun c hc => hlast c ?_)
        · rw [List.head?_append_of_ne_nil _ hmn] at hc
          exact List.mem_of_head? hc
        · rwa [List.getLast?_append_of_ne_nil _ (by simp [hcore]), List.getLast?_append_of_ne_nil _ hcore] at hc
  rw [tokenize_of_trimmed htrim hword (blanks_append hsep ha) hhead (fun _ => by simp [hgap]), if_neg hcore, hpieces,
    List.map_map]
  rfl

/-- Settles O17: trimming, cutting at the first white space and splitting at the commas undo what the grammar puts together. -/
theorem tokenizeReadsTheGrammar : Obligations.TokenizeReadsTheGrammar := by
  intro lead mn sep trail pieces hlead hsep htrail hmn hword hgap hp
  by_cases hne : pieces = []
  · subst hne
    have hline := tokenize_mnemonic hlead (blanks_append hsep htrail) hword
    simpa [List.intercalate] using hline
  · exact tokenize_operands hlead hsep htrail hmn hword hne (hgap hne) hp

end Sys2Proof.Laws
end

section
/-! PROOFS. The printed line of an entry, tokenised and encoded (R47, R71): its tokens are accepted by the row's slots and carry the
values printed, so the word comes back. -/

namespace Sys2Proof.Laws

open Sys2Proof.Machine

/-! ## Printed operands as tokens -/

/-- R42(a): `v` and one hex digit are that register. -/
theorem token_reg {c : Char} {r : Nat} (h : hexValue c = some r) : token ['v', c] = .reg (BitVec.ofNat 4 r) := by
  have hplain : allPseudos.find? (fun p => spelling p == ['v', c]) = none := by simp [allPseudos, spelling]
  simp [token, hplain, h]

/-- R42(c): after the sign `L` the token is the number its digits spell. -/
theorem token_label {digits : Text} {v : Nat} (h : hexNumber digits = some v) : token ('L' :: digits) = .label v := by
  have hplain : allPseudos.find? (fun p => spelling p == 'L' :: digits) = none := by simp [allPseudos, spelling]
  simp [token, hplain, h]

/-- R42(d): each pseudo-register is read from its spelling. -/
theorem token_spelling (p : Pseudo) : token (spelling p) = .pseudo p := by cases p <;> rfl

/-- R47: one hex digit is printed for a register. -/
theorem token_printedReg (hc : HexCase) {r : Nat} (h : r < 16) : token ('v' :: hexText hc 1 r) = .reg (BitVec.ofNat 4 r) := by
  have hdigit : hexText hc 1 r = [hexDigit hc r] := by simp [hexText, Nat.mod_eq_of_lt h]
  rw [hdigit, token_reg (hexValue_hexDigit hc r h)]

/-- R44, R47: a slot prints a value that fits its field as a token that it accepts and that carries the value. -/
theorem token_renderSlot (hc : HexCase) (id : RowId) {vals : Vals} (hfits : ∀ f, valueOf vals f < 2 ^ f.width) (slot : Slot) :
    accepts slot (token (renderSlot hc id vals slot)) = true ∧
      ∀ f, slot.field = some f → tokenValue (token (renderSlot hc id vals slot)) = valueOf vals f := by
  cases slot with
  | X =>
    rw [renderSlot, token_printedReg hc (hfits .x)]
    exact ⟨rfl, by rintro f ⟨⟩; exact Nat.mod_eq_of_lt (hfits .x)⟩
  | Y =>
    rw [renderSlot, token_printedReg hc (hfits .y)]
    exact ⟨rfl, by rintro f ⟨⟩; exact Nat.mod_eq_of_lt (hfits .y)⟩
  | V0 => exact ⟨rfl, by rintro f ⟨⟩⟩
  | KK =>
    rw [renderSlot, token_hash (hexNumber_hexText hc 1 _ (hfits .kk))]
    exact ⟨rfl, by rintro f ⟨⟩; rfl⟩
  | N =>
    rw [renderSlot, token_hash (hexNumber_hexText hc 0 _ (hfits .n))]
    exact ⟨rfl, by rintro f ⟨⟩; rfl⟩
  | NNN =>
    have hnum := hexNumber_hexText hc 2 _ (hfits .nnn)
    rw [renderSlot]
    split_ifs
    · rw [token_label hnum]
      exact ⟨rfl, by rintro f ⟨⟩; rfl⟩
    · rw [token_hash hnum]
      exact ⟨rfl, by rintro f ⟨⟩; rfl⟩
  | P p =>
    rw [renderSlot, token_spelling]
    exact ⟨by simp [accepts], by rintro f ⟨⟩⟩

/-! ## The values read back -/

/-- R67: the value of a field among the extracted ones, for a field the row binds. -/
theorem valueOf_map_of_mem (fields : List Field) (g : Field → Nat) {f : Field} (h : f ∈ fields) :
    valueOf (fields.map fun a => (a, g a)) f = g f := by
  induction fields with
  | nil => cases h
  | cons a fields ih =>
    rw [List.map_cons, valueOf_cons]
    split_ifs with hfa
    · rw [hfa]
    · exact ih ((List.mem_cons.1 h).resolve_left hfa)

/-- R67: every value read from the extracted ones fits its field; a field the row does not bind reads as 0. -/
theorem valueOf_extractVals_lt (slots : List Slot) (w : Word) (f : Field) : valueOf (extractVals slots w) f < 2 ^ f.width := by
  unfold extractVals
  induction boundFields slots with
  | nil => exact Nat.two_pow_pos _
  | cons a fields ih =>
    rw [List.map_cons, valueOf_cons]
    split_ifs with hfa
    · rw [← hfa]
      exact extract_lt f w
    · exact ih

/-- R44: slots that read each field's value from its token bind exactly these values. -/
theorem bindVals_map {slots : List Slot} (tok : Slot → Tok) (g : Field → Nat)
    (h : ∀ s ∈ slots, ∀ f, s.field = some f → tokenValue (tok s) = g f) :
    bindVals slots (slots.map tok) = (boundFields slots).map fun f => (f, g f) := by
  induction slots with
  | nil => rfl
  | cons s slots ih =>
    obtain ⟨hs, hslots⟩ := List.forall_mem_cons.1 h
    have hrest := ih hslots
    simp only [bindVals, boundFields, List.map_cons, List.zip_cons_cons] at hrest ⊢
    cases hf : s.field with
    | none => simpa [List.filterMap_cons, hf] using hrest
    | some f => simpa [List.filterMap_cons, hf, hs f hf] using hrest

/-- R44, R47: the tokens of a row's printed operands are accepted by its slots and bind the values of the word. -/
theorem printed_operands (hc : HexCase) (f : Format) (w : Word) :
    let ops := f.slots.map fun s => token (renderSlot hc f.id (extractVals f.slots w) s)
    acceptsAll f.slots ops = true ∧ bindVals f.slots ops = extractVals f.slots w := by
  have htok := token_renderSlot hc f.id (valueOf_extractVals_lt f.slots w)
  constructor
  · rw [acceptsAll_iff, List.forall₂_map_right_iff, List.forall₂_same]
    exact fun s _ => (htok s).1
  · refine bindVals_map _ (fun a => a.extract w) fun s hs a ha => ?_
    rw [(htok s).2 a ha]
    exact valueOf_map_of_mem _ _ (List.mem_filterMap.2 ⟨s, hs, ha⟩)

/-! ## The printed line -/

/-- R47: a printed operand is not empty and has neither white space nor a comma. -/
abbrev PlainText (t : Text) : Prop := t ≠ [] ∧ ∀ c ∈ t, isWs c = false ∧ c ≠ ','

theorem operandText_of_plainText {t : Text} (h : PlainText t) : operandText t :=
  ⟨h.1, fun c hc => (h.2 c hc).2, fun c hc => (h.2 c (List.mem_of_head? hc)).1, fun c hc => (h.2 c (List.mem_of_getLast? hc)).1⟩

/-- R47: a sign and digits. -/
theorem plainText_sign_digits {c : Char} (hc : isWs c = false ∧ c ≠ ',') (hx : HexCase) (k v : Nat) :
    PlainText (c :: hexText hx k v) :=
  ⟨List.cons_ne_nil _ _, List.forall_mem_cons.2 ⟨hc, hexText_plain hx k v⟩⟩

theorem plainText_spelling (p : Pseudo) : PlainText (spelling p) := by
  cases p <;> simp [PlainText, spelling, isWs]

theorem plainText_renderSlot (hc : HexCase) (id : RowId) (vals : Vals) (slot : Slot) : PlainText (renderSlot hc id vals slot) := by
  cases slot with
  | X | Y | KK | N => exact plainText_sign_digits (by decide) hc _ _
  | NNN =>
    rw [renderSlot]
    split_ifs <;> exact plainText_sign_digits (by decide) hc _ _
  | V0 => simp [PlainText, renderSlot, isWs]
  | P p => exact plainText_spelling p

/-- R41, R47: a printed operand after the first, with its one space. -/
def spaced (q : Text) : Text × Text × Text := ([' '], q, [])

/-- R41, R47: printed operands are joined by commas, one space before each but the first. -/
theorem joinOperands_cons (p : Text) (ps : List Text) :
    joinOperands (p :: ps) = List.intercalate [','] (p :: ps.map fun q => pieceText (spaced q)) := by
  induction ps generalizing p with
  | nil => simp [joinOperands, List.intercalate]
  | cons q ps ih =>
    rw [joinOperands, ih]
    cases ps <;> simp [List.intercalate, pieceText, spaced]

/-- R43, R47: a printed line is read as its mnemonic and the tokens of its operands. -/
theorem tokenize_joinLine {mn : Text} (hmn : mn ≠ []) (hword : ∀ c ∈ mn, isWs c = false) {ops : List Text}
    (hops : ∀ p ∈ ops, PlainText p) : tokenize (joinLine mn ops) = ⟨mn, ops.map token⟩ := by
  have hnone : blanks [] := List.forall_mem_nil _
  have hspace : blanks [' '] := List.forall_mem_singleton.2 rfl
  cases ops with
  | nil => simpa [joinLine] using tokenize_mnemonic (mn := mn) hnone hnone hword
  | cons p ps =>
    obtain ⟨hp, hps⟩ := List.forall_mem_cons.1 hops
    have hpieces : ∀ q ∈ ([], p, []) :: ps.map spaced, IsPiece q :=
      List.forall_mem_cons.2 ⟨⟨hnone, operandText_of_plainText hp, hnone⟩,
        List.forall_mem_map.2 fun q hq => ⟨hspace, operandText_of_plainText (hps q hq), hnone⟩⟩
    have hline := tokenize_operands hnone hspace hnone hmn hword (List.cons_ne_nil _ _) (List.cons_ne_nil _ _) hpieces
    simpa [joinLine, joinOperands_cons, pieceText, spaced, Function.comp_def] using hline

/-! ## The line encoded -/

/-- R63: a `db` line is encoded without the table. -/
theorem encodeLine_db (t : Table) (ops : List Tok) : encodeLine t ⟨dbMnemonic, ops⟩ = encodeDb ops := if_pos rfl

/-- R135, R136: the line printed for a Data Entry encodes to the entry's word. -/
theorem encodeLine_render_data (t : Table) (hc : HexCase) (addr : Nat) (w : Word) :
    encodeLine t (tokenize (render hc (.data addr w))) = .ok w := by
  have hhi := hexNumber_hexText hc 1 (highByte w).toNat (highByte w).isLt
  have hlo := hexNumber_hexText hc 1 (lowByte w).toNat (lowByte w).isLt
  have hplain : ∀ v, PlainText ('#' :: hexText hc 2 v) := plainText_sign_digits (by decide) hc 2
  have hword : ∀ c ∈ dbMnemonic, isWs c = false := by simp [dbMnemonic, isWs]
  rw [render, tokenize_joinLine (by decide) hword (by simpa using ⟨hplain _, hplain _⟩), encodeLine_db,
    List.map_cons, List.map_cons, List.map_nil, token_hash hhi, token_hash hlo]
  exact packDb_bytes w

/-- R71: in a well-formed table the line printed for a Code Entry encodes to the word it was decoded from. -/
theorem encodeLine_render_code {t : Table} (ht : t.WellFormed) (hs : t.Spellable) (hc : HexCase) (addr : Nat) {w : Word}
    {f : Format} (hrow : lookupByWord t w = some f) :
    encodeLine t (tokenize (render hc (.code addr f (extractVals f.slots w)))) = .ok w := by
  obtain ⟨hf, hhits, -⟩ := lookupByWord_some hrow
  obtain ⟨-, -, hwf3, -, hdb⟩ := ht.1 f hf
  obtain ⟨hmn, hword⟩ := hs f hf
  obtain ⟨hops, hvals⟩ := printed_operands hc f w
  have hline : tokenize (render hc (.code addr f (extractVals f.slots w))) = ⟨f.mnemonic, _⟩ :=
    tokenize_joinLine hmn (by simpa using hword) (List.forall_mem_map.2 fun s _ => plainText_renderSlot hc _ _ s)
  rw [hline, List.map_map, encodeLine_of_lookup hdb ((lookupByText_iff ht.2.1).2 ⟨hf, rfl, hops⟩)]
  exact (congrArg (packVals f.pattern) hvals).trans (packVals_of_hits hwf3 hhits)

/-- R71: for every entry that a word decodes to. -/
theorem encodeLine_render_decodeEntry {t : Table} (ht : t.WellFormed) (hs : t.Spellable) (hc : HexCase) (mode : Mode) (addr : Nat)
    (w : Word) : encodeLine t (tokenize (render hc (decodeEntry t mode addr w))) = .ok w := by
  cases mode with
  | dataMode => exact encodeLine_render_data t hc addr w
  | decoding =>
    cases hrow : lookupByWord t w with
    | none => rw [decodeEntry_of_no_row hrow, encodeLine_render_data]
    | some f => rw [decodeEntry_of_row hrow, encodeLine_render_code ht hs hc addr hrow]

/-- Settles O27: the printed operands are tokens of their slots with the values of the word, WF5 finds the row again, and packing
the values gives the word back. -/
theorem decodeThenEncodeReturnsTheWord : Obligations.DecodeThenEncodeReturnsTheWord :=
  fun _ ht hs hc mode addr w => encodeLine_render_decodeEntry ht hs hc mode addr w

end Sys2Proof.Laws
end

section
/-! PROOFS. The errors of a line, in their order (R140 to R146), over any table. -/

namespace Sys2Proof.Laws

open Sys2Proof.Machine

/-! ## The choice of a row, or an error -/

/-- R146 steps 1 to 3: mnemonic, then operand count, then operand kinds. -/
theorem selectRow_eq (t : Table) (line : Line) : selectRow t line =
    if ∀ f ∈ t, f.mnemonic ≠ line.mn then .error .unknownInstruction
    else if ∀ f ∈ t, f.mnemonic = line.mn → f.slots.length ≠ line.ops.length then .error .operandArityMismatch
    else match lookupByText t line.mn line.ops with
      | none => .error .unknownInstruction
      | some f => .ok f := by
  have hmn : (∀ f ∈ t, f.mnemonic ≠ line.mn) ↔ t.filter (fun f => f.mnemonic == line.mn) = [] := by
    simp [List.filter_eq_nil_iff]
  have hcount : (∀ f ∈ t, f.mnemonic = line.mn → f.slots.length ≠ line.ops.length) ↔
      (t.filter fun f => f.mnemonic == line.mn).filter (fun f => f.slots.length == line.ops.length) = [] := by
    simpa [List.filter_eq_nil_iff] using forall₂_congr fun _ _ => imp_not_comm
  rw [lookupByText, ← List.head?_filter, ← selectRow_filters]
  simp only [hmn, hcount, selectRow]
  generalize (t.filter fun f => f.mnemonic == line.mn) = c1
  cases c1 with
  | nil => rfl
  | cons a c1 =>
    generalize ((a :: c1).filter fun f => f.slots.length == line.ops.length) = c2
    cases c2 with
    | nil => rfl
    | cons b c2 => cases (b :: c2).filter fun f => acceptsAll f.slots line.ops <;> rfl

/-- R143: packing fails exactly when some value does not fit, and then with `FieldOverflow`. -/
theorem packVals_cases (p : Word) (vals : Vals) :
    ((∀ v ∈ vals, v.2 < 2 ^ v.1.width) ∧
      packVals p vals = .ok (vals.foldl (fun u v => u ||| BitVec.ofNat 16 v.2 <<< v.1.offset) p)) ∨
    ((∃ v ∈ vals, 2 ^ v.1.width ≤ v.2) ∧ packVals p vals = .error .fieldOverflow) := by
  by_cases hfits : ∀ v ∈ vals, v.2 < 2 ^ v.1.width
  · exact .inl ⟨hfits, packVals_ok p hfits⟩
  · have hover : ∃ v ∈ vals, 2 ^ v.1.width ≤ v.2 := by simpa using hfits
    exact .inr ⟨hover, packVals_overflow p hover⟩

/-- R146: a line that no row accepts is one of the first two errors. -/
theorem encodeLine_of_no_row {t : Table} {line : Line} (hdb : line.mn ≠ dbMnemonic)
    (h : lookupByText t line.mn line.ops = none) : encodeLine t line =
      if (∃ f ∈ t, f.mnemonic = line.mn) ∧ ∀ f ∈ t, f.mnemonic = line.mn → f.slots.length ≠ line.ops.length
      then .error .operandArityMismatch else .error .unknownInstruction := by
  rw [encodeLine_row hdb, selectRow_eq, h]
  by_cases hmn : ∀ f ∈ t, f.mnemonic ≠ line.mn
  · have hnot : ¬∃ f ∈ t, f.mnemonic = line.mn := by simpa using hmn
    rw [if_pos hmn, if_neg fun h => hnot h.1]
  · have hsome : ∃ f ∈ t, f.mnemonic = line.mn := by simpa using hmn
    rw [if_neg hmn]
    split_ifs <;> simp_all

/-- R146: a line that no row accepts has no arity error exactly when the mnemonic is unknown or some row has the right count. -/
theorem not_arity_iff (t : Table) (line : Line) :
    ¬((∃ f ∈ t, f.mnemonic = line.mn) ∧ ∀ f ∈ t, f.mnemonic = line.mn → f.slots.length ≠ line.ops.length) ↔
      (∀ f ∈ t, f.mnemonic ≠ line.mn) ∨ ∃ f ∈ t, f.mnemonic = line.mn ∧ f.slots.length = line.ops.length := by
  rw [not_and_or]
  push Not
  rfl

/-- R146: the ladder for a line that no row accepts. -/
theorem ladder_of_no_row {t : Table} {line : Line} (hdb : line.mn ≠ dbMnemonic) (h : lookupByText t line.mn line.ops = none) :
    (encodeLine t line = .error .unknownInstruction ↔ (∀ f ∈ t, f.mnemonic ≠ line.mn) ∨
      ∃ f ∈ t, f.mnemonic = line.mn ∧ f.slots.length = line.ops.length) ∧
    (encodeLine t line = .error .operandArityMismatch ↔
      (∃ f ∈ t, f.mnemonic = line.mn) ∧ ∀ f ∈ t, f.mnemonic = line.mn → f.slots.length ≠ line.ops.length) ∧
    encodeLine t line ≠ .error .fieldOverflow ∧ ∀ w, encodeLine t line ≠ .ok w := by
  rw [encodeLine_of_no_row hdb h, ← not_arity_iff]
  split_ifs with harity
  · exact ⟨iff_of_false (by simp) (not_not.2 harity), iff_of_true rfl harity, by simp, by simp⟩
  · exact ⟨iff_of_true rfl harity, iff_of_false (by simp) harity, by simp, by simp⟩

/-- Settles O19: a line with a row packs or overflows, a line without one is told apart by mnemonic and count. -/
theorem encodeErrorLadder : Obligations.EncodeErrorLadder := by
  intro t line hdb
  cases hrow : lookupByText t line.mn line.ops with
  | none =>
    obtain ⟨hunknown, harity, hoverflow, hok⟩ := ladder_of_no_row hdb hrow
    exact ⟨by simpa using hunknown, harity, by simpa using hoverflow, by simpa using hok⟩
  | some f =>
    obtain ⟨hf, hmn, hops⟩ := lookupByText_some hrow
    have hsome : ¬∀ g ∈ t, g.mnemonic ≠ line.mn := fun h => h f hf hmn
    have hcount : ¬∀ g ∈ t, g.mnemonic = line.mn → g.slots.length ≠ line.ops.length := fun h => h f hf hmn (acceptsAll_length hops)
    rw [encodeLine_of_lookup hdb hrow]
    rcases packVals_cases f.pattern (bindVals f.slots line.ops) with ⟨hfits, hpack⟩ | ⟨hover, hpack⟩
    · have hnot : ¬∃ v ∈ bindVals f.slots line.ops, 2 ^ v.1.width ≤ v.2 := by simpa using hfits
      simp only [hpack, hsome, hcount, Option.some.injEq, exists_eq_left', hnot, and_iff_right hfits, Except.ok.injEq]
      simp [eq_comm]
    · have hnot : ¬∀ v ∈ bindVals f.slots line.ops, v.2 < 2 ^ v.1.width := by simpa using hover
      simp only [hpack, hsome, hcount, Option.some.injEq, exists_eq_left', hnot, iff_true_intro hover]
      simp

end Sys2Proof.Laws
end

section
/-! PROOFS. The lines of the default table and of raw data: their words, or their errors (the Encode and Errors clauses of
R100 to R135). -/

namespace Sys2Proof.Laws

open Sys2Proof.Machine

/-! ## Raw data -/

/-- R63: the word of two bytes as a number. -/
theorem packDb_eq (hi lo : Nat) : packDb hi lo =
    if hi < 0x100 ∧ lo < 0x100 then .ok (BitVec.ofNat 16 (256 * hi + lo)) else .error .fieldOverflow := by
  split_ifs with hfits
  · have hwf : (Instr.db hi lo).WellFormed := by simpa [Instr.WellFormed, Instr.fits, byteFits] using hfits
    rw [← packDb_ok_toNat (pack_db hi lo hwf), BitVec.ofNat_toNat, BitVec.setWidth_eq, pack_db hi lo hwf]
  · exact if_pos (by omega)

/-- R63: two operands that are not two hashes are no byte pair. -/
theorem selectDb_of_not_hash {a b : Tok} (h : (∀ v, a ≠ .hash v) ∨ ∀ v, b ≠ .hash v) :
    selectDb [a, b] = .error .unknownInstruction := by
  cases a with
  | hash hi =>
    cases b with
    | hash lo => exact (h.elim (· hi rfl) (· lo rfl)).elim
    | reg _ | label _ | pseudo _ | bad => rfl
  | reg _ | label _ | pseudo _ | bad => rfl

/-- R63: any other count than two is an arity error. -/
theorem selectDb_of_count {ops : List Tok} (h : ops.length ≠ 2) : selectDb ops = .error .operandArityMismatch := by
  unfold selectDb
  split
  · exact absurd rfl h
  · exact absurd rfl h
  all_goals rfl

/-- R63: an error in the choice of the two bytes is the line's. -/
theorem encodeDb_of_error {ops : List Tok} {e : EncErr} (h : selectDb ops = .error e) : encodeDb ops = .error e := by
  rw [encodeDb, h]

/-- Settles O26: the table has no part in a `db` line, and `selectDb` tells its three errors apart. -/
theorem rawDataLinesEncode : Obligations.RawDataLinesEncode := fun t =>
  ⟨fun hi lo => (encodeLine_db t _).trans (packDb_eq hi lo),
    fun _ _ h => (encodeLine_db t _).trans (encodeDb_of_error (selectDb_of_not_hash h)),
    fun _ h => (encodeLine_db t _).trans (encodeDb_of_error (selectDb_of_count h))⟩

/-! ## Operand counts -/

/-- R142: the operand counts listed for a mnemonic are those of its rows. -/
theorem operandCounts_rows : ∀ e ∈ operandCounts, e.1 ≠ dbMnemonic →
    (∃ f ∈ defaultTable, f.mnemonic = e.1) ∧ (∀ n ∈ e.2, ∃ f ∈ defaultTable, f.mnemonic = e.1 ∧ f.slots.length = n) ∧
      ∀ f ∈ defaultTable, f.mnemonic = e.1 → f.slots.length ∈ e.2 := by decide

/-- R142: raw data is listed with its one count. -/
theorem operandCounts_db : ∀ e ∈ operandCounts, e.1 = dbMnemonic → e.2 = [2] := by decide

/-- R142: every mnemonic of the default table is listed. -/
theorem operandCounts_complete : ∀ f ∈ defaultTable, ∃ e ∈ operandCounts, e.1 = f.mnemonic := by decide

/-- R142: a `db` line has an arity error exactly when it has not two operands. -/
theorem encodeDb_arity_iff (ops : List Tok) : encodeDb ops = .error .operandArityMismatch ↔ ops.length ≠ 2 := by
  constructor
  · intro h hlen
    obtain ⟨a, b, rfl⟩ := List.length_eq_two.1 hlen
    by_cases hhash : (∃ v, a = .hash v) ∧ ∃ v, b = .hash v
    · obtain ⟨⟨hi, rfl⟩, ⟨lo, rfl⟩⟩ := hhash
      rw [show encodeDb [.hash hi, .hash lo] = packDb hi lo from rfl, packDb_eq] at h
      split_ifs at h
      cases h
    · have hnot : (∀ v, a ≠ .hash v) ∨ ∀ v, b ≠ .hash v := by simpa only [not_and_or, not_exists] using hhash
      rw [encodeDb_of_error (selectDb_of_not_hash hnot)] at h
      cases h
  · exact fun h => encodeDb_of_error (selectDb_of_count h)

/-- R142: in the default table a mnemonic's rows all have other counts exactly when the count is none of those listed for it. -/
theorem arity_iff_operandCounts {mn : Text} (hdb : mn ≠ dbMnemonic) (n : Nat) :
    ((∃ f ∈ defaultTable, f.mnemonic = mn) ∧ ∀ f ∈ defaultTable, f.mnemonic = mn → f.slots.length ≠ n) ↔
      ∃ e ∈ operandCounts, e.1 = mn ∧ n ∉ e.2 := by
  constructor
  · rintro ⟨⟨f, hf, hmn⟩, hcount⟩
    obtain ⟨e, he, hef⟩ := operandCounts_complete f hf
    obtain ⟨-, hlisted, -⟩ := operandCounts_rows e he (by rwa [hef, hmn])
    refine ⟨e, he, hef.trans hmn, fun hn => ?_⟩
    obtain ⟨g, hg, hgmn, hlen⟩ := hlisted n hn
    exact hcount g hg (hgmn.trans (hef.trans hmn)) hlen
  · rintro ⟨e, he, rfl, hn⟩
    obtain ⟨hsome, -, hcounts⟩ := operandCounts_rows e he hdb
    exact ⟨hsome, fun f hf hmn hlen => hn (hlen ▸ hcounts f hf hmn)⟩

/-- Settles O20: the ladder says when a line has an arity error, and the listed counts are those of the rows. -/
theorem operandCountsOfTheDefaultTable : Obligations.OperandCountsOfTheDefaultTable := by
  rintro ⟨mn, ops⟩
  by_cases hdb : mn = dbMnemonic
  · subst hdb
    have hlisted : (dbMnemonic, [2]) ∈ operandCounts := by decide
    rw [encodeLine_db, encodeDb_arity_iff]
    constructor
    · exact fun h => ⟨_, hlisted, rfl, by simpa using h⟩
    · rintro ⟨e, he, hmn, hn⟩
      simpa [operandCounts_db e he hmn] using hn
  · obtain ⟨-, harity, -⟩ := encodeErrorLadder defaultTable ⟨mn, ops⟩ hdb
    exact harity.trans (arity_iff_operandCounts hdb ops.length)

/-! ## Lines of a row -/

/-- R60: a line whose tokens a row of the default table accepts, and bind an instruction's values, is the instruction's encoding. -/
theorem encodesIf_of_form {i : Instr} {f : Format} {mn : String} {ops : List Tok}
    (hform : formOf i = some (f, bindVals f.slots ops)) (hmn : f.mnemonic = mn.toList) (hops : acceptsAll f.slots ops = true) :
    encodesIf i.fits mn ops (encode i) := by
  obtain ⟨hf, -⟩ := encodePacksRow i f _ hform
  have hdb : mn.toList ≠ dbMnemonic := by
    obtain ⟨-, -, -, -, hne⟩ := defaultTable_wellFormed.1 f hf
    rwa [← hmn]
  have hrow : lookupByText defaultTable mn.toList ops = some f := by
    rw [← hmn]
    exact lookupByText_defaultTable hf hops
  rw [encodesIf, encodeLine_of_lookup (line := ⟨mn.toList, ops⟩) hdb hrow, packVals_formOf hform, encoding]

/-- R106 (D12): `JP` with two operands wants `v0` first. -/
theorem lookupByText_jp_register {i : Nibble} (hi : i ≠ 0x0#4) (a : Tok) :
    lookupByText defaultTable "JP".toList [.reg i, a] = none := by
  have hrows : ∀ f ∈ defaultTable, f.mnemonic = "JP".toList → f.slots = [.NNN] ∨ f.slots = [.V0, .NNN] := by decide
  rw [Option.eq_none_iff_forall_ne_some]
  intro f h
  obtain ⟨hf, hmn, hops⟩ := lookupByText_some h
  rcases hrows f hf hmn with hslots | hslots <;> simp [hslots, acceptsAll, accepts, hi] at hops

/-- R141, R146 step 3: and is unknown with any other register. -/
theorem encodeLine_jp_register {i : Nibble} (hi : i ≠ 0x0#4) (a : Tok) :
    encodeLine defaultTable ⟨"JP".toList, [.reg i, a]⟩ = .error .unknownInstruction := by
  obtain ⟨hunknown, -⟩ := encodeErrorLadder defaultTable ⟨"JP".toList, [.reg i, a]⟩
    (by decide : "JP".toList ≠ dbMnemonic)
  exact hunknown.2 (.inr ⟨⟨rowJpV0Nnn, by decide, rfl, rfl⟩, lookupByText_jp_register hi a⟩)

/-- Settles O22: each line is a row's, for a hash and for a label, and the word is the row's Encode clause. -/
theorem noneAndAddressLinesEncode : Obligations.NoneAndAddressLinesEncode := by
  refine ⟨encodesIf_of_form (i := .cls) rfl rfl rfl, encodesIf_of_form (i := .ret) rfl rfl rfl, fun v a ha => ?_⟩
  have hsys : encode (.sysNnn v) = BitVec.ofNat 16 v := BitVec.zero_or
  rcases ha with rfl | rfl
  all_goals
    exact ⟨hsys ▸ encodesIf_of_form (i := .sysNnn v) rfl rfl rfl, encodesIf_of_form (i := .jpNnn v) rfl rfl rfl,
      encodesIf_of_form (i := .callNnn v) rfl rfl rfl, encodesIf_of_form (i := .ldINnn v) rfl rfl rfl,
      encodesIf_of_form (i := .jpV0Nnn v) rfl rfl rfl, fun i hi => encodeLine_jp_register hi _⟩

/-- R107 to R111 (D7): a label is no byte. -/
theorem encodeLine_register_label (x : Nibble) (v : Nat) :
    ∀ mn ∈ ["SE".toList, "SNE".toList, "LD".toList, "ADD".toList, "RND".toList],
      encodeLine defaultTable ⟨mn, [.reg x, .label v]⟩ = .error .unknownInstruction := by
  simp only [List.forall_mem_cons, List.not_mem_nil, false_implies, implies_true, and_true]
  exact ⟨rfl, rfl, rfl, rfl, rfl⟩

/-- Settles O23: each line is a row's, and the word is the row's Encode clause. -/
theorem registerByteLinesEncode : Obligations.RegisterByteLinesEncode := by
  intro x kk
  simp only [← BitVec.or_assoc]
  exact ⟨encodesIf_of_form (i := .seXkk x kk) rfl rfl rfl, encodesIf_of_form (i := .sneXkk x kk) rfl rfl rfl,
    encodesIf_of_form (i := .ldXkk x kk) rfl rfl rfl, encodesIf_of_form (i := .addXkk x kk) rfl rfl rfl,
    encodesIf_of_form (i := .rndXkk x kk) rfl rfl rfl, encodeLine_register_label x kk⟩

/-- Settles O24: each line is a row's, and the word is the row's Encode clause. -/
theorem twoRegisterLinesEncode : Obligations.TwoRegisterLinesEncode := by
  intro x y
  simp only [← BitVec.or_assoc]
  exact ⟨encodesIf_of_form (i := .seXy x y) rfl rfl rfl, encodesIf_of_form (i := .ldXy x y) rfl rfl rfl,
    encodesIf_of_form (i := .orXy x y) rfl rfl rfl, encodesIf_of_form (i := .andXy x y) rfl rfl rfl,
    encodesIf_of_form (i := .xorXy x y) rfl rfl rfl, encodesIf_of_form (i := .addXy x y) rfl rfl rfl,
    encodesIf_of_form (i := .subXy x y) rfl rfl rfl, encodesIf_of_form (i := .shrXy x y) rfl rfl rfl,
    encodesIf_of_form (i := .subnXy x y) rfl rfl rfl, encodesIf_of_form (i := .shlXy x y) rfl rfl rfl,
    encodesIf_of_form (i := .sneXy x y) rfl rfl rfl⟩

/-- Settles O25: each line is a row's, and the word is the row's Encode clause. -/
theorem drawKeyTimerLinesEncode : Obligations.DrawKeyTimerLinesEncode := fun x y n =>
  ⟨encodesIf_of_form (i := .drwXyn x y n) rfl rfl rfl,
    encodesIf_of_form (i := .skpX x) rfl rfl rfl, encodesIf_of_form (i := .sknpX x) rfl rfl rfl,
    encodesIf_of_form (i := .ldXDt x) rfl rfl rfl, encodesIf_of_form (i := .ldXK x) rfl rfl rfl,
    encodesIf_of_form (i := .ldDtX x) rfl rfl rfl, encodesIf_of_form (i := .ldStX x) rfl rfl rfl,
    encodesIf_of_form (i := .addIX x) rfl rfl rfl, encodesIf_of_form (i := .ldFX x) rfl rfl rfl,
    encodesIf_of_form (i := .ldBX x) rfl rfl rfl, encodesIf_of_form (i := .ldIndX x) rfl rfl rfl,
    encodesIf_of_form (i := .ldXInd x) rfl rfl rfl⟩

end Sys2Proof.Laws
end

section
/-! PROOFS. What `exec` does with each instruction, by the side that is asked (R60, R66, R69, R143, R154). -/

namespace Sys2Proof.Laws

open Sys2Proof.Machine

/-! ## `exec` by the request at the head -/

/-- R66, R135, R136: the entry an instruction is delivered as: of its row by MODE, or the Data Entry of raw data. -/
def instrEntry (i : Instr) (s : State) : Entry :=
  match formOf i with
  | some form => rowEntry form.1 form.2 (encode i) s
  | none => .data s.addr (encode i)

/-- R66: a row's instruction in `Decoding` is its Code Entry. -/
theorem instrEntry_of_decoding {i : Instr} {f : Format} {vals : Vals} (hform : formOf i = some (f, vals)) {s : State}
    (hm : s.mode = .decoding) : instrEntry i s = .code s.addr f vals := by
  simp only [instrEntry, hform, rowEntry, hm]

/-- R136: in `DataMode` every instruction is the Data Entry of its word. -/
theorem instrEntry_of_dataMode (i : Instr) {s : State} (hm : s.mode = .dataMode) : instrEntry i s = .data s.addr (encode i) := by
  cases hform : formOf i <;> simp only [instrEntry, hform, rowEntry, hm]

/-- R69: on a word, `exec` of a well-formed instruction is a `DecStep` of its entry. -/
theorem exec_dec {i : Instr} (hwf : i.WellFormed) {s : State} {v : Word} (h : s.Presents (.dec v)) :
    exec i s = .next (decCommit (instrEntry i s) s) := by
  cases hform : formOf i with
  | none =>
    obtain ⟨hh, ll, rfl⟩ := formOf_none hform
    exact performData_dec h (pack_db hh ll hwf)
  | some form =>
    rw [exec_eq_perform hform, perform_dec h ((packVals_formOf hform).trans (encoding_wellFormed hwf))]
    simp only [instrEntry, hform]

/-- R64: on a line, `exec` of an instruction commits its encoding. -/
theorem exec_enc_encoding (i : Instr) {s : State} {line : Line} (h : s.Presents (.enc line)) :
    exec i s = .next (encCommit line (encoding i) s) := by
  cases hform : formOf i with
  | none =>
    obtain ⟨hh, ll, rfl⟩ := formOf_none hform
    rw [exec_db, performData_enc h, packDb_encoding]
  | some form => rw [exec_eq_perform hform, perform_enc h, packVals_formOf hform]

/-- Log 9: no word is an ill-formed instruction. -/
theorem exec_dec_of_not_wellFormed {i : Instr} (hwf : ¬i.WellFormed) {s : State} {v : Word} (h : s.Presents (.dec v)) :
    exec i s = .fault .noSuchWord := by
  obtain ⟨rest, hr⟩ := List.head?_eq_some_iff.1 h
  have hover := encoding_not_wellFormed hwf
  cases hform : formOf i with
  | none =>
    obtain ⟨hh, ll, rfl⟩ := formOf_none hform
    rw [← packDb_encoding] at hover
    simp only [exec_db, performData, hr, hover]
  | some form =>
    rw [← packVals_formOf hform] at hover
    simp only [exec_eq_perform hform, perform, hr, hover]

/-- Log 8: with neither a word nor a line first there is no side that is asked. -/
theorem exec_of_neither (i : Instr) {s : State} (hdec : ∀ w, ¬s.Presents (.dec w)) (henc : ∀ line, ¬s.Presents (.enc line)) :
    exec i s = .refused .noRequest := by
  suffices h : (∀ f vals, perform f vals s = .refused .noRequest) ∧ ∀ hh ll, performData hh ll s = .refused .noRequest by
    cases hform : formOf i with
    | none =>
      obtain ⟨hh, ll, rfl⟩ := formOf_none hform
      exact h.2 hh ll
    | some form => rw [exec_eq_perform hform, h.1]
  cases hreq : s.requests with
  | nil => simp only [perform, performData, hreq, implies_true, and_self]
  | cons r rest =>
    cases r with
    | dec w => exact absurd (by rw [State.Presents, hreq]; rfl) (hdec w)
    | enc line => exact absurd (by rw [State.Presents, hreq]; rfl) (henc line)
    | reset k => simp only [perform, performData, hreq, implies_true, and_self]

/-- Everything `exec` does when it goes on: one entry delivered or refused, or one line answered. -/
theorem exec_next {i : Instr} {s t : State} (h : exec i s = .next t) :
    (∃ w e, s.Presents (.dec w) ∧ t = decCommit e s) ∨ ∃ line r, s.Presents (.enc line) ∧ t = encCommit line r s := by
  cases hform : formOf i with
  | none =>
    obtain ⟨hh, ll, rfl⟩ := formOf_none hform
    rcases performData_next h with ⟨v, w, hp, -, ht⟩ | ⟨line, hp, ht⟩
    · exact .inl ⟨v, _, hp, ht⟩
    · exact .inr ⟨line, _, hp, ht⟩
  | some form =>
    rw [exec_eq_perform hform] at h
    rcases perform_next h with ⟨v, w, hp, -, ht⟩ | ⟨line, hp, ht⟩
    · exact .inl ⟨v, _, hp, ht⟩
    · exact .inr ⟨line, _, hp, ht⟩

/-! ## The DEC side -/

/-- R47, R136: the printed line of a Data Entry. -/
theorem render_data (hc : HexCase) (addr : Nat) (w : Word) : render hc (.data addr w) =
    "db #".toList ++ hexText hc 2 (w.toNat / 256) ++ ", #".toList ++ hexText hc 2 (w.toNat % 256) := by
  obtain ⟨hhigh, hlow⟩ := bytes_toNat w
  rw [render, hhigh, hlow]
  rfl

/-- R69: a Data Entry changes no MODE. -/
theorem nextMode_data (m : Mode) (addr : Nat) (e : Nat) (w : Word) : nextMode m addr (.data e w) = m := by cases m <;> rfl

/-- R69: a Code Entry of another row than `JP_NNN` keeps `Decoding`. -/
theorem nextMode_code {f : Format} (hid : f.id ≠ .jpNnn) (addr : Nat) (e : Nat) (vals : Vals) :
    nextMode .decoding addr (.code e f vals) = .decoding := by
  simp [nextMode, isSelfJump, hid]

/-- R69: a performed `DecStep` of a row's instruction in `Decoding`, with its text. -/
theorem exec_dec_code {i : Instr} {f : Format} {vals : Vals} (hform : formOf i = some (f, vals)) (hwf : i.WellFormed) {s : State}
    {w : Word} (hp : s.Presents (.dec w)) (hr : s.DecReady) (hm : s.mode = .decoding) :
    exec i s = .next (s.afterDec (nextMode .decoding s.addr (.code s.addr f vals)) (.code s.addr f vals)
      (joinLine f.mnemonic (f.slots.map (renderSlot s.params.hexcase f.id vals)))) := by
  rw [exec_dec hwf hp, instrEntry_of_decoding hform hm, decCommit_ready hr, hm]
  rfl

/-- R100 to R134: what a row is said to do in `Decoding`, for every row but `JP_NNN`. -/
theorem decodesAs_of_form {i : Instr} {f : Format} {vals : Vals} {text : HexCase → Text} (hform : formOf i = some (f, vals))
    (hwf : i.WellFormed) (hid : f.id ≠ .jpNnn)
    (htext : ∀ hc, joinLine f.mnemonic (f.slots.map (renderSlot hc f.id vals)) = text hc) : decodesAs i f vals text := by
  intro s w hp hr hm
  rw [exec_dec_code hform hwf hp hr hm, nextMode_code hid, htext]

/-- R103, R69 (D17): `JP` to its own address sets `DataMode`. -/
theorem nextMode_jp (nnn addr : Nat) : nextMode .decoding addr (.code addr rowJpNnn [(.nnn, nnn)]) =
    if nnn = addr then .dataMode else .decoding := by
  have hself : isSelfJump addr (.code addr rowJpNnn [(.nnn, nnn)]) = true ↔ nnn = addr := by
    simp [isSelfJump, rowJpNnn, valueOf_cons]
  simp only [nextMode, hself]

/-- Settles O29: each is its row's Code Entry, printed slot by slot; `JP` alone looks at ADDR. -/
theorem noneAndAddressRowsDecode : Obligations.NoneAndAddressRowsDecode := by
  refine ⟨decodesAs_of_form rfl rfl (by decide) fun _ => rfl, decodesAs_of_form rfl rfl (by decide) fun _ => rfl,
    fun nnn hnnn => ?_⟩
  have hfits : addressFits nnn = true := decide_eq_true hnnn
  refine ⟨decodesAs_of_form rfl hfits (by decide) fun _ => rfl, decodesAs_of_form rfl hfits (by decide) fun _ => rfl,
    decodesAs_of_form rfl hfits (by decide) fun _ => rfl, decodesAs_of_form rfl hfits (by decide) fun _ => rfl,
    fun s w hp hr hm => ?_⟩
  rw [exec_dec_code (i := .jpNnn nnn) rfl hfits hp hr hm, nextMode_jp]
  rfl

/-- Settles O30: each is its row's Code Entry, printed slot by slot. -/
theorem registerByteRowsDecode : Obligations.RegisterByteRowsDecode := by
  intro x kk hkk
  have hfits : byteFits kk = true := decide_eq_true hkk
  exact ⟨decodesAs_of_form rfl hfits (by decide) fun _ => rfl, decodesAs_of_form rfl hfits (by decide) fun _ => rfl,
    decodesAs_of_form rfl hfits (by decide) fun _ => rfl, decodesAs_of_form rfl hfits (by decide) fun _ => rfl,
    decodesAs_of_form rfl hfits (by decide) fun _ => rfl⟩

/-- Settles O31: each is its row's Code Entry, printed slot by slot. -/
theorem twoRegisterRowsDecode : Obligations.TwoRegisterRowsDecode := by
  intro x y
  and_intros <;> exact decodesAs_of_form rfl rfl (by decide) fun _ => rfl

/-- Settles O32: each is its row's Code Entry, printed slot by slot. -/
theorem drawKeyTimerRowsDecode : Obligations.DrawKeyTimerRowsDecode := by
  intro x y n hn
  refine ⟨decodesAs_of_form rfl (decide_eq_true hn) (by decide) fun _ => rfl, ?_⟩
  and_intros <;> exact decodesAs_of_form rfl rfl (by decide) fun _ => rfl

/-- Settles O33: raw data has no row, and its entry is the Data Entry of its word in either mode. -/
theorem rawDataDecodes : Obligations.RawDataDecodes := by
  intro hh ll hhigh hlow s w hp hr
  have hword : packDb hh ll = .ok (BitVec.ofNat 16 (256 * hh + ll)) := by rw [packDb_eq, if_pos ⟨hhigh, hlow⟩]
  have hdiv : (256 * hh + ll) / 256 = hh := by omega
  have hmod : (256 * hh + ll) % 256 = ll := by omega
  rw [exec_db, performData_dec hp hword, decCommit_ready hr, nextMode_data, render_data, packDb_ok_toNat hword, hdiv, hmod]

/-- Settles O34: in `DataMode` the entry of every instruction is the Data Entry of its word. -/
theorem dataModeRendersEverythingAsData : Obligations.DataModeRendersEverythingAsData := by
  intro i s v hwf hp hr hm
  rw [exec_dec hwf hp, instrEntry_of_dataMode i hm, decCommit_ready hr, hm, nextMode_dataMode, render_data]

/-- R154(b), R5: with `n`-bit counters there is room while the address is not above `2^n - 4`. -/
theorem decReady_iff_le {s : State} {n : Nat} (hn : s.params.addrw = some n) (htwo : 2 ≤ n) : s.DecReady ↔ s.addr ≤ 2 ^ n - 4 := by
  have hfour : 2 ^ 2 ≤ 2 ^ n := Nat.pow_le_pow_right (by decide) htwo
  rw [State.DecReady, hasRoom_iff, hn]
  simp only [Option.some.injEq, forall_eq']
  omega

/-- Settles O35: a refused `DecStep` looks at no entry. -/
theorem decodeRefusedWithoutRoom : Obligations.DecodeRefusedWithoutRoom :=
  ⟨fun i s v hwf hp hr => by rw [exec_dec hwf hp, decCommit_notReady hr], fun _ _ hn htwo => decReady_iff_le hn htwo,
    fun s h => hasRoom_unbounded h s.addr⟩

/-! ## The ENC side -/

/-- Settles O36: a well-formed instruction's encoding is its word. -/
theorem everyInstructionEncodes : Obligations.EveryInstructionEncodes := by
  intro i s line hwf hp hr
  rw [exec_enc_encoding i hp, encoding_wellFormed hwf, encCommit_ok hr]
  rfl

/-- Settles O37: any other instruction's encoding is `FieldOverflow`. -/
theorem oversizeOperandTakesFieldOverflow : Obligations.OversizeOperandTakesFieldOverflow := by
  intro i s line hwf hp hr
  rw [exec_enc_encoding i hp, encoding_not_wellFormed hwf, encCommit_error hr]
  rfl

/-- R154: a step on a line records a refusal exactly when it is not performed. -/
theorem step_enc_refused_iff {s : State} {line : Line} (hp : s.Presents (.enc line)) :
    (∃ t, step s = .next t ∧ ∃ rs, t = s.afterRefusal rs) ↔ ¬s.EncReady := by
  obtain ⟨r, hstep⟩ := step_enc line
  constructor
  · rintro ⟨t, ht, rs, rfl⟩ hr
    rw [hstep hp] at ht
    injection ht with ht
    have hres := congrArg State.results ht
    rcases encCommit_cases line r s with ⟨-, w, -, h⟩ | ⟨-, e, -, h⟩ | ⟨hnot, -⟩
    · simp [h] at hres
    · simp [h] at hres
    · exact hnot hr
  · intro hr
    exact ⟨_, hstep hp, _, encCommit_notReady hr line r⟩

/-- Settles O38: a refused `EncStep` looks at no encoding, and tells the reasons that apply. -/
theorem encodeRefusedWhileAbortedOrWithoutRoom : Obligations.EncodeRefusedWhileAbortedOrWithoutRoom := by
  intro i s line hp
  have hrefused : ¬s.EncReady → exec i s = .next (s.afterRefusal (encRefusals s)) := fun hr => by
    rw [exec_enc_encoding i hp, encCommit_notReady hr]
  refine ⟨fun he hroom => ?_, fun he hroom => ?_, fun he hroom => ?_, step_enc_refused_iff hp⟩ <;>
    · rw [hrefused (by simp [he, hroom])]
      simp [encRefusals, he, hroom]

end Sys2Proof.Laws
end

section
/-! PROOFS. A step as the service of its request: the table-driven `DecStep`, the table-driven `EncStep`, or a reset
(R60, R64, R69). -/

namespace Sys2Proof.Laws

open Sys2Proof.Machine

/-! ## The instruction of a line -/

/-- The value an instruction's operand hands back for a field: a register field passes through a nibble. -/
def throughNibble (g : Field → Nat) : Field → Nat
  | .x => (BitVec.ofNat 4 (g .x)).toNat
  | .y => (BitVec.ofNat 4 (g .y)).toNat
  | f => g f

/-- R11: nothing is lost in the nibble where the registers are indices. -/
theorem throughNibble_eq {g : Field → Nat} (hx : g .x < 16) (hy : g .y < 16) : throughNibble g = g := by
  funext f
  cases f with
  | x => exact Nat.mod_eq_of_lt hx
  | y => exact Nat.mod_eq_of_lt hy
  | n | kk | nnn => rfl

/-- R36: for each of the 35 rows, any values of its fields make an instruction of that row with those values. -/
theorem instrOf_fieldValues (g : Field → Nat) : ∀ f ∈ defaultTable,
    ∃ i, instrOf f.id ((boundFields f.slots).map fun a => (a, g a)) = some i ∧
      formOf i = some (f, (boundFields f.slots).map fun a => (a, throughNibble g a)) := by
  simp only [defaultTable, List.cons_append, List.nil_append, List.forall_mem_cons, List.not_mem_nil, false_implies,
    implies_true, and_true]
  and_intros <;> exact ⟨_, rfl, rfl⟩

/-- R44: a slot that binds a register field accepts registers alone, so its value is an index. -/
theorem tokenValue_lt_of_register {slot : Slot} {tok : Tok} (h : accepts slot tok = true) {f : Field} (hf : slot.field = some f)
    (hreg : f = .x ∨ f = .y) : tokenValue tok < 16 := by
  cases slot with
  | X | Y =>
    cases tok with
    | reg i => exact i.isLt
    | hash _ | label _ | pseudo _ | bad => cases h
  | V0 | P p => cases hf
  | KK | N | NNN =>
    cases hf
    simp at hreg

/-- R44, R45: the register values of a line are indices. -/
theorem bindVals_register_lt {slots : List Slot} {ops : List Tok} (h : acceptsAll slots ops = true) :
    ∀ v ∈ bindVals slots ops, v.1 = .x ∨ v.1 = .y → v.2 < 16 := by
  obtain ⟨-, haccept⟩ := List.forall₂_iff_zip.1 ((acceptsAll_iff _ _).1 h)
  intro v hv hreg
  obtain ⟨⟨slot, tok⟩, hmem, hsome⟩ := List.mem_filterMap.1 hv
  obtain ⟨f, hf, rfl⟩ := Option.map_eq_some_iff.1 hsome
  exact tokenValue_lt_of_register (haccept hmem) hf hreg

/-- R67: a bound on all values given for a field is one on the value read for it. -/
theorem valueOf_lt {vals : Vals} {f : Field} {b : Nat} (hb : 0 < b) (h : ∀ v ∈ vals, v.1 = f → v.2 < b) : valueOf vals f < b := by
  induction vals with
  | nil => exact hb
  | cons v vals ih =>
    obtain ⟨hv, hvals⟩ := List.forall_mem_cons.1 h
    rw [valueOf_cons]
    split_ifs with hf
    · exact hv hf.symm
    · exact ih hvals

/-- R67: values for different fields are the fields with the values read for them. -/
theorem eq_map_valueOf {vals : Vals} (h : (vals.map Prod.fst).Nodup) :
    vals = (vals.map Prod.fst).map fun a => (a, valueOf vals a) := by
  rw [List.map_map]
  refine (List.map_id vals).symm.trans (List.map_congr_left fun v hv => ?_)
  induction vals with
  | nil => cases hv
  | cons u vals ih =>
    obtain ⟨hu, hvals⟩ := List.nodup_cons.1 h
    rw [Function.comp_apply, valueOf_cons]
    rcases List.mem_cons.1 hv with rfl | hv
    · rw [if_pos rfl]
      rfl
    · rw [if_neg fun (heq : v.1 = u.1) => hu (heq ▸ List.mem_map_of_mem hv)]
      exact ih hvals hv

/-- R60: a line whose tokens a row of the default table accepts names an instruction of that row with the line's values. -/
theorem instrOf_bindVals {f : Format} (hf : f ∈ defaultTable) {ops : List Tok} (hops : acceptsAll f.slots ops = true) :
    ∃ i, instrOf f.id (bindVals f.slots ops) = some i ∧ formOf i = some (f, bindVals f.slots ops) := by
  have hfields := bindVals_fst hops
  have hreg := bindVals_register_lt hops
  have hx := valueOf_lt (f := .x) (by decide) fun v hv hvx => hreg v hv (.inl hvx)
  have hy := valueOf_lt (f := .y) (by decide) fun v hv hvy => hreg v hv (.inr hvy)
  obtain ⟨-, -, -, ⟨hnodup, -⟩, -⟩ := defaultTable_wellFormed.1 f hf
  have hvals := eq_map_valueOf (vals := bindVals f.slots ops) (hfields ▸ hnodup)
  obtain ⟨i, hi, hform⟩ := instrOf_fieldValues (valueOf (bindVals f.slots ops)) f hf
  rw [throughNibble_eq hx hy] at hform
  rw [← hfields, ← hvals] at hi hform
  exact ⟨i, hi, hform⟩

/-- R60: a line names an instruction and is encoded as it, or has the error of P60 lines 2 to 8. -/
theorem selectInstr_cases (line : Line) :
    (∃ i, selectInstr line = .ok i ∧ encodeLine defaultTable line = encoding i) ∨
    (∃ e, selectInstr line = .error e ∧ encodeLine defaultTable line = .error e) := by
  by_cases hdb : line.mn = dbMnemonic
  · simp only [selectInstr, encodeLine, hdb, if_true, encodeDb]
    cases hsel : selectDb line.ops with
    | ok bytes => exact .inl ⟨_, rfl, packDb_encoding _ _⟩
    | error e => exact .inr ⟨e, rfl, rfl⟩
  · rw [encodeLine_row hdb]
    simp only [selectInstr, hdb, if_false]
    cases hsel : selectRow defaultTable line with
    | error e => exact .inr ⟨e, rfl, rfl⟩
    | ok f =>
      obtain ⟨hf, -, hops⟩ := lookupByText_some (selectRow_ok.1 hsel)
      obtain ⟨i, hi, hform⟩ := instrOf_bindVals hf hops
      exact .inl ⟨i, by simp only [hi], packVals_formOf hform⟩

/-! ## The service of a request -/

/-- R64, R69, R160: what the block does on a request, at the default table. -/
def serve : Request → State → State
  | .dec w, s => decStep defaultTable w s
  | .enc line, s => encStep defaultTable line s
  | .reset k, s => doReset k s

/-- R66: a step on a word is `exec` of the instruction it decodes to. -/
theorem step_eq_exec_dec {s : State} {w : Word} (h : s.Presents (.dec w)) : step s = exec (decodeWord w) s := by
  obtain ⟨rest, hr⟩ := List.head?_eq_some_iff.1 h
  simp only [step, fetch, hr]

/-- R60: a step on a line is `exec` of the instruction it names. -/
theorem step_eq_exec_enc {s : State} {line : Line} (h : s.Presents (.enc line)) {i : Instr} (hi : selectInstr line = .ok i) :
    step s = exec i s := by
  obtain ⟨rest, hr⟩ := List.head?_eq_some_iff.1 h
  simp only [step, fetch, hr, hi]

/-- R141, R142: a step on a line that names none takes its error. -/
theorem step_eq_rejectLine {s : State} {line : Line} (h : s.Presents (.enc line)) {e : EncErr} (he : selectInstr line = .error e) :
    step s = rejectLine e line s := by
  obtain ⟨rest, hr⟩ := List.head?_eq_some_iff.1 h
  simp only [step, fetch, hr, he]

/-- R60, R64: a step on a line is the table-driven `EncStep`. -/
theorem step_enc_line {s : State} {line : Line} (h : s.Presents (.enc line)) : step s = .next (encStep defaultTable line s) := by
  rcases selectInstr_cases line with ⟨i, hi, henc⟩ | ⟨e, he, henc⟩
  · rw [step_eq_exec_enc h hi, exec_enc_encoding i h, encStep, henc]
  · rw [step_eq_rejectLine h he, rejectLine, encStep, henc]

/-- R9: a step serves the request at the head. -/
theorem step_presents {s : State} {r : Request} (h : s.Presents r) : step s = .next (serve r s) := by
  cases r with
  | dec w => exact step_dec h
  | enc line => exact step_enc_line h
  | reset k => exact step_reset h

/-- R9: a step that goes on served the request at the head. -/
theorem step_next {s t : State} (h : step s = .next t) : ∃ r, s.Presents r ∧ t = serve r s := by
  cases hreq : s.requests.head? with
  | none => simp [step, fetch, List.head?_eq_none_iff.1 hreq] at h
  | some r =>
    rw [step_presents hreq] at h
    cases h
    exact ⟨r, hreq, rfl⟩

/-- Log 3: with an empty queue there is nothing to do, and with any other there is. -/
theorem step_refused_iff (s : State) : step s = .refused .noRequest ↔ s.requests = [] := by
  constructor
  · intro h
    cases hreq : s.requests with
    | nil => rfl
    | cons r rest =>
      rw [step_presents (r := r) (by rw [State.Presents, hreq]; rfl)] at h
      cases h
  · intro h
    simp [step, fetch, h]

/-- Settles O39: `exec` asks which side the head request is for, and `step` serves every request. -/
theorem modelStops : Obligations.ModelStops := by
  refine ⟨fun i _ hdec henc => exec_of_neither i hdec henc, fun i s w hwf hp => exec_dec_of_not_wellFormed hwf hp,
    fun s => ⟨step_refused_iff s, fun hne => ?_⟩⟩
  obtain ⟨r, hr⟩ := Option.isSome_iff_exists.1 (List.isSome_head?.2 hne)
  exact ⟨_, step_presents hr⟩

/-- Settles O40: `fetch` is the decoder on words and the choice of an instruction on lines. -/
theorem stepRunsTheDecodedInstruction : Obligations.StepRunsTheDecodedInstruction := by
  refine ⟨fun s hi lo i hp hdec _ => ?_, fun s line i hp hi => step_eq_exec_enc hp hi, fun s w i hi => ?_⟩
  · obtain rfl : decodeWord (wordOfBytes hi lo) = i := by simpa [decode] using hdec
    exact step_eq_exec_dec hp
  · have hword : decodeWord (BitVec.ofNat 16 (w % 2 ^ 16)) = i := by
      simpa [decodeTableWord, decode, wordOfBytes_highByte_lowByte] using hi
    rw [← hword]
    exact step_eq_exec_dec rfl

/-- Settles O41: a step serves the request at the head. -/
theorem stepRefinesTheTableDrivenBlock : Obligations.StepRefinesTheTableDrivenBlock :=
  ⟨fun _ _ h => step_dec h, fun _ _ h => step_enc_line h⟩

/-- Settles O42: the table-driven `EncStep` emits the word of the line or takes its error. -/
theorem encStepEmitsOrTakesTheError : Obligations.EncStepEmitsOrTakesTheError := by
  intro s line hp hr
  rw [step_enc_line hp]
  exact ⟨fun w hw => congrArg _ (encStep_ok hr hw), fun he => congrArg _ (encStep_error hr he),
    fun he => congrArg _ (encStep_error hr he), fun he => congrArg _ (encStep_error hr he)⟩

end Sys2Proof.Laws
end

section
/-! PROOFS. What a step writes, field by field, and what it leaves (R10, R12, R14, R15, R160). -/

namespace Sys2Proof.Laws

open Sys2Proof.Machine

/-! ## The fields after a `DecStep`, an `EncStep` and a reset -/

@[simp] theorem decCommit_ecause (e : Entry) (s : State) : (decCommit e s).ecause = s.ecause := by
  rcases decCommit_cases e s with ⟨-, h⟩ | ⟨-, h⟩ <;> simp [h]

@[simp] theorem decCommit_eaddr (e : Entry) (s : State) : (decCommit e s).eaddr = s.eaddr := by
  rcases decCommit_cases e s with ⟨-, h⟩ | ⟨-, h⟩ <;> simp [h]

@[simp] theorem decCommit_params (e : Entry) (s : State) : (decCommit e s).params = s.params := by
  rcases decCommit_cases e s with ⟨-, h⟩ | ⟨-, h⟩ <;> simp [h]

@[simp] theorem decCommit_requests (e : Entry) (s : State) : (decCommit e s).requests = s.requests.tail := by
  rcases decCommit_cases e s with ⟨-, h⟩ | ⟨-, h⟩ <;> simp [h]

/-- R12, R154(b): ADDR advances on a performed `DecStep` alone. -/
@[simp] theorem decCommit_addr (e : Entry) (s : State) :
    (decCommit e s).addr = if hasRoom s.params s.addr then s.addr + 2 else s.addr := by
  rcases decCommit_cases e s with ⟨hr, h⟩ | ⟨hr, h⟩ <;> simp [h, hr]

theorem decCommit_results (e : Entry) (s : State) : ∃ a, (decCommit e s).results = a :: s.results := by
  rcases decCommit_cases e s with ⟨-, h⟩ | ⟨-, h⟩ <;> simp [h]

@[simp] theorem encCommit_addr (line : Line) (r : Except EncErr Word) (s : State) : (encCommit line r s).addr = s.addr := by
  rcases encCommit_cases line r s with ⟨-, w, -, h⟩ | ⟨-, e, -, h⟩ | ⟨-, h⟩ <;> simp [h]

@[simp] theorem encCommit_params (line : Line) (r : Except EncErr Word) (s : State) : (encCommit line r s).params = s.params := by
  rcases encCommit_cases line r s with ⟨-, w, -, h⟩ | ⟨-, e, -, h⟩ | ⟨-, h⟩ <;> simp [h]

@[simp] theorem encCommit_requests (line : Line) (r : Except EncErr Word) (s : State) :
    (encCommit line r s).requests = s.requests.tail := by
  rcases encCommit_cases line r s with ⟨-, w, -, h⟩ | ⟨-, e, -, h⟩ | ⟨-, h⟩ <;> simp [h]

theorem encCommit_results (line : Line) (r : Except EncErr Word) (s : State) :
    ∃ a, (encCommit line r s).results = a :: s.results := by
  rcases encCommit_cases line r s with ⟨-, w, -, h⟩ | ⟨-, e, -, h⟩ | ⟨-, h⟩ <;> simp [h]

@[simp] theorem doReset_params (k : ResetKind) (s : State) : (doReset k s).params = s.params := by cases k <;> rfl

@[simp] theorem doReset_requests (k : ResetKind) (s : State) : (doReset k s).requests = s.requests.tail := by cases k <;> rfl

@[simp] theorem doReset_results (k : ResetKind) (s : State) : (doReset k s).results = .resetDone k :: s.results := by
  cases k <;> rfl

@[simp] theorem doReset_addr (k : ResetKind) (s : State) : (doReset k s).addr = if k = .encOnly then s.addr else loadAddr := by
  cases k <;> rfl

@[simp] theorem doReset_eaddr (k : ResetKind) (s : State) : (doReset k s).eaddr = if k = .decOnly then s.eaddr else loadAddr := by
  cases k <;> rfl

/-! ## The frame of a step -/

@[simp] theorem serve_params (r : Request) (s : State) : (serve r s).params = s.params := by
  cases r <;> simp [serve, decStep, encStep]

@[simp] theorem serve_requests (r : Request) (s : State) : (serve r s).requests = s.requests.tail := by
  cases r <;> simp [serve, decStep, encStep]

theorem serve_results (r : Request) (s : State) : ∃ a, (serve r s).results = a :: s.results := by
  cases r with
  | dec w => exact decCommit_results _ s
  | enc line => exact encCommit_results line _ s
  | reset k => exact ⟨_, doReset_results k s⟩

/-- R10: the frame of `exec`, on either side. -/
theorem exec_frame {i : Instr} {s t : State} (h : exec i s = .next t) :
    t.params = s.params ∧ t.requests = s.requests.tail ∧ (∃ a, t.results = a :: s.results) ∧
    (∀ w, s.Presents (.dec w) → t.ecause = s.ecause ∧ t.eaddr = s.eaddr) ∧
    (∀ line, s.Presents (.enc line) → t.mode = s.mode ∧ t.addr = s.addr) := by
  rcases exec_next h with ⟨v, e, hp, rfl⟩ | ⟨line, r, hp, rfl⟩
  · simp [presents_iff hp, decCommit_results]
  · simp [presents_iff hp, encCommit_results]

/-- Settles O48: a step serves one request, and each service has its frame. -/
theorem stepFrame : Obligations.StepFrame := by
  refine ⟨fun s t h => ?_, fun i s t h => exec_frame h⟩
  obtain ⟨r, hp, rfl⟩ := step_next h
  refine ⟨serve_params r s, ⟨r, ?_⟩, serve_results r s⟩
  obtain ⟨rest, hr⟩ := List.head?_eq_some_iff.1 hp
  rw [serve_requests, hr, List.tail_cons]

/-- Settles O50: a reset step writes its side's fields. -/
theorem resetWritesItsSideOnly : Obligations.ResetWritesItsSideOnly :=
  ⟨⟨rfl, rfl, rfl, rfl, rfl⟩, fun _ => ⟨fun h => step_reset h, fun h => step_reset h, fun h => step_reset h⟩⟩

/-! ## ADDR, ECAUSE and EADDR after a step -/

/-- Settles O45: what each request does to ADDR. -/
theorem addrIsWrittenOnlyByDecStepAndReset : Obligations.AddrIsWrittenOnlyByDecStepAndReset := by
  intro s t h
  obtain ⟨r, hp, rfl⟩ := step_next h
  cases r with
  | dec w => simp [presents_iff hp, serve, decStep]
  | enc line => simp [presents_iff hp, serve, encStep]
  | reset k => cases k <;> simp [presents_iff hp, serve, loadAddr]

/-- R64, R154: an `EncStep` emits the line's word, takes its error, or is refused. -/
theorem encStep_cases (t : Table) (line : Line) (s : State) :
    (s.EncReady ∧ ∃ w, encodeLine t line = .ok w ∧ encStep t line s = s.afterEnc (highByte w) (lowByte w)) ∨
    (s.EncReady ∧ ∃ e, encodeLine t line = .error e ∧ encStep t line s = s.afterError (errCode e) e line) ∨
    (¬s.EncReady ∧ encStep t line s = s.afterRefusal (encRefusals s)) :=
  encCommit_cases line (encodeLine t line) s

/-- R14: from 0, an `EncStep` with room records the code of the line's error. -/
theorem encStep_ecause_of_zero {s : State} (he : s.ecause = 0#2) (t : Table) (line : Line) :
    (encStep t line s).ecause ≠ 0#2 ↔ hasRoom s.params s.eaddr = true ∧
      ∃ e, encodeLine t line = .error e ∧ (encStep t line s).ecause = errCode e := by
  rcases encStep_cases t line s with ⟨hr, w, hw, h⟩ | ⟨hr, e, hw, h⟩ | ⟨hr, h⟩
  · simp [h, hw, he]
  · simp [h, hw, errCode_ne_zero, hr.2]
  · have hroom : hasRoom s.params s.eaddr = false := by simpa [he] using hr
    simp [h, he, hroom]

/-- Settles O46: what each request does to ECAUSE. -/
theorem ecauseIsSticky : Obligations.EcauseIsSticky := by
  intro s t h
  obtain ⟨r, hp, rfl⟩ := step_next h
  have hhead : s.requests.head? = some r := hp
  rw [hhead]
  cases r with
  | dec w => simp +contextual [presents_iff hp, serve]
  | enc line =>
    refine ⟨fun he => ?_, fun he => ?_⟩
    · simpa [presents_iff hp, serve] using encStep_ecause_of_zero he defaultTable line
    · simp [serve, encStep, encCommit_ecause_of_ne_zero he]
  | reset k => cases k <;> simp +contextual [presents_iff hp, serve]

/-- R15: EADDR advances on an emitted word alone. -/
theorem encStep_eaddr (t : Table) (line : Line) (s : State) :
    (∀ w, s.EncReady → encodeLine t line = .ok w → (encStep t line s).eaddr = s.eaddr + 2) ∧
    (∀ e, encodeLine t line = .error e → (encStep t line s).eaddr = s.eaddr) ∧
    (¬s.EncReady → (encStep t line s).eaddr = s.eaddr) := by
  rcases encStep_cases t line s with ⟨hr, w, hw, h⟩ | ⟨hr, e, hw, h⟩ | ⟨hr, h⟩
  · simp [h, hw, hr]
  · simp [h, hw]
  · simp [h, hr]

/-- R15: in the unbounded model an `EncStep` answers the same from every EADDR. -/
theorem encStep_results_withEaddr {s : State} (h : s.params.addrw = none) (t : Table) (line : Line) (a : Nat) :
    (encStep t line { s with eaddr := a }).results = (encStep t line s).results := by
  have hroom := hasRoom_unbounded h
  by_cases he : s.ecause = 0#2
  · have hr : s.EncReady := ⟨he, hroom _⟩
    have hr' : State.EncReady { s with eaddr := a } := ⟨he, hroom _⟩
    cases hw : encodeLine t line with
    | ok w => simp [encStep_ok hr hw, encStep_ok hr' hw]
    | error e => simp [encStep_error hr hw, encStep_error hr' hw]
  · have hr : ¬s.EncReady := fun hr => he hr.1
    have hr' : ¬State.EncReady { s with eaddr := a } := fun hr => he hr.1
    rw [encStep, encStep, encCommit_notReady hr, encCommit_notReady hr']
    simp [encRefusals, hroom]

/-- Settles O47: what each request does to EADDR, and that the answer to a line does not depend on it. -/
theorem eaddrCountsEmittedWords : Obligations.EaddrCountsEmittedWords := by
  refine ⟨fun s t h => ?_, fun s t a line hunb hp h => ?_⟩
  · obtain ⟨r, hp, rfl⟩ := step_next h
    cases r with
    | dec w => simp [presents_iff hp, serve, decStep]
    | enc line => simpa [presents_iff hp, serve] using encStep_eaddr defaultTable line s
    | reset k => cases k <;> simp [presents_iff hp, serve, loadAddr]
  · obtain rfl : encStep defaultTable line s = t := by simpa [step_enc_line hp] using h
    exact ⟨_, step_enc_line hp, encStep_results_withEaddr hunb _ _ _⟩

end Sys2Proof.Laws
end

section
/-! PROOFS. Neither side reads the other side's fields (R10, R168). -/

namespace Sys2Proof.Laws

open Sys2Proof.Machine

/-- R10: two states agree on what the DEC side reads. -/
abbrev DecAgree (s t : State) : Prop := s.mode = t.mode ∧ s.addr = t.addr ∧ s.params = t.params

/-- R10: two states agree on what the ENC side reads. -/
abbrev EncAgree (s t : State) : Prop := s.ecause = t.ecause ∧ s.eaddr = t.eaddr ∧ s.params = t.params

/-- R168: a `DecStep` answers the same, and leaves agreement, from states that agree on the DEC side. -/
theorem decStep_agree {s u : State} (h : DecAgree s u) (t : Table) (w : Word) :
    DecAgree (decStep t w s) (decStep t w u) ∧
      ∃ a, (decStep t w s).results = a :: s.results ∧ (decStep t w u).results = a :: u.results := by
  obtain ⟨hmode, haddr, hparams⟩ := h
  by_cases hr : s.DecReady
  · have hr' : u.DecReady := by rwa [State.DecReady, ← haddr, ← hparams]
    simp [DecAgree, decStep, decCommit_ready hr, decCommit_ready hr', hmode, haddr, hparams]
  · have hr' : ¬u.DecReady := by rwa [State.DecReady, ← haddr, ← hparams]
    simp [DecAgree, decStep, decCommit_notReady hr, decCommit_notReady hr', hmode, haddr, hparams]

/-- R168: an `EncStep` answers the same, and leaves agreement, from states that agree on the ENC side. -/
theorem encStep_agree {s u : State} (h : EncAgree s u) (t : Table) (line : Line) :
    EncAgree (encStep t line s) (encStep t line u) ∧
      ∃ a, (encStep t line s).results = a :: s.results ∧ (encStep t line u).results = a :: u.results := by
  obtain ⟨hcause, haddr, hparams⟩ := h
  by_cases hr : s.EncReady
  · have hr' : u.EncReady := by rwa [State.EncReady, ← hcause, ← haddr, ← hparams]
    cases hw : encodeLine t line with
    | ok w => simp [EncAgree, encStep_ok hr hw, encStep_ok hr' hw, hcause, haddr, hparams]
    | error e => simp [EncAgree, encStep_error hr hw, encStep_error hr' hw, haddr, hparams]
  · have hr' : ¬u.EncReady := by rwa [State.EncReady, ← hcause, ← haddr, ← hparams]
    simp [EncAgree, encStep, encCommit_notReady hr, encCommit_notReady hr', encRefusals, hcause, haddr, hparams]

/-- Settles O49: the side's own fields, the parameters and the request fix a step's answer and its effect on that side. -/
theorem sidesDoNotReadEachOther : Obligations.SidesDoNotReadEachOther := by
  refine ⟨fun s t s' w hsame hp h => ?_, fun s t s' line hsame hp h => ?_⟩
  · obtain ⟨hmode, haddr, hparams, hreq, hres⟩ := hsame
    obtain rfl : decStep defaultTable w s = s' := by simpa [step_dec hp] using h
    obtain ⟨⟨hmode', haddr', hparams'⟩, a, ha, ha'⟩ := decStep_agree ⟨hmode, haddr, hparams⟩ defaultTable w
    refine ⟨_, step_dec (by rwa [State.Presents, ← hreq]), hmode', haddr', hparams', ?_, ?_⟩
    · simp [decStep, hreq]
    · rw [ha, ha', hres]
  · obtain ⟨hcause, haddr, hparams, hreq, hres⟩ := hsame
    obtain rfl : encStep defaultTable line s = s' := by simpa [step_enc_line hp] using h
    obtain ⟨⟨hcause', haddr', hparams'⟩, a, ha, ha'⟩ := encStep_agree ⟨hcause, haddr, hparams⟩ defaultTable line
    refine ⟨_, step_enc_line (by rwa [State.Presents, ← hreq]), hcause', haddr', hparams', ?_, ?_⟩
    · simp [encStep, hreq]
    · rw [ha, ha', hres]

end Sys2Proof.Laws
end

section
/-! PROOFS. What every step keeps: legal addresses (R12, R15, R24) and the history of both sides (R19). -/

namespace Sys2Proof.Laws

open Sys2Proof.Machine

/-! ## Addresses -/

/-- R26, R5: the load address is legal with at least 12 address bits. -/
theorem addressLegal_loadAddr {p : Params} (h : p.wf) : addressLegal p loadAddr := by
  refine ⟨by decide, by decide, fun n hn => ?_⟩
  have hbits : 2 ^ 12 ≤ 2 ^ n := Nat.pow_le_pow_right (by decide) (h n hn)
  rw [loadAddr]
  omega

/-- R24, R154(b): an address advances to a legal one when there is room. -/
theorem addressLegal_next {p : Params} {a : Nat} (h : addressLegal p a) (hroom : hasRoom p a = true) : addressLegal p (a + 2) := by
  obtain ⟨heven, hlow, -⟩ := h
  refine ⟨by omega, by omega, fun n hn => ?_⟩
  have hnext := (hasRoom_iff p a).1 hroom n hn
  omega

/-- R12: ADDR stays, advances with room, or is reset. -/
theorem serve_addr (r : Request) (s : State) : (serve r s).addr = s.addr ∨
    (hasRoom s.params s.addr = true ∧ (serve r s).addr = s.addr + 2) ∨ (serve r s).addr = loadAddr := by
  cases r with
  | dec w => by_cases hroom : hasRoom s.params s.addr = true <;> simp [serve, decStep, hroom]
  | enc line => simp [serve, encStep]
  | reset k => cases k <;> simp [serve]

/-- R15: EADDR stays, advances with room, or is reset. -/
theorem serve_eaddr (r : Request) (s : State) : (serve r s).eaddr = s.eaddr ∨
    (hasRoom s.params s.eaddr = true ∧ (serve r s).eaddr = s.eaddr + 2) ∨ (serve r s).eaddr = loadAddr := by
  cases r with
  | dec w => simp [serve, decStep]
  | enc line =>
    rcases encStep_cases defaultTable line s with ⟨hr, w, -, h⟩ | ⟨-, e, -, h⟩ | ⟨-, h⟩
    · exact .inr (.inl ⟨hr.2, by rw [serve, h, afterEnc_eaddr]⟩)
    · exact .inl (by rw [serve, h, afterError_eaddr])
    · exact .inl (by rw [serve, h, afterRefusal_eaddr])
  | reset k => cases k <;> simp [serve]

/-- R24: what stays, advances with room or is reset remains legal. -/
theorem addressLegal_of_cases {p : Params} (hp : p.wf) {a b : Nat} (h : addressLegal p a)
    (hb : b = a ∨ (hasRoom p a = true ∧ b = a + 2) ∨ b = loadAddr) : addressLegal p b := by
  rcases hb with rfl | ⟨hroom, rfl⟩ | rfl
  · exact h
  · exact addressLegal_next h hroom
  · exact addressLegal_loadAddr hp

/-- Settles O52: each counter stays, advances when there is room, or is reset. -/
theorem stepKeepsAddressesLegal : Obligations.StepKeepsAddressesLegal := by
  rintro s t ⟨hp, haddr, headdr⟩ h
  obtain ⟨r, -, rfl⟩ := step_next h
  rw [State.AddressesLegal, serve_params]
  exact ⟨hp, addressLegal_of_cases hp haddr (serve_addr r s), addressLegal_of_cases hp headdr (serve_eaddr r s)⟩

/-! ## History -/

/-- R66: an entry carries the address it is decoded at. -/
theorem entryAddr_decodeEntry (t : Table) (m : Mode) (addr : Nat) (w : Word) : entryAddr (decodeEntry t m addr w) = addr := by
  cases m with
  | dataMode => rfl
  | decoding => cases hrow : lookupByWord t w <;> simp only [decodeEntry, hrow, entryAddr]

/-- R13: MODE is `DataMode` after an entry exactly when it was before or the entry is a self-jump. -/
theorem nextMode_eq_dataMode (m : Mode) (addr : Nat) (e : Entry) :
    nextMode m addr e = .dataMode ↔ m = .dataMode ∨ isSelfJump addr e = true := by
  cases m with
  | dataMode => simp [nextMode_dataMode]
  | decoding => simp [nextMode_decoding]

/-- R19: one more entry delivered, at ADDR. -/
theorem decHistory_afterDec {s : State} (h : s.DecHistory) {e : Entry} (he : entryAddr e = s.addr) (text : Text) :
    (s.afterDec (nextMode s.mode s.addr e) e text).DecHistory := by
  obtain ⟨haddr, horder, hmode⟩ := h
  refine ⟨?_, ?_, ?_⟩
  · simp [decodedSince, haddr, stride, Nat.mul_add, Nat.add_assoc]
  · simp [decodedSince, addressesInOrder, horder, he, haddr]
  · simp [decodedSince, nextMode_eq_dataMode, hmode, he, or_comm]

/-- R19: a service keeps the DEC side's fields equal to what the results since its reset say. -/
theorem serve_decHistory {s : State} (h : s.DecHistory) (r : Request) : (serve r s).DecHistory := by
  cases r with
  | dec w =>
    rw [serve, decStep]
    rcases decCommit_cases (decodeEntry defaultTable s.mode s.addr w) s with ⟨-, hs⟩ | ⟨-, hs⟩ <;> rw [hs]
    · exact decHistory_afterDec h (entryAddr_decodeEntry _ _ _ _) _
    · exact h
  | enc line => rcases encStep_cases defaultTable line s with ⟨-, w, -, hs⟩ | ⟨-, e, -, hs⟩ | ⟨-, hs⟩ <;> rw [serve, hs] <;> exact h
  | reset k =>
    cases k with
    | both | decOnly => exact ⟨rfl, rfl, by simp [serve, decodedSince]⟩
    | encOnly => exact h

/-- R19, R149: a service keeps the ENC side's fields equal to what the results since its reset say. -/
theorem serve_encHistory {s : State} (h : s.EncHistory) (r : Request) : (serve r s).EncHistory := by
  cases r with
  | dec w =>
    rw [serve, decStep]
    rcases decCommit_cases (decodeEntry defaultTable s.mode s.addr w) s with ⟨-, hs⟩ | ⟨-, hs⟩ <;> rw [hs] <;> exact h
  | enc line =>
    obtain ⟨haddr, hcause⟩ := h
    rcases encStep_cases defaultTable line s with ⟨-, w, -, hs⟩ | ⟨hr, e, -, hs⟩ | ⟨-, hs⟩ <;> rw [serve, hs]
    · exact ⟨by simp [emittedSince, haddr, stride, Nat.mul_add, Nat.add_assoc], hcause⟩
    · have hnone : errorsSince s.results = [] := by
        rcases hcause with ⟨-, hnone⟩ | ⟨d, -, hd⟩
        · exact hnone
        · exact absurd (hd.symm.trans hr.1) (errCode_ne_zero d)
      exact ⟨haddr, .inr ⟨e, by simp [errorsSince, hnone], rfl⟩⟩
    · exact ⟨haddr, hcause⟩
  | reset k =>
    cases k with
    | both | encOnly => exact ⟨rfl, .inl ⟨rfl, rfl⟩⟩
    | decOnly => exact h

/-- Settles O54: every service keeps each history. -/
theorem stepKeepsHistory : Obligations.StepKeepsHistory := by
  constructor
  · intro s t h hstep
    obtain ⟨r, -, rfl⟩ := step_next hstep
    exact serve_decHistory h r
  · intro s t h hstep
    obtain ⟨r, -, rfl⟩ := step_next hstep
    exact serve_encHistory h r

/-- R19: nothing decoded, nothing emitted, nothing wrong at the start of a run. -/
theorem startState_invariants {p : Params} (hp : p.wf) :
    (startState p).AddressesLegal ∧ (startState p).DecHistory ∧ (startState p).EncHistory :=
  ⟨⟨hp, addressLegal_loadAddr hp, addressLegal_loadAddr hp⟩, ⟨rfl, rfl, by simp [decodedSince]⟩, ⟨rfl, .inl ⟨rfl, rfl⟩⟩⟩

/-- Settles O53: the state after reset is the start of a run of the unbounded machine. -/
theorem invariantsHoldAtReset : Obligations.InvariantsHoldAtReset := by
  have hunbounded : Params.default.wf := fun n h => by cases h
  obtain ⟨haddr, hdec, henc⟩ := startState_invariants hunbounded
  exact ⟨haddr, hdec, henc, fun p hp => startState_invariants hp⟩

end Sys2Proof.Laws
end

section
/-! PROOFS. Whole assemblies (R65): their closed form, and what a success says of every line. -/

namespace Sys2Proof.Laws

open Sys2Proof.Machine

/-! ## Lines that encode -/

/-- R65: the state after emitting words one after another. -/
def emitAll (ws : List Word) (s : State) : State := ws.foldl (fun u w => u.afterEnc (highByte w) (lowByte w)) s

@[simp] theorem emitAll_nil (s : State) : emitAll [] s = s := rfl

@[simp] theorem emitAll_cons (w : Word) (ws : List Word) (s : State) :
    emitAll (w :: ws) s = emitAll ws (s.afterEnc (highByte w) (lowByte w)) := rfl

@[simp] theorem emitAll_ecause (ws : List Word) (s : State) : (emitAll ws s).ecause = s.ecause := by
  induction ws generalizing s with
  | nil => rfl
  | cons w ws ih => rw [emitAll_cons, ih, afterEnc_ecause]

@[simp] theorem emitAll_params (ws : List Word) (s : State) : (emitAll ws s).params = s.params := by
  induction ws generalizing s with
  | nil => rfl
  | cons w ws ih => rw [emitAll_cons, ih, afterEnc_params]

/-- R15: EADDR counts the emitted words. -/
@[simp] theorem emitAll_eaddr (ws : List Word) (s : State) : (emitAll ws s).eaddr = s.eaddr + 2 * ws.length := by
  induction ws generalizing s with
  | nil => rfl
  | cons w ws ih => rw [emitAll_cons, ih, afterEnc_eaddr, List.length_cons, Nat.mul_succ, Nat.add_assoc, Nat.add_comm 2]

/-- R65: the bytes of words in front of what the run of the later lines yields; an error carries no bytes. -/
def prependWords (ws : List Word) : Except RunError (List Byte) → Except RunError (List Byte)
  | .ok bs => .ok (bytesOfWords ws ++ bs)
  | .error e => .error e

@[simp] theorem prependWords_nil (r : Except RunError (List Byte)) : prependWords [] r = r := by cases r <;> rfl

theorem prependBytes_prependWords (w : Word) (ws : List Word) (r : Except RunError (List Byte)) :
    prependBytes (highByte w) (lowByte w) (prependWords ws r) = prependWords (w :: ws) r := by cases r <;> rfl

/-- R154: in the unbounded model an `EncStep` is performed while no error is recorded. -/
theorem encReady_of_unbounded {s : State} (hunb : s.params.addrw = none) (he : s.ecause = 0#2) : s.EncReady :=
  ⟨he, hasRoom_unbounded hunb _⟩

/-- R65: lines that encode are emitted in order, and the run goes on behind them. -/
theorem assembleFrom_append {t : Table} {before : List Line} {ws : List Word} (hws : before.map (encodeLine t) = ws.map Except.ok)
    (after : List Line) (i : Nat) {s : State} (hunb : s.params.addrw = none) (he : s.ecause = 0#2) :
    assembleFrom t i (before ++ after) s =
      (prependWords ws (assembleFrom t (i + before.length) after (emitAll ws s)).1,
        (assembleFrom t (i + before.length) after (emitAll ws s)).2) := by
  induction before generalizing ws i s with
  | nil =>
    obtain rfl : ws = [] := by simpa using hws.symm
    simp
  | cons line before ih =>
    cases ws with
    | nil => simp at hws
    | cons w ws =>
      obtain ⟨hw, hws⟩ := List.cons.inj hws
      have hlen : i + (line :: before).length = i + 1 + before.length := by rw [List.length_cons]; omega
      have hrest := ih hws (i + 1) (s := s.afterEnc (highByte w) (lowByte w)) hunb he
      rw [List.cons_append, assembleFrom_ok _ i (encReady_of_unbounded hunb he) hw, hrest, prependBytes_prependWords, hlen,
        emitAll_cons]

/-- Settles O55: the lines before the first failing one are emitted, and that line takes its error. -/
theorem assembleRunClosedForm : Obligations.AssembleRunClosedForm := by
  intro t p hunb
  refine ⟨fun lines ws hws => ?_, fun before after line ws e hws hline => ?_⟩
  · have hlen : lines.length = ws.length := by simpa using congrArg List.length hws
    have hrun := assembleFrom_append hws [] 0 (s := startState p) hunb rfl
    rw [List.append_nil] at hrun
    simp [assembleRun, hrun, assembleFrom, prependWords, hlen, loadAddr]
  · have hlen : before.length = ws.length := by simpa using congrArg List.length hws
    have hready : (emitAll ws (startState p)).EncReady := encReady_of_unbounded (by simpa using hunb) (by simp)
    rw [assembleRun, assembleFrom_append hws _ 0 (s := startState p) hunb rfl, assembleFrom_error after _ hready hline]
    simp [prependWords, hlen, loadAddr]

/-! ## Runs that succeed -/

/-- R65, R154: a run that succeeds emitted its first line. -/
theorem assembleFrom_cons_eq_ok {t : Table} {i : Nat} {line : Line} {lines : List Line} {s : State} {bs : List Byte}
    (h : (assembleFrom t i (line :: lines) s).1 = .ok bs) : ∃ w cs, s.EncReady ∧ encodeLine t line = .ok w ∧
      (assembleFrom t (i + 1) lines (s.afterEnc (highByte w) (lowByte w))).1 = .ok cs ∧ bs = highByte w :: lowByte w :: cs ∧
      (assembleFrom t i (line :: lines) s).2 = (assembleFrom t (i + 1) lines (s.afterEnc (highByte w) (lowByte w))).2 := by
  rcases encStep_cases t line s with ⟨hr, w, hw, -⟩ | ⟨hr, e, he, -⟩ | ⟨-, hs⟩
  · rw [assembleFrom_ok lines i hr hw] at h ⊢
    cases hrest : (assembleFrom t (i + 1) lines (s.afterEnc (highByte w) (lowByte w))).1 with
    | error e => simp [hrest, prependBytes] at h
    | ok cs =>
      simp only [hrest, prependBytes, Except.ok.injEq] at h
      exact ⟨w, cs, hr, hw, hrest, h.symm, rfl⟩
  · simp [assembleFrom_error lines i hr he] at h
  · simp [assembleFrom, hs] at h

/-- R65: a run that succeeds encoded every line, and its bytes are those of the words. -/
theorem words_of_assembleFrom {t : Table} {i : Nat} {lines : List Line} {s : State} {bs : List Byte}
    (h : (assembleFrom t i lines s).1 = .ok bs) : ∃ ws, lines.map (encodeLine t) = ws.map Except.ok ∧ bs = bytesOfWords ws := by
  induction lines generalizing i s bs with
  | nil =>
    cases h
    exact ⟨[], rfl, rfl⟩
  | cons line lines ih =>
    obtain ⟨w, cs, -, hw, hrest, rfl, -⟩ := assembleFrom_cons_eq_ok h
    obtain ⟨ws, hws, rfl⟩ := ih hrest
    exact ⟨w :: ws, by rw [List.map_cons, List.map_cons, hw, hws], rfl⟩

/-- R27: where a run succeeds, the bytes of the lines before one stand before its word. -/
theorem assembleRun_split {t : Table} {p : Params} (hunb : p.addrw = none) {before after : List Line} {line : Line} {bs : List Byte}
    (h : (assembleRun t p (before ++ line :: after)).1 = .ok bs) :
    ∃ us w vs, before.length = us.length ∧ after.length = vs.length ∧ (assembleRun t p before).1 = .ok (bytesOfWords us) ∧
      encodeLine t line = .ok w ∧ bs = bytesOfWords us ++ highByte w :: lowByte w :: bytesOfWords vs := by
  obtain ⟨ws, hws, rfl⟩ := words_of_assembleFrom h
  rw [List.map_append, List.map_cons] at hws
  obtain ⟨us, ws', rfl, hus, hws'⟩ := List.map_eq_append_iff.1 hws.symm
  obtain ⟨w, vs, rfl, hw, hvs⟩ := List.map_eq_cons_iff.1 hws'
  obtain ⟨hall, -⟩ := assembleRunClosedForm t p hunb
  refine ⟨us, w, vs, by simpa using congrArg List.length hus.symm, by simpa using congrArg List.length hvs.symm,
    (hall before us hus.symm).1, hw.symm, bytesOfWords_append _ _⟩

/-- R65: assembling lines that encode to the words of an image yields the image. -/
theorem assembleRun_eq_of_words {t : Table} {p : Params} (hunb : p.addrw = none) {lines : List Line} {ws : List Word}
    (hws : lines.map (encodeLine t) = ws.map Except.ok) : (assembleRun t p lines).1 = .ok (bytesOfWords ws) := by
  obtain ⟨hall, -⟩ := assembleRunClosedForm t p hunb
  exact (hall lines ws hws).1

end Sys2Proof.Laws
end

section
/-! PROOFS. Whole disassemblies (R70), and the image assembled again from its printed lines (R71). -/

namespace Sys2Proof.Laws

open Sys2Proof.Machine

/-! ## One word after another -/

/-- R154: in the unbounded model a `DecStep` keeps the counters unbounded. -/
theorem decStep_params (t : Table) (w : Word) (s : State) : (decStep t w s).params = s.params := decCommit_params _ s

/-- R12: and always advances ADDR. -/
theorem decStep_addr_of_unbounded {s : State} (hunb : s.params.addrw = none) (t : Table) (w : Word) :
    (decStep t w s).addr = s.addr + 2 := by rw [decStep_unbounded t w hunb, afterDec_addr]

/-- R27, R70: the words after others are decoded from the state these leave. -/
theorem disassembleFrom_append (t : Table) (before after : List Word) {s : State} (hunb : s.params.addrw = none) :
    disassembleFrom t (before ++ after) s =
      ((disassembleFrom t before s).1 ++ (disassembleFrom t after (disassembleFrom t before s).2).1,
        (disassembleFrom t after (disassembleFrom t before s).2).2) := by
  induction before generalizing s with
  | nil => rfl
  | cons w before ih =>
    have hunb' : (decStep t w s).params.addrw = none := by rwa [decStep_params]
    rw [List.cons_append, disassembleFrom_cons t w _ hunb, ih hunb', disassembleFrom_cons t w before hunb, List.cons_append]

/-- R70: one result for each word; ADDR is past them, the parameters stay. -/
theorem disassembleFrom_counts (t : Table) (ws : List Word) {s : State} (hunb : s.params.addrw = none) :
    (disassembleFrom t ws s).1.length = ws.length ∧ (disassembleFrom t ws s).2.addr = s.addr + 2 * ws.length ∧
      (disassembleFrom t ws s).2.params = s.params := by
  induction ws generalizing s with
  | nil => exact ⟨rfl, rfl, rfl⟩
  | cons w ws ih =>
    obtain ⟨hlen, haddr, hparams⟩ := ih (s := decStep t w s) (by rwa [decStep_params])
    rw [disassembleFrom_cons t w ws hunb]
    refine ⟨by rw [List.length_cons, hlen, List.length_cons], ?_, by rw [hparams, decStep_params]⟩
    rw [haddr, decStep_addr_of_unbounded hunb, List.length_cons]
    omega

/-- R27: in a disassembly the entry for a word is decoded from the state the words before it leave. -/
theorem disassembleRun_split (t : Table) {p : Params} (hunb : p.addrw = none) (before after : List Word) (w : Word) :
    ∃ rest, (disassembleRun t p (before ++ w :: after)).1 = (disassembleRun t p before).1 ++
      (decodeEntry t (disassembleRun t p before).2.mode (0x200 + 2 * before.length) w,
        render p.hexcase (decodeEntry t (disassembleRun t p before).2.mode (0x200 + 2 * before.length) w)) :: rest := by
  obtain ⟨-, haddr, hparams⟩ := disassembleFrom_counts t before (s := startState p) hunb
  rw [startState_addr, loadAddr] at haddr
  rw [startState_params] at hparams
  simp only [disassembleRun]
  rw [disassembleFrom_append t before _ hunb, disassembleFrom_cons t w after (by rwa [hparams]), haddr, hparams]
  exact ⟨_, rfl⟩

/-- Settles O56: a run over one list after another is the first run and then the second from the state it leaves. -/
theorem runsAreSequential : Obligations.RunsAreSequential := by
  intro t p hunb
  refine ⟨fun ws => (disassembleFrom_counts t ws (s := startState p) hunb).1, fun before after w => ?_,
    fun before after line bs h => ?_⟩
  · obtain ⟨hlen, -⟩ := disassembleFrom_counts t before (s := startState p) hunb
    obtain ⟨rest, hsplit⟩ := disassembleRun_split t hunb before after w
    rw [← disassembleRun] at hlen
    constructor
    · rw [hsplit, ← hlen, List.getElem?_append_right le_rfl, Nat.sub_self, List.getElem?_cons_zero]
    · rw [hsplit, ← hlen, List.take_left]
  · obtain ⟨us, w, vs, hus, hvs, hbefore, hw, rfl⟩ := assembleRun_split hunb h
    have hlen : (bytesOfWords us).length = 2 * before.length := by rw [bytesOfWords_length, hus]
    refine ⟨?_, ?_, w, hw, ?_, ?_⟩
    · simp only [List.length_append, List.length_cons, bytesOfWords_length, hus, hvs]
      omega
    · rw [hbefore, ← hlen, List.take_left]
    · rw [← hlen, List.getElem?_append_right le_rfl, Nat.sub_self]
      rfl
    · rw [← hlen, List.getElem?_append_right (Nat.le_add_right _ 1), Nat.add_sub_cancel_left]
      rfl

/-! ## MODE at the end -/

/-- R13, R69: a word is a jump to the address it stands at. -/
theorem decodeWord_eq_jp_iff (w : Word) (addr : Nat) : decodeWord w = .jpNnn addr ↔ addr ≤ 0xFFF ∧ w.toNat = 0x1000 + addr := by
  have hsel := decodeWord_eq_nnn (i := .jpNnn addr) (f := rowJpNnn) rfl (by decide) w
  have htop : layoutAgree w rowJpNnn.pattern rowJpNnn.layout ↔ w.toNat / 2 ^ 12 % 2 ^ 4 = 1 := by
    show w.extractLsb' 12 4 = 0x1#4 ↔ _
    rw [← BitVec.toNat_inj, BitVec.extractLsb'_toNat, Nat.shiftRight_eq_div_pow]
    rfl
  have hlt := w.isLt
  rw [hsel, htop, BitVec.extractLsb'_toNat, Nat.shiftRight_eq_div_pow]
  omega

/-- R69: after a performed `DecStep` MODE is `DataMode` exactly when it was before or the word jumps to its own address. -/
theorem decStep_mode_eq_dataMode {s : State} (hr : s.DecReady) (w : Word) :
    (decStep defaultTable w s).mode = .dataMode ↔ s.mode = .dataMode ∨ decodeWord w = .jpNnn s.addr := by
  cases hm : s.mode with
  | dataMode => simp [decStep_mode_of_dataMode hm]
  | decoding =>
    rw [decStep_mode_of_decoding hm, isSelfJump_decodeEntry, and_iff_right hr]
    simp

/-- R19: MODE at the end of a disassembly from any state of the unbounded machine. -/
theorem disassembleFrom_mode (ws : List Word) {s : State} (hunb : s.params.addrw = none) :
    (disassembleFrom defaultTable ws s).2.mode = .dataMode ↔
      s.mode = .dataMode ∨ ∃ j, j < ws.length ∧ decodeWord (ws.getD j 0#16) = .jpNnn (s.addr + 2 * j) := by
  induction ws generalizing s with
  | nil => simp [disassembleFrom]
  | cons w ws ih =>
    have hlater : ∀ j, s.addr + 2 * (j + 1) = s.addr + 2 + 2 * j := fun j => by omega
    rw [disassembleFrom_cons _ w ws hunb, ih (by rwa [decStep_params]), decStep_mode_eq_dataMode (hasRoom_unbounded hunb _),
      decStep_addr_of_unbounded hunb, or_assoc, List.length_cons, Nat.exists_lt_succ_left]
    simp only [List.getD_cons_zero, List.getD_cons_succ, Nat.mul_zero, Nat.add_zero, hlater]

/-- Settles O57: each word sets MODE exactly when it jumps to its own address. -/
theorem dataModeAfterARun : Obligations.DataModeAfterARun := by
  intro p hunb ws
  obtain ⟨-, haddr, -⟩ := disassembleFrom_counts defaultTable ws (s := startState p) hunb
  refine ⟨haddr, ?_⟩
  rw [disassembleRun, disassembleFrom_mode ws (s := startState p) hunb]
  simp [decodeWord_eq_jp_iff, loadAddr]

/-! ## The image again -/

/-- R71: the printed lines of a disassembly encode to the words disassembled. -/
theorem encodeLine_disassembleFrom {t : Table} (ht : t.WellFormed) (hs : t.Spellable) (ws : List Word) {s : State}
    (hunb : s.params.addrw = none) :
    ((disassembleFrom t ws s).1.map fun r => tokenize r.2).map (encodeLine t) = ws.map Except.ok := by
  induction ws generalizing s with
  | nil => rfl
  | cons w ws ih =>
    rw [disassembleFrom_cons t w ws hunb, List.map_cons, List.map_cons, List.map_cons, ih (by rwa [decStep_params]),
      encodeLine_render_decodeEntry ht hs]

/-- Settles O58: the words of the image come back line by line, and their bytes are the image. -/
theorem reassemblingADisassemblyReturnsTheImage : Obligations.ReassemblingADisassemblyReturnsTheImage := by
  intro t ht hs p hunb bs heven
  obtain ⟨ws, hws, -⟩ := pairBytes_even bs.length bs heven
  refine ⟨(disassembleRun t p ws).1, (disassembleRun t p ws).2, by simp only [disassembleBytes, wordsOfBytes, hws], ?_⟩
  have hagain := assembleRun_eq_of_words hunb (encodeLine_disassembleFrom ht hs ws (s := startState p) hunb)
  rwa [bytesOfWords_of_pairBytes _ bs ws hws] at hagain

end Sys2Proof.Laws
end

section
/-! PROOFS. The machine with a queue of requests: it serves them all, as whole runs do (R65, R70), and each side as if it were alone
(R168). -/

namespace Sys2Proof.Laws

open Sys2Proof.Machine

/-! ## A queue served -/

/-- R9: requests served one after another. -/
def serveAll (rs : List Request) (s : State) : State := rs.foldl (fun u r => serve r u) s

/-- R9: the machine runs through its queue, serving each request. -/
theorem run_serveAll (rs : List Request) {s : State} (h : s.requests = rs) :
    Sys2Proof.core.run rs.length s = .next (serveAll rs s) := by
  induction rs generalizing s with
  | nil => rfl
  | cons r rs ih =>
    have hstep : Sys2Proof.core.step s = .next (serve r s) := step_presents (by rw [State.Presents, h, List.head?_cons])
    simp only [List.length_cons, Host.Core.run, hstep]
    exact ih (by rw [serve_requests, h, List.tail_cons])

/-- Log 2: serving takes nothing from the queue but its head. -/
theorem serve_withRequests (r : Request) (s : State) (q : List Request) :
    serve r { s with requests := q } = { serve r s with requests := q.tail } := by
  cases r with
  | dec w =>
    by_cases hr : s.DecReady
    · have hr' : State.DecReady { s with requests := q } := hr
      simp only [serve, decStep, decCommit_ready hr, decCommit_ready hr']
      rfl
    · have hr' : ¬State.DecReady { s with requests := q } := hr
      simp only [serve, decStep, decCommit_notReady hr, decCommit_notReady hr']
      rfl
  | enc line =>
    by_cases hr : s.EncReady
    · have hr' : State.EncReady { s with requests := q } := hr
      cases hw : encodeLine defaultTable line with
      | ok w => simp only [serve, encStep_ok hr hw, encStep_ok hr' hw]; rfl
      | error e => simp only [serve, encStep_error hr hw, encStep_error hr' hw]; rfl
    · have hr' : ¬State.EncReady { s with requests := q } := hr
      simp only [serve, encStep, encCommit_notReady hr, encCommit_notReady hr']
      rfl
  | reset k => cases k <;> rfl

/-- Log 2: requests queued are served as if each had been presented alone. -/
theorem serveAll_queued (rs : List Request) {s : State} (h : s.requests = []) :
    serveAll rs { s with requests := rs } = serveAll rs s := by
  induction rs generalizing s with
  | nil => rw [← h]
  | cons r rs ih =>
    have hnext : serve r { s with requests := r :: rs } = { serve r s with requests := rs } := serve_withRequests r s _
    calc serveAll (r :: rs) { s with requests := r :: rs }
      _ = serveAll rs (serve r { s with requests := r :: rs }) := rfl
      _ = serveAll rs { serve r s with requests := rs } := by rw [hnext]
      _ = serveAll rs (serve r s) := ih (by rw [serve_requests, h, List.tail_nil])

/-- R9, R161: the machine with a queue from the start of a run. -/
theorem run_queued (p : Params) (rs : List Request) :
    Sys2Proof.core.run rs.length { startState p with requests := rs } = .next (serveAll rs (startState p)) := by
  rw [run_serveAll rs rfl, serveAll_queued rs (startState_requests p)]

/-! ## Whole runs -/

/-- R70, R154: a disassembly that delivers every word serves the words one by one, and its results are the delivered entries. -/
theorem disassembleFrom_eq_serveAll (ws : List Word) {s : State} (h : (disassembleFrom defaultTable ws s).1.length = ws.length) :
    (disassembleFrom defaultTable ws s).2 = serveAll (ws.map Request.dec) s ∧
      (disassembleFrom defaultTable ws s).2.results.reverse =
        s.results.reverse ++ (disassembleFrom defaultTable ws s).1.map fun r => Result.decoded r.1 r.2 := by
  induction ws generalizing s with
  | nil => simp [disassembleFrom, serveAll]
  | cons w ws ih =>
    rcases decCommit_cases (decodeEntry defaultTable s.mode s.addr w) s with ⟨-, hs⟩ | ⟨-, hs⟩ <;> rw [← decStep] at hs
    · have hres : (decStep defaultTable w s).results = _ := (congrArg State.results hs).trans (afterDec_results ..)
      simp only [disassembleFrom, hres, List.length_cons, Nat.add_right_cancel_iff] at h ⊢
      obtain ⟨hstate, hresults⟩ := ih h
      refine ⟨hstate, ?_⟩
      simp [hresults, hres]
    · have hres : (decStep defaultTable w s).results = _ := (congrArg State.results hs).trans (afterRefusal_results ..)
      simp [disassembleFrom, hres] at h

/-- R65: the bytes of a result. -/
def emittedBytes : Result → List Byte
  | .emitted hi lo => [hi, lo]
  | _ => []

/-- R65: an assembly that succeeds serves the lines one by one, and its bytes are those of its results. -/
theorem assembleFrom_eq_serveAll (lines : List Line) (i : Nat) {s : State} {bs : List Byte}
    (h : (assembleFrom defaultTable i lines s).1 = .ok bs) :
    (assembleFrom defaultTable i lines s).2 = serveAll (lines.map Request.enc) s ∧
      (assembleFrom defaultTable i lines s).2.results.reverse.flatMap emittedBytes =
        s.results.reverse.flatMap emittedBytes ++ bs := by
  induction lines generalizing i s bs with
  | nil =>
    cases h
    simp [assembleFrom, serveAll]
  | cons line lines ih =>
    obtain ⟨w, cs, hr, hw, hrest, rfl, hstate⟩ := assembleFrom_cons_eq_ok h
    obtain ⟨hserve, hbytes⟩ := ih (i + 1) hrest
    rw [hstate]
    constructor
    · rw [hserve, List.map_cons, serveAll, serveAll, List.foldl_cons, serve, encStep_ok hr hw]
    · simp [hbytes, emittedBytes]

/-- Settles O59: a run serves its words or lines one by one, and so does the machine. -/
theorem machineRunsAreTheBlocksRuns : Obligations.MachineRunsAreTheBlocksRuns := by
  refine ⟨fun p ws h => ?_, fun p lines bs h => ?_⟩
  · obtain ⟨hstate, hresults⟩ := disassembleFrom_eq_serveAll ws (s := startState p) h
    refine ⟨?_, by simpa [disassembleRun] using hresults⟩
    rw [disassembleRun, hstate, ← run_queued, List.length_map]
  · obtain ⟨hstate, hbytes⟩ := assembleFrom_eq_serveAll lines 0 (s := startState p) h
    refine ⟨?_, ?_⟩
    · rw [assembleRun, hstate, ← run_queued, List.length_map]
    · refine hbytes.symm.trans (List.flatMap_congr fun r _ => ?_)
      cases r <;> rfl

/-! ## Each side alone -/

/-- R168: two states agree on the DEC side and on what it has answered. -/
abbrev DecSame (s d : State) : Prop := DecAgree s d ∧ s.results.filter Result.fromDec = d.results.filter Result.fromDec

/-- R168: two states of the unbounded machine agree on the ENC side and on what it has answered. -/
abbrev EncSame (s e : State) : Prop :=
  s.params.addrw = none ∧ EncAgree s e ∧ s.results.filter Result.fromEnc = e.results.filter Result.fromEnc

/-- R168: a relation kept by the requests a side sees, and by those it does not, relates any interleaving to that side alone. -/
theorem serveAll_filter {R : State → State → Prop} {sees : Request → Bool}
    (hsees : ∀ r s u, sees r = true → R s u → R (serve r s) (serve r u))
    (hskips : ∀ r s u, sees r = false → R s u → R (serve r s) u) (rs : List Request) {s u : State} (h : R s u) :
    R (serveAll rs s) (serveAll (rs.filter sees) u) := by
  induction rs generalizing s u with
  | nil => exact h
  | cons r rs ih =>
    cases hr : sees r with
    | true =>
      rw [List.filter_cons_of_pos hr]
      exact ih (hsees r s u hr h)
    | false =>
      rw [List.filter_cons_of_neg (by simp [hr])]
      exact ih (hskips r s u hr h)

/-- R168, R160: the DEC side answers its own requests the same. -/
theorem decSame_of_forDec (r : Request) (s d : State) (hr : r.forDec = true) (h : DecSame s d) :
    DecSame (serve r s) (serve r d) := by
  obtain ⟨hagree, hres⟩ := h
  cases r with
  | enc line => cases hr
  | dec w =>
    obtain ⟨hagree', a, ha, ha'⟩ := decStep_agree hagree defaultTable w
    refine ⟨hagree', ?_⟩
    simp only [serve, ha, ha', List.filter_cons, hres]
  | reset k =>
    obtain ⟨hmode, haddr, hparams⟩ := hagree
    cases k <;> simp [DecSame, DecAgree, serve, hmode, haddr, hparams, hres, Result.fromDec]

/-- R168, R160: other requests do nothing to the DEC side. -/
theorem decSame_of_not_forDec (r : Request) (s d : State) (hr : r.forDec = false) (h : DecSame s d) : DecSame (serve r s) d := by
  obtain ⟨hagree, hres⟩ := h
  cases r with
  | dec w => cases hr
  | enc line =>
    rcases encStep_cases defaultTable line s with ⟨-, w, -, hs⟩ | ⟨-, e, -, hs⟩ | ⟨-, hs⟩ <;> rw [serve, hs] <;>
      exact ⟨hagree, hres⟩
  | reset k =>
    cases k with
    | both | decOnly => cases hr
    | encOnly => exact ⟨hagree, hres⟩

/-- R168, R160: the ENC side answers its own requests the same. -/
theorem encSame_of_forEnc (r : Request) (s e : State) (hr : r.forEnc = true) (h : EncSame s e) :
    EncSame (serve r s) (serve r e) := by
  obtain ⟨hunb, hagree, hres⟩ := h
  refine ⟨by rwa [serve_params], ?_⟩
  cases r with
  | dec w => cases hr
  | enc line =>
    obtain ⟨hagree', a, ha, ha'⟩ := encStep_agree hagree defaultTable line
    refine ⟨hagree', ?_⟩
    simp only [serve, ha, ha', List.filter_cons, hres]
  | reset k =>
    obtain ⟨hcause, haddr, hparams⟩ := hagree
    cases k <;> simp [EncAgree, serve, hcause, haddr, hparams, hres, Result.fromEnc]

/-- R168, R160: other requests do nothing to the ENC side, and in the unbounded machine none of them is refused. -/
theorem encSame_of_not_forEnc (r : Request) (s e : State) (hr : r.forEnc = false) (h : EncSame s e) : EncSame (serve r s) e := by
  obtain ⟨hunb, hagree, hres⟩ := h
  cases r with
  | enc line => cases hr
  | dec w =>
    rw [serve, decStep_unbounded defaultTable w hunb]
    exact ⟨hunb, hagree, hres⟩
  | reset k =>
    cases k with
    | both | encOnly => cases hr
    | decOnly => exact ⟨hunb, hagree, hres⟩

/-- Settles O60: each side's own requests keep agreement with that side alone, and the other side's do not touch it. -/
theorem interleavingDoesNotMatter : Obligations.InterleavingDoesNotMatter := by
  intro p rs hunb
  obtain ⟨⟨hmode, haddr, -⟩, hdec⟩ : DecSame (serveAll rs (startState p)) (serveAll (rs.filter Request.forDec) (startState p)) :=
    serveAll_filter decSame_of_forDec decSame_of_not_forDec rs ⟨⟨rfl, rfl, rfl⟩, rfl⟩
  obtain ⟨-, ⟨hcause, headdr, -⟩, henc⟩ :
      EncSame (serveAll rs (startState p)) (serveAll (rs.filter Request.forEnc) (startState p)) :=
    serveAll_filter encSame_of_forEnc encSame_of_not_forEnc rs ⟨hunb, ⟨rfl, rfl, rfl⟩, rfl⟩
  exact ⟨_, _, _, run_queued p rs, run_queued p _, run_queued p _, hmode, haddr, hdec, hcause, headdr, henc⟩

end Sys2Proof.Laws
end

section
/-! PROOFS. The default table itself (R34, R36), and words decoded from the spec's encodings. -/

namespace Sys2Proof.Laws

open Sys2Proof.Machine

/-- R46: the rows listed for a shape name are rows of the table with a slot list of that shape. -/
theorem shape_rows (sh : Shape) : ∀ f ∈ sh.rows, f ∈ defaultTable ∧ f.slots ∈ sh.slotLists := by
  cases sh <;> decide

/-- Settles O1: each check of R34 is a finite one on the 35 rows. -/
theorem defaultTableIsWellFormed : Obligations.DefaultTableIsWellFormed :=
  ⟨defaultTable_wellFormed, by decide, rfl, rfl, defaultTable_layoutMask, shape_rows⟩

/-- Settles O7: the two bytes of each word are found in its row, and one byte alone is no word. -/
theorem sampleWordsDecode : Obligations.SampleWordsDecode := by
  refine ⟨?_, ?_, ?_, ?_, ?_, ?_, ?_, rfl⟩ <;> decide

end Sys2Proof.Laws
end
